-- ==== Sys2Proof/Word.lean ====
section
/-! DEFINITION. The word types of the DS1302 protocol engine: the 32-bit host command word (R60), the byte of the
wire (R9) and the text of the host procedures (R143). -/

namespace Sys2Proof

/-- A host command word: `CMD_W = 32` (R9, R60). -/
abbrev Word := BitVec 32

/-- A byte: a wire command byte, a wire data byte or a register value (R9 `BYTE`). -/
abbrev Byte := BitVec 8

/-- A string of the host procedures, as its characters first to last (R143, R146 to R149). -/
abbrev Text := List Char

end Sys2Proof
end

