-- ==== Sys2Proof/Config.lean ====
section
/-! DEFINITION. What the spec leaves open (R10; 93_implementation_defined.md U1, U2, U5, U10) and the fixed
century string (R9). The opaque constants are free values: nothing in Lean can evaluate them, so whatever is
proved of the model holds whatever they are. -/

namespace Sys2Proof.Config

/-- The `draw8()` of R99: the byte BCDENC answers for an operand above 99 (R94, U1), at the n-th draw. -/
opaque freeByte : Nat → Byte

/-- The peripheral oracle `PERIPH` (R10, R48, U5) where the state schedules no level: the bit the n-th draw samples. -/
opaque freeBit : Nat → Bool

/-- Whether the line driver reports failure (R154, U10) where the state schedules no report, at the n-th draw.
Asked only while `LINE_MAY_FAIL` is true. -/
opaque driverFails : Nat → Bool

/-- The name `weekday_name` answers for an index outside 1 to 7 (R149, U2): any string, at the n-th draw. -/
opaque freeName : Nat → Text

/-- The index the name match answers for a string that is none of the seven names, at the n-th draw: R149 gives the match
only for a name (DESIGN CHOICE, entry 18). -/
opaque freeIndex : Nat → Nat

/-- `WEEKDAY_NAMES` (R10, U13): seven pairwise distinct strings, an argument of whatever uses them. -/
structure WeekdayNames where
  names : List Text
  seven : names.length = 7
  distinct : names.Nodup

end Sys2Proof.Config
end

