-- ==== Sys2Proof/Syntax.lean ====
section
/-! DEFINITION. The syntax of the two instruction sets of spec/opcode_table.json: the twenty host commands
(30_encoding.md sections 2 to 5) and the sixteen wire command bytes (42_mapper.md section 3), one constructor a row. -/

namespace Sys2Proof

/-- The eight peripheral registers of the address table (R37, R104); the constructor order is the register index. -/
inductive Register where
  | sec | min | hour | day | month | wday | year | wp
  deriving DecidableEq, Repr

/-- The seven logical time fields that have accessors (R9 `NFIELD`, R123). -/
inductive TimeField where
  | sec | min | hour | day | month | wday | year
  deriving DecidableEq, Repr

/-- The direction of a command byte: bit 0 of the wire command byte (R57) and DIR of MAPADDR (R65). -/
inductive Direction where
  | write | read
  deriving DecidableEq, Repr

/-- A bit range `hi:lo` of a byte, both ends a bit position 0 to 7 (R64, R66). -/
structure BitRange where
  hi : BitVec 3
  lo : BitVec 3
  deriving DecidableEq, Repr

/-- The instructions. `wXxxW d` is the wire command byte of a write with the data byte `d` the block drives after it;
`wXxxR` is the wire command byte of a read (R59, R107 to R122). -/
inductive Instr where
  | rdreg (a : Byte)
  | wrreg (a d : Byte)
  | rev8 (x : Byte)
  | bcdenc (x : Byte)
  | bcddec (tens : Option BitRange) (ones : BitRange) (x : Byte)
  | mapaddr (r : Register) (dir : Direction)
  | fgetSec
  | fgetMin
  | fgetHour
  | fgetDay
  | fgetMonth
  | fgetWday
  | fgetYear
  | fsetSec (v : Byte)
  | fsetMin (v : Byte)
  | fsetHour (v : Byte)
  | fsetDay (v : Byte)
  | fsetMonth (v : Byte)
  | fsetWday (v : Byte)
  | fsetYear (v : Byte)
  | wSecW (d : Byte)
  | wSecR
  | wMinW (d : Byte)
  | wMinR
  | wHourW (d : Byte)
  | wHourR
  | wDayW (d : Byte)
  | wDayR
  | wMonthW (d : Byte)
  | wMonthR
  | wWdayW (d : Byte)
  | wWdayR
  | wYearW (d : Byte)
  | wYearR
  | wWpW (d : Byte)
  | wWpR
  deriving DecidableEq, Repr

/-- The field read of a field: FGET.f (R123). -/
def Instr.fget : TimeField → Instr
  | .sec => .fgetSec
  | .min => .fgetMin
  | .hour => .fgetHour
  | .day => .fgetDay
  | .month => .fgetMonth
  | .wday => .fgetWday
  | .year => .fgetYear

/-- The field write of a field: FSET.f v (R124). -/
def Instr.fset : TimeField → Byte → Instr
  | .sec => .fsetSec
  | .min => .fsetMin
  | .hour => .fsetHour
  | .day => .fsetDay
  | .month => .fsetMonth
  | .wday => .fsetWday
  | .year => .fsetYear

/-- The wire write command of a register, `W.r.W`, with the data byte that follows it (R59, R70). -/
def Instr.wireWrite : Register → Byte → Instr
  | .sec => .wSecW
  | .min => .wMinW
  | .hour => .wHourW
  | .day => .wDayW
  | .month => .wMonthW
  | .wday => .wWdayW
  | .year => .wYearW
  | .wp => .wWpW

/-- The wire read command of a register, `W.r.R` (R59, R70). -/
def Instr.wireRead : Register → Instr
  | .sec => .wSecR
  | .min => .wMinR
  | .hour => .wHourR
  | .day => .wDayR
  | .month => .wMonthR
  | .wday => .wWdayR
  | .year => .wYearR
  | .wp => .wWpR

/-- A time field's register in the address table (R104). -/
def TimeField.register : TimeField → Register
  | .sec => .sec
  | .min => .min
  | .hour => .hour
  | .day => .day
  | .month => .month
  | .wday => .wday
  | .year => .year

end Sys2Proof
end

