-- ==== Sys2Proof/Machine/State.lean ====
section
/-! DEFINITION. The machine's state as plain data: the line state (R17), the sequencer and its latches (R22 to R26), the
host port (R27, R28), and beside them what the other agents of R8 present to the block: the host's commands, the
peripheral's levels, the line driver's reports and the reset input. -/

namespace Sys2Proof.Machine

/-- A line level (R12). -/
inductive Level where
  | low | high
  deriving DecidableEq, Repr

/-- The direction of the DATA line (R17). -/
inductive Dir where
  | output | input
  deriving DecidableEq, Repr

/-- The three lines (R16). -/
inductive Line where
  | clock | data | ce
  deriving DecidableEq, Repr

/-- A line action (R12). `SetDir` and `ReadLevel` apply to DATA only (R17); a read records the level it returned (R87). -/
inductive LineAction where
  | setLevel (line : Line) (l : Level)
  | readLevel (l : Level)
  | setDir (d : Dir)
  deriving DecidableEq, Repr

/-- The sequencer's position (R22). -/
inductive Phase where
  | idle | bClk | bCe | txD | txH | txL | turn | rxL | rxS | rxH | eCe | eClk | eDir | done
  deriving DecidableEq, Repr

/-- Whether the running transaction is a read or a write (R23). -/
inductive Kind where
  | read | write
  deriving DecidableEq, Repr

/-- What happens when a transaction completes (R26). -/
inductive Post where
  | none
  | dec (f : TimeField)
  | discard
  deriving DecidableEq, Repr

/-- The names of the error codes (R151). -/
inductive ErrorCode where
  | none | validation | illegalCommand | lineFault | faulted
  deriving DecidableEq, Repr

/-- One response of the block at the host port (R27). -/
structure Response where
  result : BitVec 16
  err : BitVec 3
  deriving DecidableEq, Repr

/-- A host procedure: a fixed sequence of command words, at least one (R141); a single command is a procedure of one. -/
structure Procedure where
  first : Word
  rest : List Word
  deriving DecidableEq, Repr

/-- The machine. -/
structure State where
  /-- The CLOCK line (R17). -/
  clk : Level
  /-- The chip-select line (R17). -/
  ce : Level
  /-- The direction of DATA (R17). -/
  dataDir : Dir
  /-- The output latch of DATA (R17, R18). -/
  dataOut : Level
  /-- The sequencer's position (R22). -/
  phase : Phase
  /-- The running transaction's kind (R23). -/
  kind : Kind
  /-- The transmit latch: A in bits 7:0, D in bits 15:8 (R24). -/
  txseq : BitVec 16
  /-- How many bits to shift out (R24). -/
  ntx : BitVec 5
  /-- Transmitted bits, 5 bits (R25). -/
  i : BitVec 5
  /-- Sampled bits, 4 bits (R25). -/
  j : BitVec 4
  /-- The receive latch (R25). -/
  rx : BitVec 8
  /-- What the running command does on completion (R26). -/
  post : Post
  /-- The field code of the running field command (R26). -/
  fld : BitVec 3
  /-- The host-visible result (R28). -/
  result : BitVec 16
  /-- The host-visible error code (R28, R151). -/
  err : BitVec 3
  /-- A command is running (R28). -/
  busy : Bool
  /-- A line fault happened since reset (R28). -/
  faulted : Bool
  /-- The line trace: every line action done, first to last (R12). -/
  trace : List LineAction
  /-- Every response presented at the host port, first to last (R27). -/
  responses : List Response
  /-- The host: the words of the procedure in progress that it has not issued yet (R141). -/
  proc : List Word
  /-- The host: the procedures it has not begun, first to last (R141). -/
  todo : List Procedure
  /-- The host: how many responses had been given when the procedure in progress, or else the last one, began; the later
  ones are its own (R141, R142). -/
  procBegan : Nat
  /-- The peripheral `PERIPH`: the levels it presents at the coming samples; after them the levels are free (R48). -/
  samples : List Level
  /-- The parameter `LINE_MAY_FAIL` (R10). -/
  lineMayFail : Bool
  /-- The line driver: whether it reports failure of each coming action; after them the reports are free (R154). -/
  reports : List Bool
  /-- How many free values have been drawn. -/
  draws : Nat
  /-- The reset input (R167): true when reset is applied at the coming step. -/
  resetPin : Bool
  deriving DecidableEq, Repr

/-- Why the machine stops. No state that meets the invariant of Safety.lean reaches either. -/
inductive Fault where
  /-- Raised by the sequencer in TX_D when `I` names no bit of `TXSEQ[15:0]` (R24, R25 keep `I` below 16 there).
  Safe: the machine stops where the spec gives no bit to shift out. -/
  | transmitIndex
  /-- Raised by the sequencer in RX_S when `J` names no bit of `RX[7:0]` (R25 keeps `J` below 8 there).
  Safe: the machine stops where the spec gives no bit to store. -/
  | receiveIndex
  deriving DecidableEq, Repr

/-- Why an instruction has no meaning. -/
inductive Refusal where
  /-- Raised by an arm of exec whose instruction has no meaning yet. Safe; no arm raises it. -/
  | notModelled (mnemonic : String)
  deriving DecidableEq, Repr

/-- The four line actions of reset, in order (R167). -/
def resetActions : List LineAction :=
  [.setLevel .ce .low, .setLevel .clock .low, .setDir .output, .setLevel .data .low]

/-- The machine right after reset: R35's table, the trace of reset's own actions (R167), nothing presented by the
other agents, and `LINE_MAY_FAIL` at its default (R10). -/
def State.reset : State where
  clk := .low
  ce := .low
  dataDir := .output
  dataOut := .low
  phase := .idle
  kind := .read
  txseq := 0
  ntx := 8
  i := 0
  j := 0
  rx := 0
  post := .none
  fld := 0
  result := 0
  err := 0
  busy := false
  faulted := false
  trace := resetActions
  responses := []
  proc := []
  todo := []
  procBegan := 0
  samples := []
  lineMayFail := false
  reports := []
  draws := 0
  resetPin := false

end Sys2Proof.Machine
end

