-- ==== Sys2Proof/Machine/Flags.lean ====
section
/-! DEFINITION. The flags of the host port: the error codes (R151), READY (R27), the STATUS view (R29), and the level
the block drives onto DATA (R17, R19). -/

namespace Sys2Proof.Machine

/-- The three-bit code of an error (R151). -/
def ErrorCode.code : ErrorCode → BitVec 3
  | .none => 0
  | .validation => 1
  | .illegalCommand => 2
  | .lineFault => 3
  | .faulted => 4

/-- `READY = 1` exactly when `BUSY = 0` (R27). -/
def State.ready (s : State) : Bool := !s.busy

/-- `STATUS[7:0] = {000, ERR, FAULTED, BUSY}` (R29), a view with no side effect. -/
def State.status (s : State) : Byte := 0#3 ++ s.err ++ BitVec.ofBool s.faulted ++ BitVec.ofBool s.busy

/-- The level the block drives onto DATA: the output latch while DATA is an output, nothing while it is an input
(R17, R19). -/
def State.drivenData (s : State) : Option Level :=
  match s.dataDir with
  | .output => some s.dataOut
  | .input => none

end Sys2Proof.Machine
end

