-- ==== Sys2Proof/WellFormed.lean ====
section
/-! DEFINITION. Which instructions are well-formed: every field is typed by its width, and BCDDEC's ranges are not
inverted (R64, R67 check 3). -/

namespace Sys2Proof

/-- A range is not inverted: `hi >= lo` (R64). -/
def BitRange.wf (r : BitRange) : Bool := decide (r.lo ≤ r.hi)

/-- The legality of an instruction's operands (R64, R66, R67). -/
def WellFormed : Instr → Bool
  | .bcddec (some tens) ones _ => tens.wf && ones.wf
  | .bcddec none ones _ => ones.wf
  | .rdreg _ | .wrreg _ _ | .rev8 _ | .bcdenc _ | .mapaddr _ _ => true
  | .fgetSec | .fgetMin | .fgetHour | .fgetDay | .fgetMonth | .fgetWday | .fgetYear => true
  | .fsetSec _ | .fsetMin _ | .fsetHour _ | .fsetDay _ | .fsetMonth _ | .fsetWday _ | .fsetYear _ => true
  | .wSecW _ | .wMinW _ | .wHourW _ | .wDayW _ | .wMonthW _ | .wWdayW _ | .wYearW _ | .wWpW _ => true
  | .wSecR | .wMinR | .wHourR | .wDayR | .wMonthR | .wWdayR | .wYearR | .wWpR => true

end Sys2Proof
end

