-- ==== Sys2Proof/Decode.lean ====
section
/-! DEFINITION. The decoder of the host command word (R60 to R68) and of the wire command byte (R57, R59), the encoders
written from the same tables, and the match and mask table of R71. -/

namespace Sys2Proof

/-- Why a code is no instruction: the check of R67 that failed, or what the wire table of R104 lacks. -/
inductive Reject where
  /-- OP is 0x0 or 0x9 to 0xF (R67 check 1). -/
  | opcode
  /-- A bit the format marks "must be 0" is 1 (R67 check 2). -/
  | reservedBits
  /-- A BCDDEC range has `hi < lo` (R67 check 3). -/
  | invertedRange
  /-- FGET or FSET with FLD = 7 (R67 check 4, R126). -/
  | noSuchField
  /-- A command byte that is none of the sixteen of the wire table (R49, R104). -/
  | notInTable
  /-- A read command byte with a data byte driven after it (R59, R75). -/
  | dataAfterRead
  deriving DecidableEq, Repr

/-- The register index (R57). -/
def Register.code : Register → BitVec 3
  | .sec => 0
  | .min => 1
  | .hour => 2
  | .day => 3
  | .month => 4
  | .wday => 5
  | .year => 6
  | .wp => 7

/-- The register of an index (R57). -/
def Register.ofCode (c : BitVec 3) : Register :=
  match c.toNat with
  | 0 => .sec
  | 1 => .min
  | 2 => .hour
  | 3 => .day
  | 4 => .month
  | 5 => .wday
  | 6 => .year
  | _ => .wp

/-- The field code FLD of a time field (R65). -/
def TimeField.code (f : TimeField) : BitVec 3 := f.register.code

/-- The time field of a field code; code 7 is WP, which has no accessor (R65, R126). -/
def TimeField.ofCode (c : BitVec 3) : Option TimeField :=
  match c.toNat with
  | 0 => some .sec
  | 1 => some .min
  | 2 => some .hour
  | 3 => some .day
  | 4 => some .month
  | 5 => some .wday
  | 6 => some .year
  | _ => none

/-- The direction bit: 0 write, 1 read (R57, R65). -/
def Direction.code : Direction → BitVec 1
  | .write => 0
  | .read => 1

/-- The direction of a bit (R57, R65). -/
def Direction.ofBit (b : Bool) : Direction := if b then .read else .write

/-- BCDDEC, format B (R64), with the checks of R67 in order. -/
def decodeBcddec (w : Word) : Except Reject Instr :=
  let tens : BitRange := ⟨w.extractLsb' 24 3, w.extractLsb' 21 3⟩
  let ones : BitRange := ⟨w.extractLsb' 18 3, w.extractLsb' 15 3⟩
  let x := w.extractLsb' 0 8
  if w.extractLsb' 8 7 ≠ 0 then .error .reservedBits
  else if w.getLsbD 27 then
    if tens.wf && ones.wf then .ok (.bcddec (some tens) ones x) else .error .invertedRange
  else if w.extractLsb' 21 6 ≠ 0 then .error .reservedBits
  else if ones.wf then .ok (.bcddec none ones x) else .error .invertedRange

/-- The decoder of the host command word: OP selects the format, then the checks of R67 in order. -/
def decode (w : Word) : Except Reject Instr :=
  match (w.extractLsb' 28 4).toNat with
  | 1 =>
    if w.extractLsb' 8 20 = 0 then .ok (.rdreg (w.extractLsb' 0 8)) else .error .reservedBits
  | 2 =>
    if w.extractLsb' 16 12 = 0 then .ok (.wrreg (w.extractLsb' 0 8) (w.extractLsb' 8 8))
    else .error .reservedBits
  | 3 =>
    if w.extractLsb' 8 20 = 0 then .ok (.rev8 (w.extractLsb' 0 8)) else .error .reservedBits
  | 4 =>
    if w.extractLsb' 8 20 = 0 then .ok (.bcdenc (w.extractLsb' 0 8)) else .error .reservedBits
  | 5 => decodeBcddec w
  | 6 =>
    if w.extractLsb' 27 1 = 0 ∧ w.extractLsb' 17 7 = 0 ∧ w.extractLsb' 0 16 = 0 then
      .ok (.mapaddr (Register.ofCode (w.extractLsb' 24 3)) (Direction.ofBit (w.getLsbD 16)))
    else .error .reservedBits
  | 7 =>
    if w.extractLsb' 27 1 = 0 ∧ w.extractLsb' 0 24 = 0 then
      match TimeField.ofCode (w.extractLsb' 24 3) with
      | some f => .ok (Instr.fget f)
      | none => .error .noSuchField
    else .error .reservedBits
  | 8 =>
    if w.extractLsb' 27 1 = 0 ∧ w.extractLsb' 8 16 = 0 then
      match TimeField.ofCode (w.extractLsb' 24 3) with
      | some f => .ok (Instr.fset f (w.extractLsb' 0 8))
      | none => .error .noSuchField
    else .error .reservedBits
  | _ => .error .opcode

/-- The decoder of a wire command: `seq` is laid out as the transmit latch TXSEQ, the command byte in bits 7:0 and, for
a write, the data byte in bits 15:8 (R24); the byte's layout is R57's, with the index 0 to 7 of the table (R49). -/
def decodeWire (seq : BitVec 16) : Except Reject Instr :=
  let r := Register.ofCode (seq.extractLsb' 1 3)
  if seq.extractLsb' 4 4 ≠ 0x8#4 then .error .notInTable
  else if seq.getLsbD 0 then
    if seq.extractLsb' 8 8 = 0 then .ok (Instr.wireRead r) else .error .dataAfterRead
  else .ok (Instr.wireWrite r (seq.extractLsb' 8 8))

/-- What an instruction is encoded to: a host command word, or a wire command laid out as TXSEQ. -/
inductive Code where
  | host (w : Word)
  | wire (seq : BitVec 16)
  deriving DecidableEq, Repr

/-- The decoder of either code. -/
def decodeCode : Code → Except Reject Instr
  | .host w => decode w
  | .wire seq => decodeWire seq

/-- Format R (R62): OP, twelve zero bits, D, A. -/
def formatR (op : BitVec 4) (d a : Byte) : Word := op ++ 0#12 ++ d ++ a

/-- Format U (R63): OP, twenty zero bits, X. -/
def formatU (op : BitVec 4) (x : Byte) : Word := op ++ 0#20 ++ x

/-- Format B (R64): OP, T, THI, TLO, OHI, OLO, seven zero bits, X. -/
def formatB (t : BitVec 1) (tens ones : BitRange) (x : Byte) : Word :=
  0x5#4 ++ t ++ tens.hi ++ tens.lo ++ ones.hi ++ ones.lo ++ 0#7 ++ x

/-- Format F (R65): OP, a zero bit, FLD, seven zero bits, DIR, eight zero bits, V. -/
def formatF (op : BitVec 4) (fld : BitVec 3) (dir : BitVec 1) (v : Byte) : Word :=
  op ++ 0#1 ++ fld ++ 0#7 ++ dir ++ 0#8 ++ v

/-- The wire command byte by its layout (R57): ONE = 1, B6 = 0, the five-bit index REG, RW. -/
def wireByte (r : Register) (dir : Direction) : Byte := 1#1 ++ 0#1 ++ 0#2 ++ r.code ++ dir.code

/-- The encoder, written from R57 and R61 to R65. -/
def encode : Instr → Code
  | .rdreg a => .host (formatR 0x1#4 0 a)
  | .wrreg a d => .host (formatR 0x2#4 d a)
  | .rev8 x => .host (formatU 0x3#4 x)
  | .bcdenc x => .host (formatU 0x4#4 x)
  | .bcddec (some tens) ones x => .host (formatB 1 tens ones x)
  | .bcddec none ones x => .host (formatB 0 ⟨0, 0⟩ ones x)
  | .mapaddr r dir => .host (formatF 0x6#4 r.code dir.code 0)
  | .fgetSec => .host (formatF 0x7#4 0 0 0)
  | .fgetMin => .host (formatF 0x7#4 1 0 0)
  | .fgetHour => .host (formatF 0x7#4 2 0 0)
  | .fgetDay => .host (formatF 0x7#4 3 0 0)
  | .fgetMonth => .host (formatF 0x7#4 4 0 0)
  | .fgetWday => .host (formatF 0x7#4 5 0 0)
  | .fgetYear => .host (formatF 0x7#4 6 0 0)
  | .fsetSec v => .host (formatF 0x8#4 0 0 v)
  | .fsetMin v => .host (formatF 0x8#4 1 0 v)
  | .fsetHour v => .host (formatF 0x8#4 2 0 v)
  | .fsetDay v => .host (formatF 0x8#4 3 0 v)
  | .fsetMonth v => .host (formatF 0x8#4 4 0 v)
  | .fsetWday v => .host (formatF 0x8#4 5 0 v)
  | .fsetYear v => .host (formatF 0x8#4 6 0 v)
  | .wSecW d => .wire (d ++ wireByte .sec .write)
  | .wSecR => .wire (0#8 ++ wireByte .sec .read)
  | .wMinW d => .wire (d ++ wireByte .min .write)
  | .wMinR => .wire (0#8 ++ wireByte .min .read)
  | .wHourW d => .wire (d ++ wireByte .hour .write)
  | .wHourR => .wire (0#8 ++ wireByte .hour .read)
  | .wDayW d => .wire (d ++ wireByte .day .write)
  | .wDayR => .wire (0#8 ++ wireByte .day .read)
  | .wMonthW d => .wire (d ++ wireByte .month .write)
  | .wMonthR => .wire (0#8 ++ wireByte .month .read)
  | .wWdayW d => .wire (d ++ wireByte .wday .write)
  | .wWdayR => .wire (0#8 ++ wireByte .wday .read)
  | .wYearW d => .wire (d ++ wireByte .year .write)
  | .wYearR => .wire (0#8 ++ wireByte .year .read)
  | .wWpW d => .wire (d ++ wireByte .wp .write)
  | .wWpR => .wire (0#8 ++ wireByte .wp .read)

/-- One row of the match and mask table (R71), with its extra condition on the word. -/
structure OpcodeRow where
  mnemonic : String
  value : Word
  mask : Word
  deriving DecidableEq, Repr

/-- R71's rows, in its order. -/
def hostRows : List OpcodeRow :=
  [⟨"RDREG", 0x10000000, 0xFFFFFF00⟩, ⟨"WRREG", 0x20000000, 0xFFFF0000⟩,
   ⟨"REV8", 0x30000000, 0xFFFFFF00⟩, ⟨"BCDENC", 0x40000000, 0xFFFFFF00⟩,
   ⟨"BCDDEC", 0x50000000, 0xF0007F00⟩, ⟨"MAPADDR", 0x60000000, 0xF8FEFFFF⟩] ++
  [⟨"FGET.SEC", 0x70000000, 0xFFFFFFFF⟩, ⟨"FGET.MIN", 0x71000000, 0xFFFFFFFF⟩,
   ⟨"FGET.HOUR", 0x72000000, 0xFFFFFFFF⟩, ⟨"FGET.DAY", 0x73000000, 0xFFFFFFFF⟩,
   ⟨"FGET.MONTH", 0x74000000, 0xFFFFFFFF⟩, ⟨"FGET.WDAY", 0x75000000, 0xFFFFFFFF⟩,
   ⟨"FGET.YEAR", 0x76000000, 0xFFFFFFFF⟩] ++
  [⟨"FSET.SEC", 0x80000000, 0xFFFFFF00⟩, ⟨"FSET.MIN", 0x81000000, 0xFFFFFF00⟩,
   ⟨"FSET.HOUR", 0x82000000, 0xFFFFFF00⟩, ⟨"FSET.DAY", 0x83000000, 0xFFFFFF00⟩,
   ⟨"FSET.MONTH", 0x84000000, 0xFFFFFF00⟩, ⟨"FSET.WDAY", 0x85000000, 0xFFFFFF00⟩,
   ⟨"FSET.YEAR", 0x86000000, 0xFFFFFF00⟩]

/-- A word matches a row's pattern: `w & mask == match` (R71). -/
def OpcodeRow.hits (row : OpcodeRow) (w : Word) : Bool := w &&& row.mask == row.value

/-- The extra condition of R71's BCDDEC row; every other row has none. -/
def OpcodeRow.condition (row : OpcodeRow) (w : Word) : Bool :=
  if row.mnemonic = "BCDDEC" then
    let thi := w.extractLsb' 24 3
    let tlo := w.extractLsb' 21 3
    let ohi := w.extractLsb' 18 3
    let olo := w.extractLsb' 15 3
    decide (olo ≤ ohi) && (if w.getLsbD 27 then decide (tlo ≤ thi) else w.extractLsb' 21 6 == 0)
  else true

/-- The mnemonic of a host command as R61 and the opcode table spell it; a wire command byte by its name of R70. -/
def Instr.mnemonic : Instr → String
  | .rdreg _ => "RDREG"
  | .wrreg _ _ => "WRREG"
  | .rev8 _ => "REV8"
  | .bcdenc _ => "BCDENC"
  | .bcddec _ _ _ => "BCDDEC"
  | .mapaddr _ _ => "MAPADDR"
  | .fgetSec => "FGET.SEC"
  | .fgetMin => "FGET.MIN"
  | .fgetHour => "FGET.HOUR"
  | .fgetDay => "FGET.DAY"
  | .fgetMonth => "FGET.MONTH"
  | .fgetWday => "FGET.WDAY"
  | .fgetYear => "FGET.YEAR"
  | .fsetSec _ => "FSET.SEC"
  | .fsetMin _ => "FSET.MIN"
  | .fsetHour _ => "FSET.HOUR"
  | .fsetDay _ => "FSET.DAY"
  | .fsetMonth _ => "FSET.MONTH"
  | .fsetWday _ => "FSET.WDAY"
  | .fsetYear _ => "FSET.YEAR"
  | .wSecW _ => "W.SEC.W"
  | .wSecR => "W.SEC.R"
  | .wMinW _ => "W.MIN.W"
  | .wMinR => "W.MIN.R"
  | .wHourW _ => "W.HOUR.W"
  | .wHourR => "W.HOUR.R"
  | .wDayW _ => "W.DAY.W"
  | .wDayR => "W.DAY.R"
  | .wMonthW _ => "W.MONTH.W"
  | .wMonthR => "W.MONTH.R"
  | .wWdayW _ => "W.WDAY.W"
  | .wWdayR => "W.WDAY.R"
  | .wYearW _ => "W.YEAR.W"
  | .wYearR => "W.YEAR.R"
  | .wWpW _ => "W.WP.W"
  | .wWpR => "W.WP.R"

/-- The instruction the decoder reads from bits numbered as the opcode table numbers them: rows of the wire format have
8 bits (a write's data byte counts on from bit 8, as in TXSEQ, R24), host command words 32. -/
def decodeTableWord (nbits w : Nat) : Option Instr :=
  if nbits ≤ 16 then (decodeWire (BitVec.ofNat 16 w)).toOption
  else (decode (BitVec.ofNat 32 w)).toOption

end Sys2Proof
end

