-- ==== Sys2Proof/Machine/Operands.lean ====
section
/-! DEFINITION. The operand forms of the commands: levels and bits (R13), bit slices of a byte (R11), zero extension to
RESULT (R66), the address map (R104, R105), the decode ranges of the fields (R96) and the operands FSET accepts (R124). -/

namespace Sys2Proof.Machine

/-- `lvl(b)`: bit 1 is HIGH (R13). -/
def lvl (b : Bool) : Level := if b then .high else .low

/-- `bit(l)`: HIGH is bit 1 (R13). -/
def bit : Level → Bool
  | .low => false
  | .high => true

/-- `x[hi:lo]` as an unsigned number (R11). -/
def slice (x : Byte) (r : BitRange) : Nat := x.toNat / 2 ^ r.lo.toNat % 2 ^ (r.hi.toNat - r.lo.toNat + 1)

/-- `zext_16` of a byte (R11, R66). -/
def zext16 (x : Byte) : BitVec 16 := x.setWidth 16

/-- `x` with bit `k` replaced by `b`: the store `RX[J] <- bit(l)` (R81). -/
def storeBit (x : Byte) (k : Nat) (b : Bool) : Byte :=
  if b then x ||| (1#8 <<< k) else x &&& ~~~(1#8 <<< k)

/-- `map(f, dir) = 0x80 | (f << 1) | dir` (R105). -/
def mapAddress (r : Register) (dir : Direction) : Byte :=
  0x80#8 ||| (r.code.setWidth 8 <<< 1) ||| dir.code.setWidth 8

/-- The tens range of each field's decode; the weekday has none (R96). -/
def tensRange : TimeField → Option BitRange
  | .sec => some ⟨6, 4⟩
  | .min => some ⟨6, 4⟩
  | .hour => some ⟨5, 4⟩
  | .day => some ⟨5, 4⟩
  | .month => some ⟨4, 4⟩
  | .wday => none
  | .year => some ⟨7, 4⟩

/-- The ones range of each field's decode (R96). -/
def onesRange : TimeField → BitRange
  | .sec => ⟨3, 0⟩
  | .min => ⟨3, 0⟩
  | .hour => ⟨3, 0⟩
  | .day => ⟨3, 0⟩
  | .month => ⟨3, 0⟩
  | .wday => ⟨2, 0⟩
  | .year => ⟨3, 0⟩

/-- The operands FSET.f accepts: 1 to 7 for the weekday, 0 to 99 for every other field (R124). -/
def fsetAccepts (f : TimeField) (v : Byte) : Bool :=
  match f with
  | .wday => decide (1 ≤ v.toNat ∧ v.toNat ≤ 7)
  | .sec | .min | .hour | .day | .month | .year => decide (v.toNat ≤ 99)

end Sys2Proof.Machine
end

