-- ==== Sys2Proof/Machine/Ops.lean ====
section
/-! DEFINITION. The shared operations: line actions and their failure (R12, R81, R154), draws of the open values (R48,
R94), responses and errors (R151 to R159), the start and the end of a transaction (R75, R82), and reset (R167). -/

namespace Sys2Proof.Machine

/-- The sequencer moves to a phase (R22). -/
def State.toPhase (p : Phase) (s : State) : State := { s with phase := p }

/-- A line action done: it changes the line state (R17) and is appended to the line trace (R12). -/
def State.perform (a : LineAction) (s : State) : State :=
  match a with
  | .setLevel .clock l => { s with clk := l, trace := s.trace ++ [a] }
  | .setLevel .ce l => { s with ce := l, trace := s.trace ++ [a] }
  | .setLevel .data l => { s with dataOut := l, trace := s.trace ++ [a] }
  | .setDir d => { s with dataDir := d, trace := s.trace ++ [a] }
  | .readLevel _ => { s with trace := s.trace ++ [a] }

/-- The level the peripheral presents at a sample (R48): the next scheduled one, else a free value. -/
def drawLevel (s : State) : Level × State :=
  match s.samples with
  | l :: ls => (l, { s with samples := ls })
  | [] => (lvl (Config.freeBit s.draws), { s with draws := s.draws + 1 })

/-- `draw8()` of R99: a free byte. -/
def drawByte (s : State) : Byte × State := (Config.freeByte s.draws, { s with draws := s.draws + 1 })

/-- Whether the line driver reports failure of the coming action (R10, R154): never unless `LINE_MAY_FAIL`, else the
next scheduled report, else a free value. -/
def driverReport (s : State) : Bool × State :=
  if s.lineMayFail then
    match s.reports with
    | r :: rs => (r, { s with reports := rs })
    | [] => (Config.driverFails s.draws, { s with draws := s.draws + 1 })
  else (false, s)

/-- The response of a completed command: RESULT and ERR are written and presented (R27, R28, R30). -/
def State.respond (r : BitVec 16) (e : ErrorCode) (s : State) : State :=
  { s with result := r, err := e.code, responses := s.responses ++ [⟨r, e.code⟩] }

/-- The command is over and the block is back in IDLE, ready (R82, R158). -/
def State.toIdle (s : State) : State := { s with busy := false, phase := .idle }

/-- `raise E` (R13, R158): the command completes with its error code and RESULT 0, and the block returns to IDLE.
Nothing is saved and there is no handler, so no command returns from an error (R158, R159). -/
def State.raise (e : ErrorCode) (s : State) : State := (s.respond 0 e).toIdle

/-- LINE_FAULT (R154): the transaction stops where it is, the lines stay as they are, and FAULTED is set. -/
def State.lineFault (s : State) : State := { s.raise .lineFault with faulted := true }

/-- A line action of a transaction: done, then `k`, unless the line driver reports failure (R81, R154). -/
def act (a : LineAction) (k : State → State) (s : State) : State :=
  match driverReport s with
  | (true, t) => t.lineFault
  | (false, t) => k (t.perform a)

/-- `ReadLevel(DATA)` of a transaction: the level drawn is recorded and handed to `k` (R48, R81). -/
def actRead (k : Level → State → State) (s : State) : State :=
  match driverReport s with
  | (true, t) => t.lineFault
  | (false, t) =>
    match drawLevel t with
    | (l, u) => k l (u.perform (.readLevel l))

/-- While FAULTED every command is answered at once with the error FAULTED (R155), which is checked first (R157). -/
def unlessFaulted (k : State → State) (s : State) : State := if s.faulted then s.raise .faulted else k s

/-- NTX by kind (R24). -/
def ntxOf : Kind → BitVec 5
  | .read => 8
  | .write => 16

/-- The latches a transaction starts from (R75): the command byte `a` and, for a write, the data byte `d`. -/
def State.load (kind : Kind) (a d : Byte) (s : State) : State :=
  { s with
    busy := true
    kind := kind
    txseq := d ++ a
    ntx := ntxOf kind
    rx := 0
    i := 0
    j := 0
    phase := .bClk }

/-- Acceptance of a command that runs a transaction (R75); it does no line action. -/
def State.accept (kind : Kind) (a d : Byte) (post : Post) (s : State) : State := { s.load kind a d with post := post }

/-- Acceptance of a field command, which also latches its field code (R26). -/
def State.acceptField (kind : Kind) (a d : Byte) (post : Post) (f : TimeField) (s : State) : State :=
  { s.accept kind a d post with fld := f.code }

/-- A command that computes without the lines completes in one step (R38, R89). -/
def State.answer (r : BitVec 16) (s : State) : State := s.respond r .none

/-- `complete()` and the end of DONE: the response, BUSY 0, IDLE (R81, R82). -/
def State.finish (r : BitVec 16) (s : State) : State := (s.respond r .none).toIdle

/-- Reset (R167): the running command is abandoned without a response, the four line actions are done whatever the line
driver reports, and every piece of the block's state takes the value of R35. What the other agents present stays; but a
procedure whose command was abandoned gets no response to go on from (R141) and one whose last command failed has
stopped (R142), so their other commands are not issued, and an abandoned procedure has nothing to report. -/
def applyReset (s : State) : State :=
  { resetActions.foldl (fun t a => t.perform a) s with
    phase := .idle
    kind := .read
    txseq := 0
    ntx := 8
    i := 0
    j := 0
    rx := 0
    post := .none
    fld := 0
    result := 0
    err := 0
    busy := false
    faulted := false
    proc := if s.busy ∨ s.err ≠ 0 then [] else s.proc
    procBegan := if s.busy then s.responses.length else s.procBegan
    resetPin := false }

end Sys2Proof.Machine
end

