-- ==== Sys2Proof/Machine/Codec.lean ====
section
/-! DEFINITION. The register codec (41_codec.md): the functions `enc`, `dec` and `decode_f`, and the commands BCDENC and
BCDDEC. -/

namespace Sys2Proof.Machine

/-- `enc(v) = ((v div 10) << 4) | (v mod 10)` for v in 0 to 99 (R93). -/
def enc (v : Byte) : Byte := ((v / 10#8) <<< 4) ||| (v % 10#8)

/-- `dec`, exactly: `tens * 10 + ones`, or the ones range alone (R95). -/
def dec (tens : Option BitRange) (ones : BitRange) (x : Byte) : Nat :=
  match tens with
  | some r => slice x r * 10 + slice x ones
  | none => slice x ones

/-- `decode_f(x)` (R96). -/
def decodeField (f : TimeField) (x : Byte) : Nat := dec (tensRange f) (onesRange f) x

/-- BCDENC (R99): above 99 the byte is a draw and there is no error (R94). -/
def bcdenc (x : Byte) (s : State) : State :=
  if x.toNat ≤ 99 then s.answer (zext16 (enc x))
  else
    match drawByte s with
    | (b, t) => t.answer (zext16 b)

/-- BCDENC (R99). -/
def execBcdenc (x : Byte) (s : State) : Host.Outcome State Fault Refusal := .next (unlessFaulted (bcdenc x) s)

/-- BCDDEC (R100); the largest result, 2805, fits RESULT (R101). -/
def execBcddec (tens : Option BitRange) (ones : BitRange) (x : Byte) (s : State) :
    Host.Outcome State Fault Refusal :=
  .next (unlessFaulted (State.answer (BitVec.ofNat 16 (dec tens ones x))) s)

end Sys2Proof.Machine
end

