-- ==== Sys2Proof/Machine/Engine.lean ====
section
/-! DEFINITION. The commands of the transaction engine (40_engine.md section 4): REV8, RDREG and WRREG. RDREG and WRREG
are accepted here; Machine/Sequencer.lean runs their transactions, one line action a step (R81). -/

namespace Sys2Proof.Machine

/-- `REV8(x)[i] = x[7 - i]` (R72): the result's bits from 7 down to 0. -/
def rev8 (x : Byte) : Byte :=
  x.extractLsb' 0 1 ++ x.extractLsb' 1 1 ++ x.extractLsb' 2 1 ++ x.extractLsb' 3 1 ++
    x.extractLsb' 4 1 ++ x.extractLsb' 5 1 ++ x.extractLsb' 6 1 ++ x.extractLsb' 7 1

/-- REV8 (R89). -/
def execRev8 (x : Byte) (s : State) : Host.Outcome State Fault Refusal :=
  .next (unlessFaulted (State.answer (zext16 (rev8 x))) s)

/-- RDREG (R90): any command byte is sent as given (R39). -/
def execRdreg (a : Byte) (s : State) : Host.Outcome State Fault Refusal :=
  .next (unlessFaulted (State.accept .read a 0 .none) s)

/-- WRREG (R91): any command byte and data byte are sent as given (R39). -/
def execWrreg (a d : Byte) (s : State) : Host.Outcome State Fault Refusal :=
  .next (unlessFaulted (State.accept .write a d .none) s)

end Sys2Proof.Machine
end

