-- ==== Sys2Proof/Machine/FieldRead.lean ====
section
/-! DEFINITION. The field reads FGET.f (43_field_access.md section 2). Each is accepted here as the read transaction of
its field's read byte; Machine/Sequencer.lean runs it and decodes the received byte (R123). -/

namespace Sys2Proof.Machine

/-- A field read: `decode_f(RegRead(map(f, 1)))` (R123), accepted with `POST <- DEC(f)` (R26). -/
def fieldRead (f : TimeField) : State → State :=
  unlessFaulted (State.acceptField .read (mapAddress f.register .read) 0 (.dec f) f)

/-- FGET.SEC (R127). -/
def execFgetSec (s : State) : Host.Outcome State Fault Refusal := .next (fieldRead .sec s)

/-- FGET.MIN (R128). -/
def execFgetMin (s : State) : Host.Outcome State Fault Refusal := .next (fieldRead .min s)

/-- FGET.HOUR (R129). -/
def execFgetHour (s : State) : Host.Outcome State Fault Refusal := .next (fieldRead .hour s)

/-- FGET.DAY (R130). -/
def execFgetDay (s : State) : Host.Outcome State Fault Refusal := .next (fieldRead .day s)

/-- FGET.MONTH (R131). -/
def execFgetMonth (s : State) : Host.Outcome State Fault Refusal := .next (fieldRead .month s)

/-- FGET.WDAY (R132). -/
def execFgetWday (s : State) : Host.Outcome State Fault Refusal := .next (fieldRead .wday s)

/-- FGET.YEAR (R133). -/
def execFgetYear (s : State) : Host.Outcome State Fault Refusal := .next (fieldRead .year s)

end Sys2Proof.Machine
end

