-- ==== Sys2Proof/Machine/FieldWrite.lean ====
section
/-! DEFINITION. The field writes FSET.f (43_field_access.md section 3): the operand is validated before any line action
(R124), then the write transaction of the field's write byte is accepted; Machine/Sequencer.lean runs it (R125). -/

namespace Sys2Proof.Machine

/-- A field write: VALIDATION for an operand out of range (R124, R152), else `RegWrite(map(f, 0), enc(V))` (R125),
accepted with `POST <- DISCARD` (R26). -/
def fieldWrite (f : TimeField) (v : Byte) : State → State :=
  unlessFaulted fun s =>
    if fsetAccepts f v then s.acceptField .write (mapAddress f.register .write) (enc v) .discard f
    else s.raise .validation

/-- FSET.SEC (R134). -/
def execFsetSec (v : Byte) (s : State) : Host.Outcome State Fault Refusal := .next (fieldWrite .sec v s)

/-- FSET.MIN (R135). -/
def execFsetMin (v : Byte) (s : State) : Host.Outcome State Fault Refusal := .next (fieldWrite .min v s)

/-- FSET.HOUR (R136). -/
def execFsetHour (v : Byte) (s : State) : Host.Outcome State Fault Refusal := .next (fieldWrite .hour v s)

/-- FSET.DAY (R137). -/
def execFsetDay (v : Byte) (s : State) : Host.Outcome State Fault Refusal := .next (fieldWrite .day v s)

/-- FSET.MONTH (R138). -/
def execFsetMonth (v : Byte) (s : State) : Host.Outcome State Fault Refusal := .next (fieldWrite .month v s)

/-- FSET.WDAY (R139). -/
def execFsetWday (v : Byte) (s : State) : Host.Outcome State Fault Refusal := .next (fieldWrite .wday v s)

/-- FSET.YEAR (R140). -/
def execFsetYear (v : Byte) (s : State) : Host.Outcome State Fault Refusal := .next (fieldWrite .year v s)

end Sys2Proof.Machine
end

