-- ==== Sys2Proof/Machine/Mapper.lean ====
section
/-! DEFINITION. The address mapper's command MAPADDR (42_mapper.md section 2). -/

namespace Sys2Proof.Machine

/-- MAPADDR (R106). -/
def execMapaddr (r : Register) (dir : Direction) (s : State) : Host.Outcome State Fault Refusal :=
  .next (unlessFaulted (State.answer (zext16 (mapAddress r dir))) s)

end Sys2Proof.Machine
end

