-- ==== Sys2Proof/Machine/Wire.lean ====
section
/-! DEFINITION. The wire command bytes (42_mapper.md section 3, R107 to R122) as the commands of the transaction engine.
A wire command byte is the first byte of a transaction (R15): it selects a register and which way the data byte that
follows it travels (R59). Its execution opens that transaction: the latches hold it (R24, R75) and the first line action
is done (R81, B_CLK); Machine/Sequencer.lean then sends its bits and the data byte's, or samples the data byte. POST and
FLD stay with the host command that emitted it. -/

namespace Sys2Proof.Machine

/-- A transaction is opened: its latches (R75) and the line action of B_CLK (R81). -/
def openTransaction (kind : Kind) (a d : Byte) : State → State :=
  unlessFaulted fun s => act (.setLevel .clock .low) (State.toPhase .bCe) (s.load kind a d)

/-- A wire write command: the block then drives the data byte `d` (R59). -/
def wireWrite (r : Register) (d : Byte) : State → State := openTransaction .write (mapAddress r .write) d

/-- A wire read command: the block then samples the data byte (R59). -/
def wireRead (r : Register) : State → State := openTransaction .read (mapAddress r .read) 0

/-- W.SEC.W (R107). -/
def execWSecW (d : Byte) (s : State) : Host.Outcome State Fault Refusal := .next (wireWrite .sec d s)

/-- W.SEC.R (R108). -/
def execWSecR (s : State) : Host.Outcome State Fault Refusal := .next (wireRead .sec s)

/-- W.MIN.W (R109). -/
def execWMinW (d : Byte) (s : State) : Host.Outcome State Fault Refusal := .next (wireWrite .min d s)

/-- W.MIN.R (R110). -/
def execWMinR (s : State) : Host.Outcome State Fault Refusal := .next (wireRead .min s)

/-- W.HOUR.W (R111). -/
def execWHourW (d : Byte) (s : State) : Host.Outcome State Fault Refusal := .next (wireWrite .hour d s)

/-- W.HOUR.R (R112). -/
def execWHourR (s : State) : Host.Outcome State Fault Refusal := .next (wireRead .hour s)

/-- W.DAY.W (R113). -/
def execWDayW (d : Byte) (s : State) : Host.Outcome State Fault Refusal := .next (wireWrite .day d s)

/-- W.DAY.R (R114). -/
def execWDayR (s : State) : Host.Outcome State Fault Refusal := .next (wireRead .day s)

/-- W.MONTH.W (R115). -/
def execWMonthW (d : Byte) (s : State) : Host.Outcome State Fault Refusal := .next (wireWrite .month d s)

/-- W.MONTH.R (R116). -/
def execWMonthR (s : State) : Host.Outcome State Fault Refusal := .next (wireRead .month s)

/-- W.WDAY.W (R117). -/
def execWWdayW (d : Byte) (s : State) : Host.Outcome State Fault Refusal := .next (wireWrite .wday d s)

/-- W.WDAY.R (R118). -/
def execWWdayR (s : State) : Host.Outcome State Fault Refusal := .next (wireRead .wday s)

/-- W.YEAR.W (R119). -/
def execWYearW (d : Byte) (s : State) : Host.Outcome State Fault Refusal := .next (wireWrite .year d s)

/-- W.YEAR.R (R120). -/
def execWYearR (s : State) : Host.Outcome State Fault Refusal := .next (wireRead .year s)

/-- W.WP.W (R121). -/
def execWWpW (d : Byte) (s : State) : Host.Outcome State Fault Refusal := .next (wireWrite .wp d s)

/-- W.WP.R (R122). -/
def execWWpR (s : State) : Host.Outcome State Fault Refusal := .next (wireRead .wp s)

end Sys2Proof.Machine
end

