-- ==== Sys2Proof/Machine/Dispatch.lean ====
section
/-! DEFINITION. The dispatch: one arm per instruction. -/

namespace Sys2Proof.Machine

def exec (i : Instr) (s : State) : Host.Outcome State Fault Refusal :=
  match i with
  | .rdreg a => Sys2Proof.Machine.execRdreg a s
  | .wrreg a d => Sys2Proof.Machine.execWrreg a d s
  | .rev8 x => Sys2Proof.Machine.execRev8 x s
  | .bcdenc x => Sys2Proof.Machine.execBcdenc x s
  | .bcddec tens ones x => Sys2Proof.Machine.execBcddec tens ones x s
  | .mapaddr r dir => Sys2Proof.Machine.execMapaddr r dir s
  | .fgetSec => Sys2Proof.Machine.execFgetSec s
  | .fgetMin => Sys2Proof.Machine.execFgetMin s
  | .fgetHour => Sys2Proof.Machine.execFgetHour s
  | .fgetDay => Sys2Proof.Machine.execFgetDay s
  | .fgetMonth => Sys2Proof.Machine.execFgetMonth s
  | .fgetWday => Sys2Proof.Machine.execFgetWday s
  | .fgetYear => Sys2Proof.Machine.execFgetYear s
  | .fsetSec v => Sys2Proof.Machine.execFsetSec v s
  | .fsetMin v => Sys2Proof.Machine.execFsetMin v s
  | .fsetHour v => Sys2Proof.Machine.execFsetHour v s
  | .fsetDay v => Sys2Proof.Machine.execFsetDay v s
  | .fsetMonth v => Sys2Proof.Machine.execFsetMonth v s
  | .fsetWday v => Sys2Proof.Machine.execFsetWday v s
  | .fsetYear v => Sys2Proof.Machine.execFsetYear v s
  | .wSecW d => Sys2Proof.Machine.execWSecW d s
  | .wSecR => Sys2Proof.Machine.execWSecR s
  | .wMinW d => Sys2Proof.Machine.execWMinW d s
  | .wMinR => Sys2Proof.Machine.execWMinR s
  | .wHourW d => Sys2Proof.Machine.execWHourW d s
  | .wHourR => Sys2Proof.Machine.execWHourR s
  | .wDayW d => Sys2Proof.Machine.execWDayW d s
  | .wDayR => Sys2Proof.Machine.execWDayR s
  | .wMonthW d => Sys2Proof.Machine.execWMonthW d s
  | .wMonthR => Sys2Proof.Machine.execWMonthR s
  | .wWdayW d => Sys2Proof.Machine.execWWdayW d s
  | .wWdayR => Sys2Proof.Machine.execWWdayR s
  | .wYearW d => Sys2Proof.Machine.execWYearW d s
  | .wYearR => Sys2Proof.Machine.execWYearR s
  | .wWpW d => Sys2Proof.Machine.execWWpW d s
  | .wWpR => Sys2Proof.Machine.execWWpR s

end Sys2Proof.Machine
end

