-- ==== Sys2Proof/Machine/Sequencer.lean ====
section
/-! DEFINITION. The sequencer (40_engine.md section 2): one transition of the table of R81 a step, each with exactly one
line action but for DONE. -/

namespace Sys2Proof.Machine

/-- After the falling edge of a transmitted bit: `I` counts it, and the next bit, the turnaround or the end follows
(R81, TX_L). -/
def bitSent (s : State) : State :=
  let n := s.i + 1
  let next := if n < s.ntx then .txD else match s.kind with
    | .write => .eCe
    | .read => .turn
  { s with i := n, phase := next }

/-- After the rising edge that follows a sample: `J` counts it, and the next sample or the end follows (R81, RX_H). -/
def bitReceived (s : State) : State :=
  let n := s.j + 1
  { s with j := n, phase := if n < 8 then .rxL else .eCe }

/-- A sample is stored: `RX[J] <- bit(l)` (R81, RX_S). -/
def storeSample (l : Level) (s : State) : State :=
  { s with rx := storeBit s.rx s.j.toNat (bit l), phase := .rxH }

/-- `complete()` (R82): the result by POST and KIND, and ERR 0; then BUSY 0 and IDLE (R81, DONE). -/
def complete (s : State) : State :=
  match s.post, s.kind with
  | .none, .read => s.finish (zext16 s.rx)
  | .none, .write => s.finish 0
  | .dec f, _ => s.finish (BitVec.ofNat 16 (decodeField f s.rx))
  | .discard, _ => s.finish 0

/-- The phase after E_CLK (R81). -/
def afterLastClock (s : State) : State :=
  s.toPhase (match s.kind with
    | .read => .eDir
    | .write => .done)

/-- One step of the sequencer (R81). In IDLE it makes none. -/
def seqStep (s : State) : Host.Outcome State Fault Refusal :=
  match s.phase with
  | .idle => .next s
  | .bClk => .next (act (.setLevel .clock .low) (State.toPhase .bCe) s)
  | .bCe => .next (act (.setLevel .ce .high) (State.toPhase .txD) s)
  | .txD =>
    if s.i.toNat < 16 then
      .next (act (.setLevel .data (lvl (s.txseq.getLsbD s.i.toNat))) (State.toPhase .txH) s)
    else .fault .transmitIndex
  | .txH => .next (act (.setLevel .clock .high) (State.toPhase .txL) s)
  | .txL => .next (act (.setLevel .clock .low) bitSent s)
  | .turn => .next (act (.setDir .input) (State.toPhase .rxL) s)
  | .rxL => .next (act (.setLevel .clock .low) (State.toPhase .rxS) s)
  | .rxS => if s.j.toNat < 8 then .next (actRead storeSample s) else .fault .receiveIndex
  | .rxH => .next (act (.setLevel .clock .high) bitReceived s)
  | .eCe => .next (act (.setLevel .ce .low) (State.toPhase .eClk) s)
  | .eClk => .next (act (.setLevel .clock .low) afterLastClock s)
  | .eDir => .next (act (.setDir .output) (State.toPhase .done) s)
  | .done => .next (complete s)

end Sys2Proof.Machine
end

