-- ==== Sys2Proof/Machine/Port.lean ====
section
/-! DEFINITION. Where instructions are fetched. The host issues command words at the host port (R27, R52, R141, R142);
the engine takes the wire command byte from the transmit latch when a transaction opens (R24, R81 B_CLK). -/

namespace Sys2Proof.Machine

/-- A command word at the host port: executed if R67 admits it, else ILLEGAL_COMMAND, after FAULTED in priority
(R68, R153, R155, R157). -/
def acceptWord (w : Word) (s : State) : Host.Outcome State Fault Refusal :=
  match decode w with
  | .ok i => exec i s
  | .error _ => .next (unlessFaulted (State.raise .illegalCommand) s)

/-- The word the host issues next, with the host's state after issuing it: a procedure in progress goes on (R141), then
the next procedure begins, whose responses are those given from then on. -/
def nextWord (s : State) : Option (Word × State) :=
  match s.proc with
  | w :: ws => some (w, { s with proc := ws })
  | [] =>
    match s.todo with
    | p :: ps => some (p.first, { s with proc := p.rest, todo := ps, procBegan := s.responses.length })
    | [] => none

/-- A step in IDLE. The host presents a word only while READY (R27); a procedure in progress whose last command
completed with `ERR /= 0` stops, and its other commands are not issued (R142); with nothing to issue the block waits
(R166, R169). -/
def hostStep (s : State) : Host.Outcome State Fault Refusal :=
  if s.busy then .next s
  else if s.proc ≠ [] ∧ s.err ≠ 0 then .next { s with proc := [] }
  else
    match nextWord s with
    | some (w, t) => acceptWord w t
    | none => .next s

/-- The direction a transaction's kind pairs with (R59). -/
def Kind.direction : Kind → Direction
  | .read => .read
  | .write => .write

/-- The wire command the transmit latch holds, if its command byte is one of the table's and its read/write bit pairs
with the transaction's kind (R57, R59); RDREG and WRREG may send any other byte (R39). -/
def fetchWire (s : State) : Option Instr :=
  if s.ntx = ntxOf s.kind ∧ s.txseq.getLsbD 0 = (s.kind.direction == .read) then (decodeWire s.txseq).toOption
  else none

/-- A step of the engine: at B_CLK it executes the wire command it fetches, a byte outside the table being sent as given
(R39); in every other phase the sequencer steps (R81). -/
def engineStep (s : State) : Host.Outcome State Fault Refusal :=
  match s.phase, fetchWire s with
  | .bClk, some i => exec i s
  | _, _ => seqStep s

/-- One step of the machine: reset if it is applied (R167), else the host port in IDLE, else the engine. -/
def advance (s : State) : Host.Outcome State Fault Refusal :=
  if s.resetPin then .next (applyReset s)
  else if s.phase = .idle then hostStep s
  else engineStep s

/-- The state in which the host is about to issue exactly the word `w`. -/
def State.presenting (w : Word) (s : State) : State :=
  { s with resetPin := false, phase := .idle, busy := false, proc := [], todo := ⟨w, []⟩ :: s.todo }

/-- The state in which the engine is about to open the transaction of the wire command laid out in `seq`: a read or a
write as bit 0 says (R57). -/
def State.holdingWire (seq : BitVec 16) (s : State) : State :=
  { s.load (if seq.getLsbD 0 then .read else .write) (seq.extractLsb' 0 8) (seq.extractLsb' 8 8) with
    resetPin := false }

end Sys2Proof.Machine
end

