-- ==== Sys2Proof/Machine/Step.lean ====
section
/-! DEFINITION. The step of the machine, and the state whose next step runs a given instruction. -/

namespace Sys2Proof.Machine

/-- One step: one transition of the block, or one act of the host while the block is ready (R81, R27). -/
def step (s : State) : Host.Outcome State Fault Refusal := advance s

/-- `s` with an instruction of the opcode table where the next step fetches: a 32-bit word at the host port, a wire
command in the transmit latch at B_CLK. -/
def State.withFetchWord (s : State) (nbits w : Nat) : State :=
  if nbits ≤ 16 then s.holdingWire (BitVec.ofNat 16 w) else s.presenting (BitVec.ofNat 32 w)

end Sys2Proof.Machine
end

