-- ==== Sys2Proof/Machine/HostProcedures.lean ====
section
/-! DEFINITION. The host procedures (44_host_sequences.md): the command words each expands to, which the host of
Machine/Port.lean issues, and the text it presents from their results. -/

namespace Sys2Proof.Machine

/-- The word `FGET.f` (R69). -/
def fgetWord (f : TimeField) : Word := formatF 0x7#4 f.code 0 0

/-- The word `FSET.f v` (R69). -/
def fsetWord (f : TimeField) (v : Byte) : Word := formatF 0x8#4 f.code 0 v

/-- `WRITETIME h, m[, s]`: hours, then minutes, then seconds, which are 0 when omitted (R144). -/
def writeTime (h m : Byte) (s : Byte := 0) : Procedure := ⟨fsetWord .hour h, [fsetWord .min m, fsetWord .sec s]⟩

/-- `WRITEDATE d, mo, y`: day, then month, then year (R145). -/
def writeDate (d mo y : Byte) : Procedure := ⟨fsetWord .day d, [fsetWord .month mo, fsetWord .year y]⟩

/-- `READTIME`: hours, then minutes, then seconds (R146). -/
def readTime : Procedure := ⟨fgetWord .hour, [fgetWord .min, fgetWord .sec]⟩

/-- `READDATE`: day, then month, then year (R147). -/
def readDate : Procedure := ⟨fgetWord .day, [fgetWord .month, fgetWord .year]⟩

/-- `fmt2(n)`: the decimal spelling, padded with `0` to at least two characters, never truncated (R143). -/
def fmt2 (n : Nat) : Text := if n < 10 then '0' :: Nat.toDigits 10 n else Nat.toDigits 10 n

/-- The fixed century (R9 `CENTURY`). -/
def century : Text := ['2', '0']

/-- `year_str(y) = "20" ++ fmt2(y)` (R148). -/
def yearStr (y : Nat) : Text := century ++ fmt2 y

/-- READTIME's result `HH:MM:SS` from its three RESULTs (R146). -/
def timeText (h m s : Nat) : Text := fmt2 h ++ [':'] ++ fmt2 m ++ [':'] ++ fmt2 s

/-- READDATE's result `DD.MM.YYYY` from its three RESULTs (R147). -/
def dateText (d mo y : Nat) : Text := fmt2 d ++ ['.'] ++ fmt2 mo ++ ['.'] ++ yearStr y

/-- `weekday_name(i) = WEEKDAY_NAMES[i - 1]` for i in 1 to 7; any other index names any string, a free value at the
`n`-th draw (R149). -/
def weekdayName (names : Config.WeekdayNames) (n i : Nat) : Text :=
  if 1 ≤ i ∧ i ≤ 7 then names.names.getD (i - 1) [] else Config.freeName n

/-- The index of a name by name match, counted from 1 (R149). For a string that is none of the seven names the spec
gives no index: the model answers a free value at the `n`-th draw (DESIGN CHOICE, entry 18). -/
def weekdayIndex (names : Config.WeekdayNames) (n : Nat) (t : Text) : Nat :=
  if t ∈ names.names then names.names.idxOf t + 1 else Config.freeIndex n

/-- The responses to the commands of the procedure in progress, or else of the last one (R141). -/
def State.procResponses (s : State) : List Response := s.responses.drop s.procBegan

/-- What a procedure reports (R142): the error of the command that completed with `ERR /= 0`, as soon as it has; else,
when its last command has completed, the RESULTs of its commands, first to last; nothing while it runs or before the
first one begins. How the host tells a procedure's responses from others is entry 3. -/
def procedureReport (s : State) : Option (Except (BitVec 3) (List (BitVec 16))) :=
  match s.procResponses.find? (fun r => r.err != 0) with
  | some r => some (.error r.err)
  | none =>
    if s.busy ∨ s.proc ≠ [] ∨ s.procResponses = [] then none else some (.ok (s.procResponses.map (·.result)))

/-- What READTIME and READDATE present from their report: the text of their three RESULTs (R146, R147), or the error
(R142). -/
def presentReport (f : Nat → Nat → Nat → Text) (s : State) : Option (Except (BitVec 3) Text) :=
  match procedureReport s with
  | none => none
  | some (.error e) => some (.error e)
  | some (.ok [a, b, c]) => some (.ok (f a.toNat b.toNat c.toNat))
  | some (.ok _) => none

end Sys2Proof.Machine
end

