-- ==== Sys2Proof/Safety.lean ====
section
/-! DEFINITION. The terms claims are stated in: runs, the invariant of the block, what the other agents may do between
steps, reachability, the bound on a transaction, and the line traces of R86 and R87. -/

namespace Sys2Proof.Machine

/-- `n` steps, up to the first stop. -/
def steps : Nat → State → Host.Outcome State Fault Refusal
  | 0, s => .next s
  | n + 1, s =>
    match step s with
    | .next t => steps n t
    | .fault r => .fault r
    | .refused r => .refused r

/-- The next `n` line actions succeed: `LINE_MAY_FAIL` is false, or the driver's next `n` reports are of no failure. -/
def DriverOk (n : Nat) (s : State) : Prop :=
  s.lineMayFail = true → ∃ rest, s.reports = List.replicate n false ++ rest

/-- The coming line action fails: `LINE_MAY_FAIL` is true and the driver's next report is of a failure. -/
def DriverFails (s : State) : Prop := s.lineMayFail = true ∧ ∃ rest, s.reports = true :: rest

/-- The state after `n` line actions whose reports were read. -/
def State.dropReports (n : Nat) (s : State) : State :=
  if s.lineMayFail then { s with reports := s.reports.drop n } else s

/-- `s` after a command answered with the result `r` and no error: RESULT, ERR and the response written, nothing else
(R27, R28, R82). -/
def State.withAnswer (r : BitVec 16) (s : State) : State :=
  { s with result := r, err := 0, responses := s.responses ++ [⟨r, 0⟩] }

/-- `s` after a command answered with the error code `e`: RESULT 0, the code and the response written, the block in IDLE
and ready, nothing else (R151, R158). -/
def State.withError (e : BitVec 3) (s : State) : State :=
  { s with result := 0, err := e, responses := s.responses ++ [⟨0, e⟩], busy := false, phase := .idle }

/-! The invariant. -/

/-- CLOCK's level in each phase (R81, R84, R88). -/
def clkAt (s : State) : Level :=
  match s.phase with
  | .idle | .bClk | .bCe | .txD | .txH | .turn | .rxS | .rxH | .eDir | .done => .low
  | .txL => .high
  | .rxL => if s.j = 0 then .low else .high
  | .eCe | .eClk =>
    match s.kind with
    | .read => .high
    | .write => .low

/-- CE's level in each phase (R76, R81). -/
def ceAt (s : State) : Level :=
  match s.phase with
  | .idle | .bClk | .bCe | .eClk | .eDir | .done => .low
  | .txD | .txH | .txL | .turn | .rxL | .rxS | .rxH | .eCe => .high

/-- DATA's direction in each phase (R20, R78, R80). -/
def dirAt (s : State) : Dir :=
  match s.phase with
  | .idle | .bClk | .bCe | .txD | .txH | .txL | .turn | .done => .output
  | .rxL | .rxS | .rxH | .eDir => .input
  | .eCe | .eClk =>
    match s.kind with
    | .read => .input
    | .write => .output

/-- `I` in each phase (R25, R81). -/
def txCountFits (s : State) : Bool :=
  match s.phase with
  | .idle => decide (s.i.toNat ≤ 16)
  | .bClk | .bCe => s.i == 0
  | .txD | .txH | .txL => decide (s.i < s.ntx)
  | .turn | .rxL | .rxS | .rxH | .eCe | .eClk | .eDir | .done => s.i == s.ntx

/-- `J` in each phase (R25, R81). -/
def rxCountFits (s : State) : Bool :=
  match s.phase with
  | .idle => decide (s.j.toNat ≤ 8)
  | .bClk | .bCe | .txD | .txH | .txL | .turn => s.j == 0
  | .rxL | .rxS | .rxH => decide (s.j < 8)
  | .eCe | .eClk | .eDir | .done =>
    match s.kind with
    | .read => s.j == 8
    | .write => s.j == 0

/-- Only a read turns DATA around (R78, R81). -/
def kindFits (s : State) : Bool :=
  match s.phase with
  | .turn | .rxL | .rxS | .rxH | .eDir => s.kind == .read
  | .idle | .bClk | .bCe | .txD | .txH | .txL | .eCe | .eClk | .done => true

/-- POST fits the kind while a transaction runs: a decode follows a read, a discard a write (R26). -/
def postFits (s : State) : Bool :=
  match s.post with
  | .none => true
  | .dec _ => s.kind == .read
  | .discard => s.kind == .write

/-- Nothing is received before the turnaround (R75, R81). -/
def rxLatchFits (s : State) : Bool :=
  match s.phase with
  | .bClk | .bCe | .txD | .txH | .txL | .turn => s.rx == 0
  | .idle | .rxL | .rxS | .rxH | .eCe | .eClk | .eDir | .done => true

/-- The output latch holds the bit being sent, then the last bit sent (R18, R77, R84). -/
def dataOutFits (s : State) : Bool :=
  match s.phase with
  | .idle | .bClk | .bCe | .txD => true
  | .txH | .txL => s.dataOut == lvl (s.txseq.getLsbD s.i.toNat)
  | .turn | .rxL | .rxS | .rxH | .eCe | .eClk | .eDir | .done =>
    s.dataOut == lvl (s.txseq.getLsbD (s.ntx.toNat - 1))

/-- The invariant of the block. -/
structure Inv (s : State) : Prop where
  /-- BUSY from acceptance to completion (R28). -/
  busy : s.busy = decide (s.phase ≠ .idle)
  /-- After a line fault no transaction runs (R154, R155). -/
  faulted : s.faulted = true → s.phase = .idle
  /-- ERR is one of the five codes (R151). -/
  err : s.err.toNat ≤ 4
  /-- NTX by kind (R24). -/
  ntx : s.ntx = ntxOf s.kind
  /-- The counts (R25). -/
  txCount : txCountFits s = true
  rxCount : rxCountFits s = true
  rxLatch : rxLatchFits s = true
  /-- The kind and POST (R23, R26). -/
  kind : kindFits s = true
  post : s.phase ≠ .idle → postFits s = true
  /-- The lines, unless a line fault left them where they were (R84, R154, R166). -/
  clk : s.faulted = false → s.clk = clkAt s
  ce : s.faulted = false → s.ce = ceAt s
  dataDir : s.faulted = false → s.dataDir = dirAt s
  dataOut : dataOutFits s = true

/-! What the other agents do between steps. -/

/-- Between two steps the host, the peripheral, the line driver and whoever applies reset may change what they present
to the block, and nothing else (R8, R16, R27). -/
def OutsideAct (s t : State) : Prop :=
  t = { s with
    proc := t.proc
    todo := t.todo
    procBegan := t.procBegan
    samples := t.samples
    reports := t.reports
    draws := t.draws
    resetPin := t.resetPin }

/-- The states reachable from reset, whatever the other agents present and whatever `LINE_MAY_FAIL` is (R10). -/
inductive Reachable : State → Prop where
  | start (mayFail : Bool) : Reachable { State.reset with lineMayFail := mayFail }
  | outside {s t : State} : Reachable s → OutsideAct s t → Reachable t
  | step {s t : State} : Reachable s → step s = .next t → Reachable t

/-! The bound and the traces. -/

/-- The steps from the end of the command byte or of the data byte to IDLE, by kind (R81, R83). -/
def tailSteps : Kind → Nat
  | .read => 29
  | .write => 3

/-- How many steps a running transaction has left, each one line action but for DONE (R83, R180). -/
def stepsLeft (s : State) : Nat :=
  let bits := 3 * (s.ntx.toNat - s.i.toNat)
  let samples := 3 * (8 - s.j.toNat)
  match s.phase with
  | .idle => 0
  | .bClk => bits + tailSteps s.kind + 2
  | .bCe => bits + tailSteps s.kind + 1
  | .txD => bits + tailSteps s.kind
  | .txH => bits + tailSteps s.kind - 1
  | .txL => bits + tailSteps s.kind - 2
  | .turn => 29
  | .rxL => samples + 4
  | .rxS => samples + 3
  | .rxH => samples + 2
  | .eCe =>
    match s.kind with
    | .read => 4
    | .write => 3
  | .eClk =>
    match s.kind with
    | .read => 3
    | .write => 2
  | .eDir => 2
  | .done => 1

/-- The three line actions of a transmitted bit (R77). -/
def bitActions (b : Bool) : List LineAction :=
  [.setLevel .data (lvl b), .setLevel .clock .high, .setLevel .clock .low]

/-- The line actions of a transmitted byte, bit 0 first (R40, R41). -/
def byteActions (x : Byte) : List LineAction := (List.range 8).flatMap fun k => bitActions (x.getLsbD k)

/-- The three line actions of a received bit (R79). -/
def sampleActions (l : Level) : List LineAction :=
  [.setLevel .clock .low, .readLevel l, .setLevel .clock .high]

/-- The line trace of a write transaction (R86). -/
def writeTrace (a d : Byte) : List LineAction :=
  [.setLevel .clock .low, .setLevel .ce .high] ++ byteActions a ++ byteActions d ++
    [.setLevel .ce .low, .setLevel .clock .low]

/-- The line trace of a read transaction whose samples are `ls`, first to last (R87). -/
def readTrace (a : Byte) (ls : List Level) : List LineAction :=
  [.setLevel .clock .low, .setLevel .ce .high] ++ byteActions a ++ [.setDir .input] ++
    ls.flatMap sampleActions ++ [.setLevel .ce .low, .setLevel .clock .low, .setDir .output]

/-- The byte the samples form: `sum over k of bit(s_k) << k` (R74). -/
def receivedByte (ls : List Level) : Byte := BitVec.ofNat 8 (ls.foldr (fun l n => (bit l).toNat + 2 * n) 0)

/-- A line action without the level a read returned, for comparing two runs (R85). -/
def eraseRead : LineAction → LineAction
  | .readLevel _ => .readLevel .low
  | .setLevel line l => .setLevel line l
  | .setDir d => .setDir d

/-- Whether an instruction, where no error stops it, leaves a transaction running: the host commands that run one
(R75) and the wire command bytes (R59). -/
def runsTransaction : Instr → Bool
  | .rdreg _ | .wrreg _ _ => true
  | .fgetSec | .fgetMin | .fgetHour | .fgetDay | .fgetMonth | .fgetWday | .fgetYear => true
  | .fsetSec _ | .fsetMin _ | .fsetHour _ | .fsetDay _ | .fsetMonth _ | .fsetWday _ | .fsetYear _ => true
  | .wSecW _ | .wMinW _ | .wHourW _ | .wDayW _ | .wMonthW _ | .wWdayW _ | .wYearW _ | .wWpW _ => true
  | .wSecR | .wMinR | .wHourR | .wDayR | .wMonthR | .wWdayR | .wYearR | .wWpR => true
  | .rev8 _ | .bcdenc _ | .bcddec _ _ _ | .mapaddr _ _ => false

/-- The write byte of a register in the table of R104, as RESULT shows it. -/
def tableWriteByte : Register → BitVec 16
  | .sec => 0x80
  | .min => 0x82
  | .hour => 0x84
  | .day => 0x86
  | .month => 0x88
  | .wday => 0x8A
  | .year => 0x8C
  | .wp => 0x8E

/-- The read byte of a register in the table of R104, as RESULT shows it. -/
def tableReadByte : Register → BitVec 16
  | .sec => 0x81
  | .min => 0x83
  | .hour => 0x85
  | .day => 0x87
  | .month => 0x89
  | .wday => 0x8B
  | .year => 0x8D
  | .wp => 0x8F

end Sys2Proof.Machine
end

