-- ==== Sys2Proof/Certificates/Slice0/Obligations.lean ====
section
/-! DEFINITION. The statements for the provers. Each docstring names the rules of spec/ the statement rests on; a clause
that rests on a choice of the model names its entry of notes/assumptions/. -/

open Sys2Proof Sys2Proof.Machine

/-! The commands that compute without the lines. -/

/-- R72: REV8's result has bit k equal to bit 7 - k of the operand, and REV8 of the result gives the operand back. REV8
completes in every state that is not faulted and changes RESULT, ERR and the response log alone (R89). -/
def Obligations.Rev8ReversesBitsAndIsAnInvolution : Prop :=
  ∀ (x : Byte) (s : State), s.faulted = false →
    ∃ t u, exec (.rev8 x) s = .next t ∧ t = s.withAnswer t.result ∧
      (∀ k < 8, t.result.getLsbD k = x.getLsbD (7 - k)) ∧ t.result.toNat < 256 ∧
      exec (.rev8 (t.result.setWidth 8)) t = .next u ∧ u.result = x.setWidth 16

/-- R93, R99: for a value 0 to 99 BCDENC completes, its result has the tens digit in bits 7:4 and the ones digit in bits
3:0, each 0 to 9, and nothing above; nothing but RESULT, ERR and the response log changes. -/
def Obligations.BcdencPacksTwoDigits : Prop :=
  ∀ (v : Byte) (s : State), s.faulted = false → v.toNat ≤ 99 →
    ∃ t, exec (.bcdenc v) s = .next t ∧ t = s.withAnswer t.result ∧
      t.result.toNat = v.toNat / 10 * 16 + v.toNat % 10 ∧
      t.result.toNat / 16 % 16 ≤ 9 ∧ t.result.toNat % 16 ≤ 9 ∧ t.result.toNat < 256

/-- R94, R99, U1: above 99 BCDENC completes with no error and some 8-bit result, whatever the free value is. That the
count of draws goes up by one is the model's choice (entry 6). -/
def Obligations.BcdencAbove99CompletesWithSomeByte : Prop :=
  ∀ (v : Byte) (s : State), s.faulted = false → 99 < v.toNat →
    ∃ b : Byte, exec (.bcdenc v) s = .next ({ s with draws := s.draws + 1 }.withAnswer (b.setWidth 16))

/-- R95, R100: BCDDEC on every legal word completes with `tens * 10 + ones`, or the ones range alone where no tens range
is given, each range read as an unsigned number; the result is at most 2805 and never cut (R101); nothing but RESULT,
ERR and the response log changes. -/
def Obligations.BcddecComposesItsRanges : Prop :=
  ∀ (tens : Option BitRange) (ones : BitRange) (x : Byte) (s : State), s.faulted = false →
    WellFormed (.bcddec tens ones x) = true →
    ∃ t, exec (.bcddec tens ones x) s = .next t ∧ t = s.withAnswer t.result ∧ t.result.toNat ≤ 2805 ∧
      t.result.toNat =
        (match tens with
          | some r => (x.extractLsb r.hi.toNat r.lo.toNat).toNat * 10
          | none => 0) + (x.extractLsb ones.hi.toNat ones.lo.toNat).toNat

/-- R98: for every v in 0 to 99, BCDENC then BCDDEC with tens 7:4 and ones 3:0 gives v back. -/
def Obligations.BcdencThenBcddecGivesTheValueBack : Prop :=
  ∀ (v : Byte) (s : State), s.faulted = false → v.toNat ≤ 99 →
    ∃ t u, exec (.bcdenc v) s = .next t ∧
      exec (.bcddec (some ⟨7, 4⟩) ⟨3, 0⟩ (t.result.setWidth 8)) t = .next u ∧ u.result.toNat = v.toNat

/-- R97: a field's decode of `enc(v)` is v exactly up to the field's limit: SEC and MIN 79, HOUR and DAY 39, MONTH 19,
WDAY 7, YEAR 99. -/
def Obligations.FieldDecodeUndoesEncodeUpToItsLimit : Prop :=
  ∀ (f : TimeField) (limit : Nat), (f, limit) ∈
    [(TimeField.sec, 79), (.min, 79), (.hour, 39), (.day, 39), (.month, 19), (.wday, 7), (.year, 99)] →
    ∀ v : Byte, v.toNat ≤ 99 → (decodeField f (enc v) = v.toNat ↔ v.toNat ≤ limit)

/-- R104, R105: MAPADDR completes for every register and direction with the byte of the address table, which is
`0x80 | (f << 1) | dir`, and changes nothing but RESULT, ERR and the response log. -/
def Obligations.MapaddrAnswersTheAddressTable : Prop :=
  ∀ (r : Register) (dir : Direction) (s : State), s.faulted = false →
    exec (.mapaddr r dir) s = .next (s.withAnswer (match dir with
      | .write => tableWriteByte r
      | .read => tableReadByte r)) ∧
    tableWriteByte r = 0x80#16 ||| (r.code.setWidth 16 <<< 1) ∧
    tableReadByte r = 0x80#16 ||| (r.code.setWidth 16 <<< 1) ||| 1#16

/-- R58, R105: in the address the block sends for a register, the read byte is the write byte with its low bit set, and is the
write byte plus one; the write byte is even. -/
def Obligations.ReadByteIsWriteBytePlusOne : Prop :=
  ∀ r : Register, wireByte r .read = wireByte r .write ||| 0x01#8 ∧ wireByte r .read = wireByte r .write + 1 ∧
    wireByte r .write &&& 1#8 = 0 ∧
    ∀ dir, wireByte r dir = 0x80#8 ||| (r.code.setWidth 8 <<< 1) ||| dir.code.setWidth 8 ∧
      mapAddress r dir = wireByte r dir

/-! Acceptance of the commands that run a transaction. -/

/-- R75, R90: RDREG is accepted for every command byte, with the latches R75 gives, and no line action. -/
def Obligations.RdregIsAccepted : Prop :=
  ∀ (a : Byte) (s : State), s.faulted = false →
    exec (.rdreg a) s = .next { s with
      busy := true, kind := .read, txseq := 0#8 ++ a, ntx := 8, rx := 0, i := 0, j := 0, post := .none, phase := .bClk }

/-- R75, R91: WRREG is accepted for every command byte and data byte, with the latches R75 gives, and no line action. -/
def Obligations.WrregIsAccepted : Prop :=
  ∀ (a d : Byte) (s : State), s.faulted = false →
    exec (.wrreg a d) s = .next { s with
      busy := true, kind := .write, txseq := d ++ a, ntx := 16, rx := 0, i := 0, j := 0, post := .none, phase := .bClk }

/-- R123, R127 to R133 with R75 and R26: each of FGET.SEC, FGET.MIN, FGET.HOUR, FGET.DAY, FGET.MONTH, FGET.WDAY and
FGET.YEAR is accepted as the read transaction of its field's read byte, to be decoded on completion. -/
def Obligations.FgetIsAcceptedWithItsReadByte : Prop :=
  ∀ (f : TimeField) (a : Byte), (f, a) ∈
    [(TimeField.sec, 0x81#8), (.min, 0x83), (.hour, 0x85), (.day, 0x87), (.month, 0x89), (.wday, 0x8B), (.year, 0x8D)] →
    ∀ s : State, s.faulted = false →
      exec (Instr.fget f) s = .next { s with
        busy := true, kind := .read, txseq := 0#8 ++ a, ntx := 8, rx := 0, i := 0, j := 0, post := .dec f, fld := f.code
        phase := .bClk }

/-- R124, R125, R134 to R140: each of FSET.SEC, FSET.MIN, FSET.HOUR, FSET.DAY, FSET.MONTH, FSET.WDAY and FSET.YEAR with
an operand its validation passes is accepted as the write transaction of its field's write byte and the operand's two
BCD digits. -/
def Obligations.FsetIsAcceptedWithItsWriteByteAndDigits : Prop :=
  ∀ (f : TimeField) (a : Byte) (lo hi : Nat), (f, a, lo, hi) ∈
    [(TimeField.sec, 0x80#8, 0, 99), (.min, 0x82, 0, 99), (.hour, 0x84, 0, 99), (.day, 0x86, 0, 99),
      (.month, 0x88, 0, 99), (.wday, 0x8A, 1, 7), (.year, 0x8C, 0, 99)] →
    ∀ (v : Byte) (s : State), s.faulted = false → lo ≤ v.toNat → v.toNat ≤ hi →
      exec (Instr.fset f v) s = .next { s with
        busy := true, kind := .write, ntx := 16, rx := 0, i := 0, j := 0, post := .discard, fld := f.code, phase := .bClk
        txseq := BitVec.ofNat 8 (v.toNat / 10 * 16 + v.toNat % 10) ++ a }

/-- R152: FSET.f V raises VALIDATION exactly when V is outside 0 to 99, or outside 1 to 7 for the weekday, and then no
transaction runs, no line action is done, RESULT is 0 and ERR is 1. -/
def Obligations.FsetRaisesValidationExactlyOutOfRange : Prop :=
  ∀ (f : TimeField) (v : Byte) (s : State), s.faulted = false →
    ∃ t, exec (Instr.fset f v) s = .next t ∧
      (if (if f = .wday then 1 ≤ v.toNat ∧ v.toNat ≤ 7 else v.toNat ≤ 99) then
        t.phase = .bClk ∧ t.busy = true ∧ t.responses = s.responses
      else t = s.withError 1)

/-- R59, R107 to R122 with R75 and R81: each of the eight wire write bytes W.SEC.W, W.MIN.W, W.HOUR.W, W.DAY.W,
W.MONTH.W, W.WDAY.W, W.YEAR.W and W.WP.W opens a write transaction with its table byte and the data byte that follows,
and each of the eight wire read bytes W.SEC.R to W.WP.R a read transaction; the line action of B_CLK is done. The
grain of this step is the model's choice (entry 1). -/
def Obligations.WireBytesOpenTheirTransactions : Prop :=
  ∀ (r : Register) (s : State), s.faulted = false → DriverOk 1 s →
    (∀ d : Byte, exec (Instr.wireWrite r d) s = .next { s.dropReports 1 with
      busy := true, kind := .write, txseq := (d.setWidth 16 <<< 8) ||| tableWriteByte r, ntx := 16, rx := 0, i := 0
      j := 0, clk := .low, trace := s.trace ++ [.setLevel .clock .low], phase := .bCe }) ∧
    exec (Instr.wireRead r) s = .next { s.dropReports 1 with
      busy := true, kind := .read, txseq := tableReadByte r, ntx := 8, rx := 0, i := 0
      j := 0, clk := .low, trace := s.trace ++ [.setLevel .clock .low], phase := .bCe }

/-- R107 to R122 ("Emitted by"): the wire command a field read or a field write puts at the engine is the read or write
byte of its own field, with the operand's BCD byte as the data byte of a write; no field command emits a write-protect
byte. That the engine fetches the wire command from the transmit latch is the model's reading (entry 1). -/
def Obligations.FieldCommandsEmitTheirOwnWireByte : Prop :=
  ∀ (f : TimeField) (v : Byte) (s : State), s.faulted = false →
    (∃ t, exec (Instr.fget f) s = .next t ∧ fetchWire t = some (Instr.wireRead f.register)) ∧
    (fsetAccepts f v = true →
      ∃ t, exec (Instr.fset f v) s = .next t ∧ fetchWire t = some (Instr.wireWrite f.register (enc v))) ∧
    f.register ≠ .wp

/-! The step runs the instruction it fetches. -/

/-- R27, R52, R67, R68: when the block is ready in IDLE and no procedure is being stopped, the step issues the host's next
word, legal or not. In the state with that word taken from the host, the step is exec of i where the word decodes to i,
and where it decodes to nothing it answers ILLEGAL_COMMAND, or FAULTED while faulted, and changes nothing else. That a
host issues the words of a procedure in progress first, then those of its next procedure, is R141; how it holds them,
and the count of responses at which a procedure began, is entry 3. -/
def Obligations.StepRunsThePresentedCommand : Prop :=
  ∀ (s : State) (w : Word), s.resetPin = false → s.phase = .idle → s.busy = false →
    (∀ ws, s.proc = w :: ws → s.err = 0 →
      (∀ i, decode w = .ok i → step s = exec i { s with proc := ws }) ∧
      ((∀ i, decode w ≠ .ok i) →
        step s = .next ({ s with proc := ws }.withError (if s.faulted then 4 else 2)))) ∧
    (∀ ws ps, s.proc = [] → s.todo = ⟨w, ws⟩ :: ps →
      (∀ i, decode w = .ok i →
        step s = exec i { s with proc := ws, todo := ps, procBegan := s.responses.length }) ∧
      ((∀ i, decode w ≠ .ok i) →
        step s = .next ({ s with proc := ws, todo := ps, procBegan := s.responses.length }.withError
          (if s.faulted then 4 else 2))))

/-- R59, R81: at B_CLK the step is exec of the wire command the transmit latch holds, when its command byte is one of the
table's and pairs with the transaction's kind. That the engine fetches it there is entry 1. -/
def Obligations.StepRunsTheWireCommandInTheLatch : Prop :=
  ∀ s : State, s.resetPin = false → s.phase = .bClk →
    (∀ (r : Register) (d : Byte), s.kind = .write → s.ntx = 16 → s.txseq = (d.setWidth 16 <<< 8) ||| tableWriteByte r →
      step s = exec (Instr.wireWrite r d) s) ∧
    (∀ r, s.kind = .read → s.ntx = 8 → s.txseq = tableReadByte r → step s = exec (Instr.wireRead r) s)

/-- The state the host's check puts an instruction in runs exactly that instruction: a host command word is presented, and
decoded, at the next step (R27), a wire command is fetched at it (entry 1). -/
def Obligations.FetchWordStateRunsThatWord : Prop :=
  ∀ (s : State) (w : Nat),
    (∀ i, decode (BitVec.ofNat 32 w) = .ok i →
      step (s.withFetchWord 32 w) =
        exec i { s.withFetchWord 32 w with todo := s.todo, procBegan := s.responses.length }) ∧
    (∀ i, decodeWire (BitVec.ofNat 16 w) = .ok i →
      step (s.withFetchWord 8 w) = exec i (s.withFetchWord 8 w))

/-- R166, R169: in IDLE with nothing presented the block waits, unchanged. -/
def Obligations.IdleBlockWaitsForACommand : Prop :=
  ∀ s : State, s.resetPin = false → s.phase = .idle → s.proc = [] → s.todo = [] → step s = .next s

/-- R68, R153: a word that fails R67 performs no line action, answers RESULT 0 and ERR 2, and leaves the block ready;
nothing else changes. Every word with OP 0 or 9 to 15 is one. -/
def Obligations.IllegalWordIsAnsweredWithNoEffect : Prop :=
  (∀ (w : Word) (s : State), s.faulted = false → (∀ i, decode w ≠ .ok i) → acceptWord w s = .next (s.withError 2)) ∧
  (∀ w : Word, (w >>> 28).toNat = 0 ∨ 9 ≤ (w >>> 28).toNat → ∀ i, decode w ≠ .ok i)

/-- R155: while FAULTED every command word, legal or not, is answered at once with RESULT 0 and ERR 4 and no line action,
and so is every instruction; a step ends FAULTED only if reset is applied. That a wire command byte is answered so too is
the model's choice (entry 17). -/
def Obligations.FaultedAnswersEveryCommandUntilReset : Prop :=
  (∀ (w : Word) (s : State), s.faulted = true → acceptWord w s = .next (s.withError 4)) ∧
  (∀ (i : Instr) (s : State), s.faulted = true → exec i s = .next (s.withError 4)) ∧
  (∀ s t : State, s.faulted = true → step s = .next t → t.faulted = false → s.resetPin = true)

/-- R154, R158: after a line fault and until reset the lines and the line trace stay as they are. -/
def Obligations.FaultedBlockLeavesTheLinesAlone : Prop :=
  ∀ s t : State, Inv s → s.faulted = true → s.resetPin = false → step s = .next t →
    t.clk = s.clk ∧ t.ce = s.ce ∧ t.dataDir = s.dataDir ∧ t.dataOut = s.dataOut ∧ t.trace = s.trace ∧ t.phase = .idle

/-- R157: of the errors that apply to a word at acceptance one is reported, FAULTED before ILLEGAL_COMMAND before
VALIDATION; where none applies ERR is 0 or the command is running. -/
def Obligations.OneErrorIsReportedInPriorityOrder : Prop :=
  ∀ (w : Word) (s : State), ∃ t, acceptWord w s = .next t ∧
    (if s.faulted then t.err = 4
    else match decode w with
      | .error _ => t.err = 2
      | .ok i =>
        (∀ f v, i = Instr.fset f v → fsetAccepts f v = false → t.err = 1) ∧
        ((∀ f v, i = Instr.fset f v → fsetAccepts f v = true) →
          t.err = 0 ∨ (t.busy = true ∧ t.responses = s.responses)))

/-! The sequencer. -/

/-- R81, R83, R27, R45, R52: in every phase but IDLE and DONE a step of a transaction that is not cut short does exactly
one line action, and in DONE none; and while BUSY is 1 no step, cut short or not, takes a word from the host, whose
data is that of entry 3. -/
def Obligations.EachStepDoesOneLineAction : Prop :=
  ∀ s t : State, Inv s → s.resetPin = false → s.busy = true → step s = .next t →
    t.proc = s.proc ∧ t.todo = s.todo ∧ t.procBegan = s.procBegan ∧
    (t.faulted = false → if s.phase = .done then t.trace = s.trace else ∃ a, t.trace = s.trace ++ [a])

/-- R154: a line action whose failure the driver reports is not done; the lines, the latches and the line trace stay, and
the command ends with FAULTED 1, RESULT 0, ERR 3, BUSY 0 and PHASE IDLE. Where `LINE_MAY_FAIL` is false no step sets
FAULTED or answers LINE_FAULT. That reports are read one by one from a schedule, and after it from a free value at the
count of draws, is the form of entry 5: where the schedule is empty the step is the one in which the free report, whatever
it is, is scheduled. -/
def Obligations.FailedLineActionStopsTheTransaction : Prop :=
  (∀ s : State, Inv s → s.resetPin = false → s.phase ≠ .idle → s.phase ≠ .done → DriverFails s →
    step s = .next { (s.dropReports 1).withError 3 with faulted := true }) ∧
  (∀ s : State, Inv s → s.resetPin = false → s.phase ≠ .idle → s.phase ≠ .done → s.lineMayFail = true →
    s.reports = [] → step s = step { s with reports := [Config.driverFails s.draws], draws := s.draws + 1 }) ∧
  (∀ s t : State, s.lineMayFail = false → s.faulted = false → s.err ≠ 3 → step s = .next t →
    t.faulted = false ∧ t.err ≠ 3)

/-- R87, R90, R74, R84: RDREG issued in IDLE runs, in one acceptance step, 54 line actions and DONE, the line trace of
R87 with the eight levels the peripheral presents; RESULT is the byte they form, ERR is 0, one response is given, and
the lines end CLOCK LOW, CE LOW, DATA an output at the level of bit 7 of the command byte. That acceptance is a step is
entry 2, and how the host holds its words entry 3. -/
def Obligations.RdregRunsTheReadTrace : Prop :=
  ∀ (a : Byte) (ls rest : List Level) (ps : List Procedure) (s : State), Inv s → s.resetPin = false → s.phase = .idle →
    s.faulted = false → s.proc = [] → s.todo = ⟨0x10000000#32 ||| a.setWidth 32, []⟩ :: ps →
    ls.length = 8 → s.samples = ls ++ rest → DriverOk 54 s →
    ∃ t, steps 56 s = .next t ∧ t.trace = s.trace ++ readTrace a ls ∧
      t.result = (receivedByte ls).setWidth 16 ∧ t.err = 0 ∧ t.responses = s.responses ++ [⟨t.result, 0⟩] ∧
      t.busy = false ∧ t.phase = .idle ∧ t.faulted = false ∧ t.samples = rest ∧ t.proc = [] ∧ t.todo = ps ∧
      t.clk = .low ∧ t.ce = .low ∧ t.dataDir = .output ∧ t.dataOut = lvl (a.getLsbD 7) ∧ Inv t

/-- R86, R91, R84: WRREG issued in IDLE runs, in one acceptance step, 52 line actions and DONE, the line trace of R86;
RESULT and ERR are 0, one response is given, and the lines end CLOCK LOW, CE LOW, DATA an output at the level of bit 7
of the data byte. That acceptance is a step is entry 2, and how the host holds its words entry 3. -/
def Obligations.WrregRunsTheWriteTrace : Prop :=
  ∀ (a d : Byte) (ps : List Procedure) (s : State), Inv s → s.resetPin = false → s.phase = .idle →
    s.faulted = false → s.proc = [] →
    s.todo = ⟨0x20000000#32 ||| (d.setWidth 32 <<< 8) ||| a.setWidth 32, []⟩ :: ps → DriverOk 52 s →
    ∃ t, steps 54 s = .next t ∧ t.trace = s.trace ++ writeTrace a d ∧
      t.result = 0 ∧ t.err = 0 ∧ t.responses = s.responses ++ [⟨0, 0⟩] ∧
      t.busy = false ∧ t.phase = .idle ∧ t.faulted = false ∧ t.samples = s.samples ∧ t.proc = [] ∧ t.todo = ps ∧
      t.clk = .low ∧ t.ce = .low ∧ t.dataDir = .output ∧ t.dataOut = lvl (d.getLsbD 7) ∧ Inv t

/-- R123, R127 to R133: a field read issued in IDLE runs the read trace of its field's read byte, and RESULT is the field's
decode of the byte received, in the words of R96. That acceptance is a step is entry 2, and how the host holds its words
entry 3. -/
def Obligations.FgetRunsAndDecodesItsField : Prop :=
  ∀ (f : TimeField) (a : Byte) (value : Byte → Nat), (f, a, value) ∈
    [(TimeField.sec, 0x81#8, fun x : Byte => (x.extractLsb 6 4).toNat * 10 + (x.extractLsb 3 0).toNat),
      (.min, 0x83, fun x => (x.extractLsb 6 4).toNat * 10 + (x.extractLsb 3 0).toNat),
      (.hour, 0x85, fun x => (x.extractLsb 5 4).toNat * 10 + (x.extractLsb 3 0).toNat),
      (.day, 0x87, fun x => (x.extractLsb 5 4).toNat * 10 + (x.extractLsb 3 0).toNat),
      (.month, 0x89, fun x => (x.extractLsb 4 4).toNat * 10 + (x.extractLsb 3 0).toNat),
      (.wday, 0x8B, fun x => (x.extractLsb 2 0).toNat),
      (.year, 0x8D, fun x => (x.extractLsb 7 4).toNat * 10 + (x.extractLsb 3 0).toNat)] →
  ∀ (ls rest : List Level) (ps : List Procedure) (s : State), Inv s → s.resetPin = false → s.phase = .idle →
    s.faulted = false → s.proc = [] → s.todo = ⟨0x70000000#32 ||| (f.code.setWidth 32 <<< 24), []⟩ :: ps →
    ls.length = 8 → s.samples = ls ++ rest → DriverOk 54 s →
    ∃ t, steps 56 s = .next t ∧ t.trace = s.trace ++ readTrace a ls ∧
      t.result.toNat = value (receivedByte ls) ∧ t.err = 0 ∧ t.responses = s.responses ++ [⟨t.result, 0⟩] ∧
      t.phase = .idle ∧ t.samples = rest ∧ t.todo = ps ∧
      t.clk = .low ∧ t.ce = .low ∧ t.dataDir = .output ∧ t.dataOut = .high ∧ Inv t

/-- R125, R134 to R140, R84: a field write of an operand in range, issued in IDLE, runs the write trace of its field's
write byte and of the operand's BCD byte; RESULT and ERR are 0, and the lines end CLOCK LOW, CE LOW, DATA an output at
the level of bit 7 of the data byte. That acceptance is a step is entry 2, and how the host holds its words entry 3. -/
def Obligations.FsetRunsTheWriteTraceOfItsField : Prop :=
  ∀ (f : TimeField) (a : Byte) (lo hi : Nat), (f, a, lo, hi) ∈
    [(TimeField.sec, 0x80#8, 0, 99), (.min, 0x82, 0, 99), (.hour, 0x84, 0, 99), (.day, 0x86, 0, 99),
      (.month, 0x88, 0, 99), (.wday, 0x8A, 1, 7), (.year, 0x8C, 0, 99)] →
  ∀ (v : Byte) (ps : List Procedure) (s : State), Inv s → s.resetPin = false → s.phase = .idle →
    s.faulted = false → s.proc = [] →
    s.todo = ⟨0x80000000#32 ||| (f.code.setWidth 32 <<< 24) ||| v.setWidth 32, []⟩ :: ps →
    lo ≤ v.toNat → v.toNat ≤ hi → DriverOk 52 s →
    ∃ t, steps 54 s = .next t ∧
      t.trace = s.trace ++ writeTrace a (BitVec.ofNat 8 (v.toNat / 10 * 16 + v.toNat % 10)) ∧
      t.result = 0 ∧ t.err = 0 ∧ t.responses = s.responses ++ [⟨0, 0⟩] ∧ t.phase = .idle ∧ t.todo = ps ∧
      t.clk = .low ∧ t.ce = .low ∧ t.dataDir = .output ∧
      t.dataOut = lvl ((BitVec.ofNat 8 (v.toNat / 10 * 16 + v.toNat % 10)).getLsbD 7) ∧ Inv t

/-- R59, R86, R87, R107 to R122: executed at B_CLK, where the transmit latch holds it, a wire write byte is followed on the
wire by the eight data bits the block drives, a wire read byte by the eight it samples into RX: the line trace of the
whole transaction is that of R86 or R87. The grain of the command's own step is the model's choice (entry 1). -/
def Obligations.WireBytesRunTheirTransactions : Prop :=
  ∀ (r : Register) (s : State), Inv s → s.resetPin = false → s.phase = .bClk →
    (∀ d : Byte, s.kind = .write → s.txseq = (d.setWidth 16 <<< 8) ||| tableWriteByte r → DriverOk 52 s →
      ∃ t u, exec (Instr.wireWrite r d) s = .next t ∧ steps 52 t = .next u ∧
        u.trace = s.trace ++ writeTrace ((tableWriteByte r).setWidth 8) d ∧ u.result = 0 ∧ u.err = 0 ∧
        u.responses = s.responses ++ [⟨0, 0⟩] ∧ u.phase = .idle ∧ u.samples = s.samples) ∧
    (∀ ls rest : List Level, s.kind = .read → s.txseq = tableReadByte r → ls.length = 8 → s.samples = ls ++ rest →
      DriverOk 54 s →
      ∃ t u, exec (Instr.wireRead r) s = .next t ∧ steps 54 t = .next u ∧
        u.trace = s.trace ++ readTrace ((tableReadByte r).setWidth 8) ls ∧ u.rx = receivedByte ls ∧ u.err = 0 ∧
        u.responses = s.responses ++ [⟨u.result, 0⟩] ∧ u.phase = .idle ∧ u.samples = rest)

/-- R83: from every state of a running transaction that meets the invariant, whatever the levels and the reports, the
block is back in IDLE within the steps its transaction has left, which are at most 55, unless reset is applied. -/
def Obligations.EveryTransactionEnds : Prop :=
  ∀ s : State, Inv s → s.resetPin = false → s.phase ≠ .idle →
    stepsLeft s ≤ 55 ∧ ∃ n t, n ≤ stepsLeft s ∧ steps n s = .next t ∧ t.phase = .idle ∧ t.busy = false

/-- R83, R85: a transaction that no line action cuts short takes exactly the steps it has left, 53 from B_CLK for a write
and 55 for a read, whatever the peripheral presents, and no level changes the kinds of its line actions: two runs that
differ in the levels presented do the same line actions but for the levels read. -/
def Obligations.SamplesDoNotChangeTheLineTrace : Prop :=
  ∀ (s : State) (ls : List Level) (d n : Nat), Inv s → s.resetPin = false → s.phase ≠ .idle → n ≤ stepsLeft s →
    DriverOk n s →
    (s.phase = .bClk → stepsLeft s = (if s.kind = .write then 53 else 55)) ∧
    ∃ t u, steps n s = .next t ∧ steps n { s with samples := ls, draws := d } = .next u ∧
      t.trace.map eraseRead = u.trace.map eraseRead ∧ t.phase = u.phase ∧ (n = stepsLeft s ↔ t.phase = .idle) ∧
      t.clk = u.clk ∧ t.ce = u.ce ∧ t.dataDir = u.dataDir ∧ t.dataOut = u.dataOut ∧ t.err = u.err

/-- The invariant holds after reset. -/
def Obligations.InvariantHoldsAfterReset : Prop := Inv State.reset

/-- R20, R24, R25, R26, R28, R84, R151, R154: every step keeps the invariant, from every state that meets it. -/
def Obligations.StepKeepsTheInvariant : Prop := ∀ s t : State, Inv s → step s = .next t → Inv t

/-- R83, U ("Nothing here is stuck"): from every state that meets the invariant the machine steps; neither fault of the
model is reached. -/
def Obligations.InvariantStatesNeverStop : Prop := ∀ s : State, Inv s → ∃ t, step s = .next t

/-- Every state reachable from reset meets the invariant, whatever the host, the peripheral, the line driver and reset do
between the steps (R8), and whether or not line actions may fail (R10). -/
def Obligations.ReachableStatesMeetTheInvariant : Prop := ∀ s : State, Reachable s → Inv s

/-- R19: the block reads the DATA level only while DATA is an input. -/
def Obligations.DataIsReadOnlyWhileInput : Prop :=
  ∀ (s t : State) (l : Level), Inv s → s.resetPin = false → step s = .next t →
    t.trace = s.trace ++ [.readLevel l] → s.dataDir = .input

/-- R76, R88 (a) and (b): CE rises only while CLOCK is LOW, and while CE is HIGH the level set on DATA changes only while
CLOCK is LOW and DATA is an output. -/
def Obligations.CeRisesAndDataChangesWhileClockIsLow : Prop :=
  ∀ s t : State, Inv s → s.resetPin = false → step s = .next t →
    (s.ce = .low → t.ce = .high → s.clk = .low ∧ t.clk = .low) ∧
    (s.dataOut ≠ t.dataOut → s.clk = .low ∧ t.clk = .low ∧ s.dataDir = .output)

/-- R18: a step that switches the direction of DATA keeps the output latch. -/
def Obligations.DirectionSwitchKeepsTheLatch : Prop :=
  ∀ s t : State, s.resetPin = false → step s = .next t → t.dataDir ≠ s.dataDir → t.dataOut = s.dataOut

/-- R27, R28: a step gives at most one response; it gives one exactly as it writes RESULT and ERR with the response's
values and leaves the block in IDLE, ready; a step that gives none and is no reset leaves RESULT and ERR alone. -/
def Obligations.ResponsesAreWhatResultAndErrShow : Prop :=
  ∀ s t : State, Inv s → s.resetPin = false → step s = .next t →
    (t.responses = s.responses ∧ t.result = s.result ∧ t.err = s.err) ∨
    (t.responses = s.responses ++ [⟨t.result, t.err⟩] ∧ t.phase = .idle ∧ t.busy = false)

/-- R30, R31, R75: what a command does depends neither on ERR nor on the latches an earlier command left: from two states
that differ only in them, an instruction gives the same lines, line trace, responses, RESULT, flags and phase; one that
leaves a transaction running gives the same KIND, TXSEQ, NTX, I, J and RX, and if it is a host command the same POST,
and the same FLD if it is a field command (entry 10; a wire command byte keeps both, entry 20). -/
def Obligations.StaleLatchesAndErrAreNotObservable : Prop :=
  ∀ (i : Instr) (s : State) (kind : Kind) (txseq : BitVec 16) (ntx ni : BitVec 5) (nj : BitVec 4) (rx : Byte)
    (post : Post) (fld e : BitVec 3),
    ∃ t u, exec i s = .next t ∧
      exec i { s with
        kind := kind, txseq := txseq, ntx := ntx, i := ni, j := nj, rx := rx, post := post, fld := fld, err := e } = .next u ∧
      t.clk = u.clk ∧ t.ce = u.ce ∧ t.dataDir = u.dataDir ∧ t.dataOut = u.dataOut ∧ t.trace = u.trace ∧
      t.responses = u.responses ∧ t.result = u.result ∧ t.busy = u.busy ∧ t.faulted = u.faulted ∧ t.phase = u.phase ∧
      t.samples = u.samples ∧ t.reports = u.reports ∧ t.draws = u.draws ∧
      (runsTransaction i = true → t.phase ≠ .idle →
        t.kind = u.kind ∧ t.txseq = u.txseq ∧ t.ntx = u.ntx ∧ t.i = u.i ∧ t.j = u.j ∧ t.rx = u.rx ∧
        (t.phase = .bClk → t.post = u.post ∧ (t.post ≠ .none → t.fld = u.fld)))

/-! Reset. -/

/-- R167, R35: a step at which reset is applied abandons the running command without a response, does reset's four line
actions in order, and leaves every piece of the block's state at the value of R35. That they are one step is the
model's choice (entry 9). -/
def Obligations.ResetDoesFourActionsAndTheResetTable : Prop :=
  ∀ s : State, s.resetPin = true →
    ∃ t, step s = .next t ∧ t.responses = s.responses ∧
      t.trace = s.trace ++ [.setLevel .ce .low, .setLevel .clock .low, .setDir .output, .setLevel .data .low] ∧
      t.clk = .low ∧ t.ce = .low ∧ t.dataDir = .output ∧ t.dataOut = .low ∧ t.phase = .idle ∧ t.kind = .read ∧
      t.txseq = 0 ∧ t.ntx = 8 ∧ t.i = 0 ∧ t.j = 0 ∧ t.rx = 0 ∧ t.post = .none ∧ t.fld = 0 ∧ t.result = 0 ∧
      t.err = 0 ∧ t.busy = false ∧ t.faulted = false

/-- R35: the state after reset holds the values of R35's table. -/
def Obligations.ResetStateHoldsTheResetTable : Prop :=
  State.reset.clk = .low ∧ State.reset.ce = .low ∧ State.reset.dataDir = .output ∧ State.reset.dataOut = .low ∧
    State.reset.phase = .idle ∧ State.reset.kind = .read ∧ State.reset.txseq = 0 ∧ State.reset.ntx = 8 ∧
    State.reset.i = 0 ∧ State.reset.j = 0 ∧ State.reset.rx = 0 ∧ State.reset.post = .none ∧ State.reset.fld = 0 ∧
    State.reset.result = 0 ∧ State.reset.err = 0 ∧ State.reset.busy = false ∧ State.reset.faulted = false

/-- R29: STATUS shows BUSY in bit 0, FAULTED in bit 1, ERR in bits 4:2 and 0 in bits 7:5. -/
def Obligations.StatusShowsBusyFaultedErr : Prop :=
  ∀ s : State, s.status.getLsbD 0 = s.busy ∧ s.status.getLsbD 1 = s.faulted ∧ s.status.extractLsb 4 2 = s.err ∧
    s.status.extractLsb 7 5 = 0

/-! The encodings. -/

/-- Every well-formed instruction, with every operand at every value, is what the decoder reads from its own code. -/
def Obligations.DecodeOfEncodeIsTheInstruction : Prop :=
  ∀ i : Instr, WellFormed i = true → decodeCode (encode i) = .ok i

/-- R67, R68 for host words, R57, R104 for wire commands: a code the decoder accepts is the code of the one well-formed
instruction it reads: no bit of a legal code is ignored. The layout of a wire command is entry 21, and that a read byte
with a data byte is no wire command is entry 16. -/
def Obligations.EncodeOfDecodeIsTheCode : Prop :=
  ∀ (c : Code) (i : Instr), decodeCode c = .ok i → WellFormed i = true ∧ encode i = c

/-- R71: a word is a command exactly when it matches that command's row of the table and meets its extra condition, and no
word matches two rows. -/
def Obligations.DecoderAgreesWithMatchAndMask : Prop :=
  (∀ (w : Word) (m : String), (∃ i, decode w = .ok i ∧ i.mnemonic = m) ↔
    ∃ row ∈ hostRows, row.mnemonic = m ∧ row.hits w = true ∧ row.condition w = true) ∧
  (∀ (w : Word) (a b : OpcodeRow), a ∈ hostRows → b ∈ hostRows → a.hits w = true → b.hits w = true → a = b)

/-- R69: the words of the assembler syntax. -/
def Obligations.EncodedWordsAreTheAssemblersWords : Prop :=
  (∀ a, encode (.rdreg a) = .host (0x10000000#32 ||| a.setWidth 32)) ∧
  (∀ a d, encode (.wrreg a d) = .host (0x20000000#32 ||| (d.setWidth 32 <<< 8) ||| a.setWidth 32)) ∧
  (∀ x, encode (.rev8 x) = .host (0x30000000#32 ||| x.setWidth 32)) ∧
  (∀ v, encode (.bcdenc v) = .host (0x40000000#32 ||| v.setWidth 32)) ∧
  (∀ (x : Byte) (t o : BitRange), encode (.bcddec (some t) o x) = .host (0x50000000#32 ||| (1#32 <<< 27) |||
    (t.hi.setWidth 32 <<< 24) ||| (t.lo.setWidth 32 <<< 21) ||| (o.hi.setWidth 32 <<< 18) |||
    (o.lo.setWidth 32 <<< 15) ||| x.setWidth 32)) ∧
  (∀ (x : Byte) (o : BitRange), encode (.bcddec none o x) = .host (0x50000000#32 ||| (o.hi.setWidth 32 <<< 18) |||
    (o.lo.setWidth 32 <<< 15) ||| x.setWidth 32)) ∧
  (∀ r dir, encode (.mapaddr r dir) = .host (0x60000000#32 ||| (r.code.setWidth 32 <<< 24) |||
    (dir.code.setWidth 32 <<< 16))) ∧
  (∀ f, encode (Instr.fget f) = .host (0x70000000#32 ||| (f.code.setWidth 32 <<< 24))) ∧
  (∀ f (v : Byte), encode (Instr.fset f v) = .host (0x80000000#32 ||| (f.code.setWidth 32 <<< 24) ||| v.setWidth 32))

/-- Words written out from R57 and R62 to R65 decode to the instructions they stand for, one or more of every format, and
words that break each check of R67 decode to none. A wire command is written in the 16-bit layout of TXSEQ (R24), with
the data byte of a write above the command byte: that its decoder reads this layout is entry 21 (for a read, whose upper
byte is 0, entry 16). -/
def Obligations.WordsOfEveryFormatDecode : Prop :=
  decode 0x10000081 = .ok (.rdreg 0x81) ∧ decode 0x20005980 = .ok (.wrreg 0x80 0x59) ∧
  decode 0x300000FF = .ok (.rev8 0xFF) ∧ decode 0x40000063 = .ok (.bcdenc 99) ∧
  decode 0x5E8C0059 = .ok (.bcddec (some ⟨6, 4⟩) ⟨3, 0⟩ 0x59) ∧ decode 0x50080005 = .ok (.bcddec none ⟨2, 0⟩ 5) ∧
  decode 0x67010000 = .ok (.mapaddr .wp .read) ∧ decode 0x76000000 = .ok .fgetYear ∧
  decode 0x850000FF = .ok (.fsetWday 255) ∧ decodeWire 0x5980 = .ok (.wSecW 0x59) ∧ decodeWire 0x008F = .ok .wWpR ∧
  decode 0x90000000 = .error .opcode ∧ decode 0x10010081 = .error .reservedBits ∧
  decode 0x58800000 = .error .invertedRange ∧ decode 0x77000000 = .error .noSuchField

/-! The host procedures. -/

/-- R144 to R147: the words WRITETIME, WRITEDATE, READTIME and READDATE expand to, in their order; the seconds are 0 when
omitted. -/
def Obligations.HostProceduresExpandInOrder : Prop :=
  (∀ h m s : Byte, writeTime h m s = ⟨0x82000000#32 ||| h.setWidth 32,
    [0x81000000#32 ||| m.setWidth 32, 0x80000000#32 ||| s.setWidth 32]⟩) ∧
  (∀ h m : Byte, writeTime h m = writeTime h m 0) ∧
  (∀ d mo y : Byte, writeDate d mo y = ⟨0x83000000#32 ||| d.setWidth 32,
    [0x84000000#32 ||| mo.setWidth 32, 0x86000000#32 ||| y.setWidth 32]⟩) ∧
  readTime = ⟨0x72000000, [0x71000000, 0x70000000]⟩ ∧ readDate = ⟨0x73000000, [0x74000000, 0x76000000]⟩

/-- R142: a procedure whose last command completed with `ERR /= 0` stops: its other commands are not issued, and nothing
that was done is undone. The step that drops them is the host's (entry 3). -/
def Obligations.ProcedureStopsAtTheFirstError : Prop :=
  ∀ s : State, s.resetPin = false → s.phase = .idle → s.busy = false → s.proc ≠ [] → s.err ≠ 0 →
    step s = .next { s with proc := [] }

/-- R142: a command that completes with `ERR /= 0` is what its procedure reports, at once and after the procedure's other
commands were dropped: where the procedure was in progress, none of its responses being an error so far, and where this
command began it. The data the host tells a procedure's responses by is entry 3. -/
def Obligations.FailedCommandIsReportedByItsProcedure : Prop :=
  ∀ s t : State, Inv s → s.resetPin = false → s.procBegan ≤ s.responses.length →
    (s.busy = true ∨ s.proc ≠ [] → ∀ r ∈ s.responses.drop s.procBegan, r.err = 0) →
    step s = .next t → t.responses ≠ s.responses → t.err ≠ 0 →
    procedureReport t = some (.error t.err) ∧
    (t.proc ≠ [] → ∃ u, step t = .next u ∧ u.proc = [] ∧ u.todo = t.todo ∧ u.trace = t.trace ∧
      u.responses = t.responses ∧ procedureReport u = some (.error t.err))

/-- R142, R144: WRITETIME whose minutes are above 99, issued in IDLE, writes the hours, stops at the minutes, and reports
VALIDATION: the hours stay written, and the seconds are not issued. That acceptance is a step is entry 2, how the host
holds its words and drops the others entry 3. -/
def Obligations.WriteTimeStopsAtMinutesOutOfRange : Prop :=
  ∀ (h m sec : Byte) (ps : List Procedure) (s : State), Inv s → s.resetPin = false → s.phase = .idle →
    s.faulted = false → s.proc = [] → s.todo = writeTime h m sec :: ps →
    h.toNat ≤ 99 → 99 < m.toNat → DriverOk 52 s →
    ∃ t, steps 56 s = .next t ∧ t.phase = .idle ∧ t.proc = [] ∧ t.todo = ps ∧
      t.trace = s.trace ++ writeTrace 0x84 (BitVec.ofNat 8 (h.toNat / 10 * 16 + h.toNat % 10)) ∧
      t.responses = s.responses ++ [⟨0, 0⟩, ⟨0, 1⟩] ∧ procedureReport t = some (.error 1)

/-- R144 with R86 and R142: WRITETIME with operands 0 to 99, issued in IDLE, writes the hours, then the minutes, then the
seconds: its line trace is the three write traces in that order, and it reports no error. That acceptance is a step is entry 2, and how the host holds its
words entry 3. -/
def Obligations.WriteTimeWritesHoursMinutesSeconds : Prop :=
  ∀ (h m sec : Byte) (ps : List Procedure) (s : State), Inv s → s.resetPin = false → s.phase = .idle →
    s.faulted = false → s.proc = [] → s.todo = writeTime h m sec :: ps →
    h.toNat ≤ 99 → m.toNat ≤ 99 → sec.toNat ≤ 99 → DriverOk 156 s →
    ∃ t, steps 162 s = .next t ∧ t.phase = .idle ∧ t.proc = [] ∧ t.todo = ps ∧ t.err = 0 ∧
      procedureReport t = some (.ok [0, 0, 0]) ∧
      t.trace = s.trace ++ writeTrace 0x84 (BitVec.ofNat 8 (h.toNat / 10 * 16 + h.toNat % 10)) ++
        writeTrace 0x82 (BitVec.ofNat 8 (m.toNat / 10 * 16 + m.toNat % 10)) ++
        writeTrace 0x80 (BitVec.ofNat 8 (sec.toNat / 10 * 16 + sec.toNat % 10))

/-- R145 with R86 and R142: WRITEDATE with operands 0 to 99, issued in IDLE, writes the day, then the month, then the
year: its line trace is the three write traces in that order, and it reports no error. That acceptance is a step is entry 2, and how the host holds its words
entry 3. -/
def Obligations.WriteDateWritesDayMonthYear : Prop :=
  ∀ (d mo y : Byte) (ps : List Procedure) (s : State), Inv s → s.resetPin = false → s.phase = .idle →
    s.faulted = false → s.proc = [] → s.todo = writeDate d mo y :: ps →
    d.toNat ≤ 99 → mo.toNat ≤ 99 → y.toNat ≤ 99 → DriverOk 156 s →
    ∃ t, steps 162 s = .next t ∧ t.phase = .idle ∧ t.proc = [] ∧ t.todo = ps ∧ t.err = 0 ∧
      procedureReport t = some (.ok [0, 0, 0]) ∧
      t.trace = s.trace ++ writeTrace 0x86 (BitVec.ofNat 8 (d.toNat / 10 * 16 + d.toNat % 10)) ++
        writeTrace 0x88 (BitVec.ofNat 8 (mo.toNat / 10 * 16 + mo.toNat % 10)) ++
        writeTrace 0x8C (BitVec.ofNat 8 (y.toNat / 10 * 16 + y.toNat % 10))

/-- R146 with R87 and R96: READTIME issued in IDLE reads the hours, then the minutes, then the seconds, and the text the
host presents is their three decodes, two digits at least each, with colons between. That acceptance is a step is entry
2, and how the host holds its words and tells its responses entry 3. -/
def Obligations.ReadTimePresentsHoursMinutesSeconds : Prop :=
  ∀ (hs ms ss rest : List Level) (ps : List Procedure) (s : State), Inv s → s.resetPin = false → s.phase = .idle →
    s.faulted = false → s.proc = [] → s.todo = readTime :: ps → hs.length = 8 → ms.length = 8 → ss.length = 8 →
    s.samples = hs ++ ms ++ ss ++ rest → DriverOk 162 s →
    ∃ t, steps 168 s = .next t ∧ t.phase = .idle ∧ t.proc = [] ∧ t.todo = ps ∧ t.err = 0 ∧
      t.trace = s.trace ++ readTrace 0x85 hs ++ readTrace 0x83 ms ++ readTrace 0x81 ss ∧
      presentReport timeText t = some (.ok (fmt2 (decodeField .hour (receivedByte hs)) ++ [':'] ++
        fmt2 (decodeField .min (receivedByte ms)) ++ [':'] ++ fmt2 (decodeField .sec (receivedByte ss))))

/-- R147, R148 with R87 and R96: READDATE issued in IDLE reads the day, then the month, then the year, and the text the
host presents is their decodes, two digits at least each, with dots between and "20" before the year. That acceptance is
a step is entry 2, and how the host holds its words and tells its responses entry 3. -/
def Obligations.ReadDatePresentsDayMonthYear : Prop :=
  ∀ (ds ms ys rest : List Level) (ps : List Procedure) (s : State), Inv s → s.resetPin = false → s.phase = .idle →
    s.faulted = false → s.proc = [] → s.todo = readDate :: ps → ds.length = 8 → ms.length = 8 → ys.length = 8 →
    s.samples = ds ++ ms ++ ys ++ rest → DriverOk 162 s →
    ∃ t, steps 168 s = .next t ∧ t.phase = .idle ∧ t.proc = [] ∧ t.todo = ps ∧ t.err = 0 ∧
      t.trace = s.trace ++ readTrace 0x87 ds ++ readTrace 0x89 ms ++ readTrace 0x8D ys ∧
      presentReport dateText t = some (.ok (fmt2 (decodeField .day (receivedByte ds)) ++ ['.'] ++
        fmt2 (decodeField .month (receivedByte ms)) ++ ['.', '2', '0'] ++
        fmt2 (decodeField .year (receivedByte ys))))

/-- R142, R146, R154 with R87: READTIME whose last read is cut short by a line fault, at any of its 54 line actions,
presents the error and no text, though the RESULTs of the first two reads are at hand. The `k` actions before the failing
one are the first `k` of the read trace, for eight levels that agree with those the peripheral presents (with all of them
where it presents fewer), and no later one is done. That acceptance is a step is entry 2, and how the host holds its
words and tells its responses entry 3. -/
def Obligations.ReadTimeWithALineFaultPresentsTheError : Prop :=
  ∀ (hs ms ss : List Level) (after : List Bool) (k : Nat) (ps : List Procedure) (s : State), Inv s →
    s.resetPin = false → s.phase = .idle → s.faulted = false → s.proc = [] → s.todo = readTime :: ps →
    hs.length = 8 → ms.length = 8 → s.samples = hs ++ ms ++ ss → k < 54 → s.lineMayFail = true →
    s.reports = List.replicate (108 + k) false ++ true :: after →
    ∃ t ls, ls.length = 8 ∧ (ls <+: ss ∨ ss <+: ls) ∧ steps (114 + k) s = .next t ∧ t.phase = .idle ∧
      t.proc = [] ∧ t.todo = ps ∧ t.faulted = true ∧
      t.trace = s.trace ++ readTrace 0x85 hs ++ readTrace 0x83 ms ++ (readTrace 0x81 ls).take k ∧
      presentReport timeText t = some (.error 3)

/-- R143, R148: below 100 `fmt2` is the two decimal digits, from 100 on it is the decimal spelling itself; `year_str` puts
"20" before it. -/
def Obligations.TwoDigitTextAndYearText : Prop :=
  (∀ n, n < 100 → fmt2 n = [Nat.digitChar (n / 10), Nat.digitChar (n % 10)]) ∧
  (∀ n, 100 ≤ n → fmt2 n = Nat.toDigits 10 n) ∧ (∀ n, yearStr n = '2' :: '0' :: fmt2 n)

/-- R149: for every index 1 to 7 and every seven distinct names, the name at the index, matched by name, gives the index
back. -/
def Obligations.WeekdayNameGivesItsIndexBack : Prop :=
  ∀ (names : Config.WeekdayNames) (n i : Nat), 1 ≤ i → i ≤ 7 → weekdayIndex names n (weekdayName names n i) = i
end

