-- ==== Sys2Proof/Laws/Decode.lean ====
section
/-! SUPPORT. The fields of the encoded words, one lemma a field of a format, and the codes of registers and fields. -/

namespace Sys2Proof

/-- A concatenation as a number. -/
theorem toNat_append_add {m n : Nat} (x : BitVec m) (y : BitVec n) : (x ++ y).toNat = x.toNat * 2 ^ n + y.toNat := by
  rw [BitVec.toNat_append, ← Nat.shiftLeft_add_eq_or_of_lt y.isLt, Nat.shiftLeft_eq]

/-- A field of a word as a number. -/
theorem toNat_field {m : Nat} (x : BitVec m) (lo n : Nat) : (x.extractLsb' lo n).toNat = x.toNat / 2 ^ lo % 2 ^ n := by
  rw [BitVec.extractLsb'_toNat, Nat.shiftRight_eq_div_pow]

/-- A bit of a word as a number. -/
theorem getLsbD_eq_decide {m : Nat} (x : BitVec m) (k : Nat) : x.getLsbD k = decide (x.toNat / 2 ^ k % 2 = 1) := by
  rw [← BitVec.testBit_toNat, Nat.testBit_eq_decide_div_mod_eq]

theorem toNat_formatR (op : BitVec 4) (d a : Byte) :
    (formatR op d a).toNat = op.toNat * 2 ^ 28 + d.toNat * 2 ^ 8 + a.toNat := by
  simp only [formatR, toNat_append_add, BitVec.toNat_ofNat]; omega

theorem toNat_formatU (op : BitVec 4) (x : Byte) : (formatU op x).toNat = op.toNat * 2 ^ 28 + x.toNat := by
  simp only [formatU, toNat_append_add, BitVec.toNat_ofNat]; omega

theorem toNat_formatB (t : BitVec 1) (tens ones : BitRange) (x : Byte) :
    (formatB t tens ones x).toNat = 5 * 2 ^ 28 + t.toNat * 2 ^ 27 + tens.hi.toNat * 2 ^ 24 + tens.lo.toNat * 2 ^ 21 +
      ones.hi.toNat * 2 ^ 18 + ones.lo.toNat * 2 ^ 15 + x.toNat := by
  simp only [formatB, toNat_append_add, BitVec.toNat_ofNat]; omega

theorem toNat_formatF (op : BitVec 4) (fld : BitVec 3) (dir : BitVec 1) (v : Byte) :
    (formatF op fld dir v).toNat = op.toNat * 2 ^ 28 + fld.toNat * 2 ^ 24 + dir.toNat * 2 ^ 16 + v.toNat := by
  simp only [formatF, toNat_append_add, BitVec.toNat_ofNat]; omega

section FormatFields

variable (op : BitVec 4) (d a x v : Byte) (t dir : BitVec 1) (tens ones : BitRange) (fld : BitVec 3)

@[simp] theorem formatR_op : (formatR op d a).extractLsb' 28 4 = op := by
  apply BitVec.eq_of_toNat_eq; rw [toNat_field, toNat_formatR]; omega

@[simp] theorem formatR_z : (formatR op d a).extractLsb' 16 12 = 0#12 := by
  apply BitVec.eq_of_toNat_eq; rw [toNat_field, toNat_formatR]; simp; omega

@[simp] theorem formatR_d : (formatR op d a).extractLsb' 8 8 = d := by
  apply BitVec.eq_of_toNat_eq; rw [toNat_field, toNat_formatR]; omega

@[simp] theorem formatR_a : (formatR op d a).extractLsb' 0 8 = a := by
  apply BitVec.eq_of_toNat_eq; rw [toNat_field, toNat_formatR]; omega

/-- With D = 0 all bits above A and below OP are 0, as RDREG needs them (R62). -/
@[simp] theorem formatR_zd : (formatR op 0#8 a).extractLsb' 8 20 = 0#20 := by
  apply BitVec.eq_of_toNat_eq; rw [toNat_field, toNat_formatR]; simp; omega

@[simp] theorem formatU_op : (formatU op x).extractLsb' 28 4 = op := by
  apply BitVec.eq_of_toNat_eq; rw [toNat_field, toNat_formatU]; omega

@[simp] theorem formatU_z : (formatU op x).extractLsb' 8 20 = 0#20 := by
  apply BitVec.eq_of_toNat_eq; rw [toNat_field, toNat_formatU]; simp; omega

@[simp] theorem formatU_x : (formatU op x).extractLsb' 0 8 = x := by
  apply BitVec.eq_of_toNat_eq; rw [toNat_field, toNat_formatU]; omega

@[simp] theorem formatB_op : (formatB t tens ones x).extractLsb' 28 4 = 0x5#4 := by
  apply BitVec.eq_of_toNat_eq; rw [toNat_field, toNat_formatB]; simp; omega

@[simp] theorem formatB_t : (formatB t tens ones x)[27] = (t == 1#1) := by
  rw [← BitVec.getLsbD_eq_getElem, getLsbD_eq_decide, toNat_formatB]
  rcases BitVec.eq_zero_or_eq_one t with rfl | rfl <;> simp <;> omega

@[simp] theorem formatB_thi : (formatB t tens ones x).extractLsb' 24 3 = tens.hi := by
  apply BitVec.eq_of_toNat_eq; rw [toNat_field, toNat_formatB]; omega

@[simp] theorem formatB_tlo : (formatB t tens ones x).extractLsb' 21 3 = tens.lo := by
  apply BitVec.eq_of_toNat_eq; rw [toNat_field, toNat_formatB]; omega

/-- With no tens range both its ends are 0, as T = 0 needs them (R64). -/
@[simp] theorem formatB_no_tens : (formatB 0#1 ⟨0#3, 0#3⟩ ones x).extractLsb' 21 6 = 0#6 := by
  apply BitVec.eq_of_toNat_eq; rw [toNat_field, toNat_formatB]; simp; omega

@[simp] theorem formatB_ohi : (formatB t tens ones x).extractLsb' 18 3 = ones.hi := by
  apply BitVec.eq_of_toNat_eq; rw [toNat_field, toNat_formatB]; omega

@[simp] theorem formatB_olo : (formatB t tens ones x).extractLsb' 15 3 = ones.lo := by
  apply BitVec.eq_of_toNat_eq; rw [toNat_field, toNat_formatB]; omega

@[simp] theorem formatB_z : (formatB t tens ones x).extractLsb' 8 7 = 0#7 := by
  apply BitVec.eq_of_toNat_eq; rw [toNat_field, toNat_formatB]; simp; omega

@[simp] theorem formatB_x : (formatB t tens ones x).extractLsb' 0 8 = x := by
  apply BitVec.eq_of_toNat_eq; rw [toNat_field, toNat_formatB]; omega

@[simp] theorem formatF_op : (formatF op fld dir v).extractLsb' 28 4 = op := by
  apply BitVec.eq_of_toNat_eq; rw [toNat_field, toNat_formatF]; omega

@[simp] theorem formatF_z27 : (formatF op fld dir v).extractLsb' 27 1 = 0#1 := by
  apply BitVec.eq_of_toNat_eq; rw [toNat_field, toNat_formatF]; simp; omega

@[simp] theorem formatF_fld : (formatF op fld dir v).extractLsb' 24 3 = fld := by
  apply BitVec.eq_of_toNat_eq; rw [toNat_field, toNat_formatF]; omega

@[simp] theorem formatF_z23 : (formatF op fld dir v).extractLsb' 17 7 = 0#7 := by
  apply BitVec.eq_of_toNat_eq; rw [toNat_field, toNat_formatF]; simp; omega

@[simp] theorem formatF_dir : (formatF op fld dir v)[16] = (dir == 1#1) := by
  rw [← BitVec.getLsbD_eq_getElem, getLsbD_eq_decide, toNat_formatF]
  rcases BitVec.eq_zero_or_eq_one dir with rfl | rfl <;> simp <;> omega

@[simp] theorem formatF_z15 : (formatF op fld dir 0#8).extractLsb' 0 16 = 0#16 := by
  apply BitVec.eq_of_toNat_eq; rw [toNat_field, toNat_formatF]; simp; omega

@[simp] theorem formatF_z_dir : (formatF op fld 0#1 v).extractLsb' 8 16 = 0#16 := by
  apply BitVec.eq_of_toNat_eq; rw [toNat_field, toNat_formatF]; simp; omega

@[simp] theorem formatF_z_all : (formatF op fld 0#1 0#8).extractLsb' 0 24 = 0#24 := by
  apply BitVec.eq_of_toNat_eq; rw [toNat_field, toNat_formatF]; simp; omega

@[simp] theorem formatF_v : (formatF op fld dir v).extractLsb' 0 8 = v := by
  apply BitVec.eq_of_toNat_eq; rw [toNat_field, toNat_formatF]; omega

/-- The command byte and the data byte of the transmit latch (R24). -/
@[simp] theorem txseq_a : (d ++ a).extractLsb' 0 8 = a := by
  apply BitVec.eq_of_toNat_eq; rw [toNat_field, toNat_append_add]; omega

@[simp] theorem txseq_d : (d ++ a).extractLsb' 8 8 = d := by
  apply BitVec.eq_of_toNat_eq; rw [toNat_field, toNat_append_add]; omega

theorem txseq_low {k : Nat} (h : k < 8) : (d ++ a).getLsbD k = a.getLsbD k := by
  rw [BitVec.getLsbD_append, if_pos h]

theorem txseq_high (k : Nat) : (d ++ a).getLsbD (8 + k) = d.getLsbD k := by
  rw [BitVec.getLsbD_append, if_neg (by omega), Nat.add_sub_cancel_left]

end FormatFields

@[simp] theorem Register.ofCode_code (r : Register) : Register.ofCode r.code = r := by cases r <;> rfl

@[simp] theorem Register.code_ofCode (c : BitVec 3) : (Register.ofCode c).code = c := by revert c; decide

@[simp] theorem TimeField.ofCode_code (f : TimeField) : TimeField.ofCode f.code = some f := by cases f <;> rfl

theorem TimeField.code_of_ofCode {c : BitVec 3} {f : TimeField} (h : TimeField.ofCode c = some f) : f.code = c := by
  revert c f; decide

@[simp] theorem Direction.ofBit_code (dir : Direction) : Direction.ofBit (dir.code == 1#1) = dir := by cases dir <;> rfl

/-- The encoder's word of a field read and of a field write, for every field at once. -/
theorem encode_fget (f : TimeField) : encode (Instr.fget f) = .host (formatF 0x7#4 f.code 0 0) := by cases f <;> rfl

theorem encode_fset (f : TimeField) (v : Byte) : encode (Instr.fset f v) = .host (formatF 0x8#4 f.code 0 v) := by
  cases f <;> rfl

theorem encode_wireWrite (r : Register) (d : Byte) : encode (Instr.wireWrite r d) = .wire (d ++ wireByte r .write) := by
  cases r <;> rfl

theorem encode_wireRead (r : Register) : encode (Instr.wireRead r) = .wire (0#8 ++ wireByte r .read) := by
  cases r <;> rfl

/-- A disjunction of numbers whose bits do not meet is their sum. -/
theorem or_eq_add (k : Nat) {a b : Nat} (h : a % 2 ^ k = 0) (hb : b < 2 ^ k) : a ||| b = a + b := by
  obtain ⟨c, rfl⟩ := Nat.dvd_of_mod_eq_zero h
  rw [mul_comm, ← Nat.shiftLeft_eq, Nat.shiftLeft_add_eq_or_of_lt hb]

/-- A match under a mask, bit by bit. -/
theorem mask_match_iff (w value mask : Word) :
    (w &&& mask == value) = true ↔ ∀ k < 32, (w.getLsbD k && mask.getLsbD k) = value.getLsbD k := by
  rw [beq_iff_eq]
  constructor
  · rintro rfl k hk
    simp
  · intro h
    apply BitVec.eq_of_getLsbD_eq
    intro k hk
    simpa using h k hk

/-- A field of a word, bit by bit. -/
theorem field_bits_iff {n m : Nat} (w : BitVec m) (lo : Nat) (c : BitVec n) :
    w.extractLsb' lo n = c ↔ ∀ k < n, w.getLsbD (lo + k) = c.getLsbD k := by
  constructor
  · rintro rfl k hk
    simp [hk]
  · intro h
    apply BitVec.eq_of_getLsbD_eq
    intro k hk
    rw [BitVec.getLsbD_extractLsb', decide_eq_true hk, Bool.true_and, h k hk]

/-! The rows of R71 as fields: RDREG, REV8 and BCDENC are `row_unary`. -/

theorem row_unary (w : Word) (op : BitVec 4) :
    (w &&& 0xFFFFFF00 == op.setWidth 32 <<< 28) = true ↔ w.extractLsb' 28 4 = op ∧ w.extractLsb' 8 20 = 0#20 := by
  simp only [mask_match_iff, field_bits_iff, Nat.forall_lt_succ_right]
  simp
  constructor <;> (intro h; simp_all)

theorem row_wrreg (w : Word) :
    (w &&& 0xFFFF0000 == 0x20000000) = true ↔ w.extractLsb' 28 4 = 2#4 ∧ w.extractLsb' 16 12 = 0#12 := by
  simp only [mask_match_iff, field_bits_iff, Nat.forall_lt_succ_right]
  simp
  constructor <;> (intro h; simp_all)

theorem row_bcddec (w : Word) :
    (w &&& 0xF0007F00 == 0x50000000) = true ↔ w.extractLsb' 28 4 = 5#4 ∧ w.extractLsb' 8 7 = 0#7 := by
  simp only [mask_match_iff, field_bits_iff, Nat.forall_lt_succ_right]
  simp
  constructor <;> (intro h; simp_all)

theorem row_fget (w : Word) (c : BitVec 3) :
    (w &&& 0xFFFFFFFF == (0x70000000 ||| (c.setWidth 32 <<< 24))) = true ↔
      w.extractLsb' 28 4 = 7#4 ∧ w.extractLsb' 24 3 = c ∧ w.extractLsb' 27 1 = 0#1 ∧ w.extractLsb' 0 24 = 0#24 := by
  simp only [mask_match_iff, field_bits_iff, Nat.forall_lt_succ_right]
  simp
  constructor <;> (intro h; simp_all)

theorem row_fset (w : Word) (c : BitVec 3) :
    (w &&& 0xFFFFFF00 == (0x80000000 ||| (c.setWidth 32 <<< 24))) = true ↔
      w.extractLsb' 28 4 = 8#4 ∧ w.extractLsb' 24 3 = c ∧ w.extractLsb' 27 1 = 0#1 ∧ w.extractLsb' 8 16 = 0#16 := by
  simp only [mask_match_iff, field_bits_iff, Nat.forall_lt_succ_right]
  simp
  constructor <;> (intro h; simp_all)

theorem row_mapaddr (w : Word) : (w &&& 0xF8FEFFFF == 0x60000000) = true ↔
    w.extractLsb' 28 4 = 6#4 ∧ w.extractLsb' 27 1 = 0#1 ∧ w.extractLsb' 17 7 = 0#7 ∧ w.extractLsb' 0 16 = 0#16 := by
  simp only [mask_match_iff, field_bits_iff, Nat.forall_lt_succ_right]
  simp
  constructor <;> (intro h; simp_all)

/-- A field of a word, as an equation of numbers. -/
theorem field_eq_iff {m n : Nat} {w : BitVec m} {lo : Nat} {c : BitVec n} :
    w.extractLsb' lo n = c ↔ w.toNat / 2 ^ lo % 2 ^ n = c.toNat := by
  rw [← toNat_field]; exact ⟨fun h => h ▸ rfl, BitVec.eq_of_toNat_eq⟩

theorem decode_fget (f : TimeField) : decode (formatF 0x7#4 f.code 0#1 0#8) = .ok (Instr.fget f) := by simp [decode]

theorem decode_fset (f : TimeField) (v : Byte) : decode (formatF 0x8#4 f.code 0#1 v) = .ok (Instr.fset f v) := by
  simp [decode]

theorem decode_wireRead (r : Register) : decodeWire (0#8 ++ wireByte r .read) = .ok (Instr.wireRead r) := by
  cases r <;> decide

theorem decode_wireWrite (r : Register) (d : Byte) :
    decodeWire (d ++ wireByte r .write) = .ok (Instr.wireWrite r d) := by
  have hreg : (d ++ wireByte r .write).extractLsb' 1 3 = r.code := by
    rw [field_eq_iff, toNat_append_add]
    cases r <;> simp [wireByte, Register.code, Direction.code] <;> omega
  have htop : (d ++ wireByte r .write).extractLsb' 4 4 = 0x8#4 := by
    rw [field_eq_iff, toNat_append_add]
    cases r <;> simp [wireByte, Register.code, Direction.code] <;> omega
  have hrw : (d ++ wireByte r .write).getLsbD 0 = false := by
    rw [txseq_low _ _ (by omega)]
    cases r <;> decide
  simp only [decodeWire, hreg, htop, hrw, txseq_d]
  simp

theorem toNat_wireByte (r : Register) (dir : Direction) :
    (wireByte r dir).toNat = 128 + 2 * r.code.toNat + dir.code.toNat := by
  cases r <;> cases dir <;> decide

/-- A data byte put above a command byte is the transmit latch's layout (R24). -/
theorem shift_or_eq_append (d : Byte) (a : BitVec 16) (ha : a.toNat < 256) :
    (d.setWidth 16 <<< 8) ||| a = d ++ a.setWidth 8 := by
  apply BitVec.eq_of_toNat_eq
  rw [toNat_append_add, BitVec.toNat_or, BitVec.toNat_shiftLeft, BitVec.toNat_setWidth, BitVec.toNat_setWidth,
    Nat.mod_eq_of_lt (a := d.toNat) (by omega),
    Nat.mod_eq_of_lt (a := d.toNat <<< 8) (by simp [Nat.shiftLeft_eq]; omega),
    ← Nat.shiftLeft_add_eq_or_of_lt (i := 8) (by omega)]
  simp [Nat.shiftLeft_eq]
  omega

end Sys2Proof
end

