-- ==== Sys2Proof/Laws/State.lean ====
section
/-! SUPPORT. One lemma per field per update of the state, so that no later proof unfolds a record update. -/

namespace Sys2Proof.Machine

/-! `State.toPhase` -/

@[simp] theorem State.toPhase_clk (p : Phase) (s : State) : (s.toPhase p).clk = s.clk := rfl
@[simp] theorem State.toPhase_ce (p : Phase) (s : State) : (s.toPhase p).ce = s.ce := rfl
@[simp] theorem State.toPhase_dataDir (p : Phase) (s : State) : (s.toPhase p).dataDir = s.dataDir := rfl
@[simp] theorem State.toPhase_dataOut (p : Phase) (s : State) : (s.toPhase p).dataOut = s.dataOut := rfl
@[simp] theorem State.toPhase_phase (p : Phase) (s : State) : (s.toPhase p).phase = p := rfl
@[simp] theorem State.toPhase_kind (p : Phase) (s : State) : (s.toPhase p).kind = s.kind := rfl
@[simp] theorem State.toPhase_txseq (p : Phase) (s : State) : (s.toPhase p).txseq = s.txseq := rfl
@[simp] theorem State.toPhase_ntx (p : Phase) (s : State) : (s.toPhase p).ntx = s.ntx := rfl
@[simp] theorem State.toPhase_i (p : Phase) (s : State) : (s.toPhase p).i = s.i := rfl
@[simp] theorem State.toPhase_j (p : Phase) (s : State) : (s.toPhase p).j = s.j := rfl
@[simp] theorem State.toPhase_rx (p : Phase) (s : State) : (s.toPhase p).rx = s.rx := rfl
@[simp] theorem State.toPhase_post (p : Phase) (s : State) : (s.toPhase p).post = s.post := rfl
@[simp] theorem State.toPhase_fld (p : Phase) (s : State) : (s.toPhase p).fld = s.fld := rfl
@[simp] theorem State.toPhase_result (p : Phase) (s : State) : (s.toPhase p).result = s.result := rfl
@[simp] theorem State.toPhase_err (p : Phase) (s : State) : (s.toPhase p).err = s.err := rfl
@[simp] theorem State.toPhase_busy (p : Phase) (s : State) : (s.toPhase p).busy = s.busy := rfl
@[simp] theorem State.toPhase_faulted (p : Phase) (s : State) : (s.toPhase p).faulted = s.faulted := rfl
@[simp] theorem State.toPhase_trace (p : Phase) (s : State) : (s.toPhase p).trace = s.trace := rfl
@[simp] theorem State.toPhase_responses (p : Phase) (s : State) : (s.toPhase p).responses = s.responses := rfl
@[simp] theorem State.toPhase_proc (p : Phase) (s : State) : (s.toPhase p).proc = s.proc := rfl
@[simp] theorem State.toPhase_todo (p : Phase) (s : State) : (s.toPhase p).todo = s.todo := rfl
@[simp] theorem State.toPhase_procBegan (p : Phase) (s : State) : (s.toPhase p).procBegan = s.procBegan := rfl
@[simp] theorem State.toPhase_samples (p : Phase) (s : State) : (s.toPhase p).samples = s.samples := rfl
@[simp] theorem State.toPhase_lineMayFail (p : Phase) (s : State) : (s.toPhase p).lineMayFail = s.lineMayFail := rfl
@[simp] theorem State.toPhase_reports (p : Phase) (s : State) : (s.toPhase p).reports = s.reports := rfl
@[simp] theorem State.toPhase_draws (p : Phase) (s : State) : (s.toPhase p).draws = s.draws := rfl
@[simp] theorem State.toPhase_resetPin (p : Phase) (s : State) : (s.toPhase p).resetPin = s.resetPin := rfl

/-! `State.respond` -/

@[simp] theorem State.respond_clk (r : BitVec 16) (e : ErrorCode) (s : State) : (s.respond r e).clk = s.clk := rfl
@[simp] theorem State.respond_ce (r : BitVec 16) (e : ErrorCode) (s : State) : (s.respond r e).ce = s.ce := rfl
@[simp] theorem State.respond_dataDir (r : BitVec 16) (e : ErrorCode) (s : State) : (s.respond r e).dataDir = s.dataDir :=
  rfl
@[simp] theorem State.respond_dataOut (r : BitVec 16) (e : ErrorCode) (s : State) : (s.respond r e).dataOut = s.dataOut :=
  rfl
@[simp] theorem State.respond_phase (r : BitVec 16) (e : ErrorCode) (s : State) : (s.respond r e).phase = s.phase :=
  rfl
@[simp] theorem State.respond_kind (r : BitVec 16) (e : ErrorCode) (s : State) : (s.respond r e).kind = s.kind := rfl
@[simp] theorem State.respond_txseq (r : BitVec 16) (e : ErrorCode) (s : State) : (s.respond r e).txseq = s.txseq :=
  rfl
@[simp] theorem State.respond_ntx (r : BitVec 16) (e : ErrorCode) (s : State) : (s.respond r e).ntx = s.ntx := rfl
@[simp] theorem State.respond_i (r : BitVec 16) (e : ErrorCode) (s : State) : (s.respond r e).i = s.i := rfl
@[simp] theorem State.respond_j (r : BitVec 16) (e : ErrorCode) (s : State) : (s.respond r e).j = s.j := rfl
@[simp] theorem State.respond_rx (r : BitVec 16) (e : ErrorCode) (s : State) : (s.respond r e).rx = s.rx := rfl
@[simp] theorem State.respond_post (r : BitVec 16) (e : ErrorCode) (s : State) : (s.respond r e).post = s.post := rfl
@[simp] theorem State.respond_fld (r : BitVec 16) (e : ErrorCode) (s : State) : (s.respond r e).fld = s.fld := rfl
@[simp] theorem State.respond_result (r : BitVec 16) (e : ErrorCode) (s : State) : (s.respond r e).result = r := rfl
@[simp] theorem State.respond_err (r : BitVec 16) (e : ErrorCode) (s : State) : (s.respond r e).err = e.code := rfl
@[simp] theorem State.respond_busy (r : BitVec 16) (e : ErrorCode) (s : State) : (s.respond r e).busy = s.busy := rfl
@[simp] theorem State.respond_faulted (r : BitVec 16) (e : ErrorCode) (s : State) : (s.respond r e).faulted = s.faulted :=
  rfl
@[simp] theorem State.respond_trace (r : BitVec 16) (e : ErrorCode) (s : State) : (s.respond r e).trace = s.trace :=
  rfl
@[simp] theorem State.respond_responses (r : BitVec 16) (e : ErrorCode) (s : State) : (s.respond r e).responses = s.responses ++ [⟨r, e.code⟩] :=
  rfl
@[simp] theorem State.respond_proc (r : BitVec 16) (e : ErrorCode) (s : State) : (s.respond r e).proc = s.proc := rfl
@[simp] theorem State.respond_todo (r : BitVec 16) (e : ErrorCode) (s : State) : (s.respond r e).todo = s.todo := rfl
@[simp] theorem State.respond_procBegan (r : BitVec 16) (e : ErrorCode) (s : State) : (s.respond r e).procBegan = s.procBegan :=
  rfl
@[simp] theorem State.respond_samples (r : BitVec 16) (e : ErrorCode) (s : State) : (s.respond r e).samples = s.samples :=
  rfl
@[simp] theorem State.respond_lineMayFail (r : BitVec 16) (e : ErrorCode) (s : State) : (s.respond r e).lineMayFail = s.lineMayFail :=
  rfl
@[simp] theorem State.respond_reports (r : BitVec 16) (e : ErrorCode) (s : State) : (s.respond r e).reports = s.reports :=
  rfl
@[simp] theorem State.respond_draws (r : BitVec 16) (e : ErrorCode) (s : State) : (s.respond r e).draws = s.draws :=
  rfl
@[simp] theorem State.respond_resetPin (r : BitVec 16) (e : ErrorCode) (s : State) : (s.respond r e).resetPin = s.resetPin :=
  rfl

/-! `State.toIdle` -/

@[simp] theorem State.toIdle_clk (s : State) : (s.toIdle).clk = s.clk := rfl
@[simp] theorem State.toIdle_ce (s : State) : (s.toIdle).ce = s.ce := rfl
@[simp] theorem State.toIdle_dataDir (s : State) : (s.toIdle).dataDir = s.dataDir := rfl
@[simp] theorem State.toIdle_dataOut (s : State) : (s.toIdle).dataOut = s.dataOut := rfl
@[simp] theorem State.toIdle_phase (s : State) : (s.toIdle).phase = .idle := rfl
@[simp] theorem State.toIdle_kind (s : State) : (s.toIdle).kind = s.kind := rfl
@[simp] theorem State.toIdle_txseq (s : State) : (s.toIdle).txseq = s.txseq := rfl
@[simp] theorem State.toIdle_ntx (s : State) : (s.toIdle).ntx = s.ntx := rfl
@[simp] theorem State.toIdle_i (s : State) : (s.toIdle).i = s.i := rfl
@[simp] theorem State.toIdle_j (s : State) : (s.toIdle).j = s.j := rfl
@[simp] theorem State.toIdle_rx (s : State) : (s.toIdle).rx = s.rx := rfl
@[simp] theorem State.toIdle_post (s : State) : (s.toIdle).post = s.post := rfl
@[simp] theorem State.toIdle_fld (s : State) : (s.toIdle).fld = s.fld := rfl
@[simp] theorem State.toIdle_result (s : State) : (s.toIdle).result = s.result := rfl
@[simp] theorem State.toIdle_err (s : State) : (s.toIdle).err = s.err := rfl
@[simp] theorem State.toIdle_busy (s : State) : (s.toIdle).busy = false := rfl
@[simp] theorem State.toIdle_faulted (s : State) : (s.toIdle).faulted = s.faulted := rfl
@[simp] theorem State.toIdle_trace (s : State) : (s.toIdle).trace = s.trace := rfl
@[simp] theorem State.toIdle_responses (s : State) : (s.toIdle).responses = s.responses := rfl
@[simp] theorem State.toIdle_proc (s : State) : (s.toIdle).proc = s.proc := rfl
@[simp] theorem State.toIdle_todo (s : State) : (s.toIdle).todo = s.todo := rfl
@[simp] theorem State.toIdle_procBegan (s : State) : (s.toIdle).procBegan = s.procBegan := rfl
@[simp] theorem State.toIdle_samples (s : State) : (s.toIdle).samples = s.samples := rfl
@[simp] theorem State.toIdle_lineMayFail (s : State) : (s.toIdle).lineMayFail = s.lineMayFail := rfl
@[simp] theorem State.toIdle_reports (s : State) : (s.toIdle).reports = s.reports := rfl
@[simp] theorem State.toIdle_draws (s : State) : (s.toIdle).draws = s.draws := rfl
@[simp] theorem State.toIdle_resetPin (s : State) : (s.toIdle).resetPin = s.resetPin := rfl

/-! `State.raise` -/

@[simp] theorem State.raise_clk (e : ErrorCode) (s : State) : (s.raise e).clk = s.clk := rfl
@[simp] theorem State.raise_ce (e : ErrorCode) (s : State) : (s.raise e).ce = s.ce := rfl
@[simp] theorem State.raise_dataDir (e : ErrorCode) (s : State) : (s.raise e).dataDir = s.dataDir := rfl
@[simp] theorem State.raise_dataOut (e : ErrorCode) (s : State) : (s.raise e).dataOut = s.dataOut := rfl
@[simp] theorem State.raise_phase (e : ErrorCode) (s : State) : (s.raise e).phase = .idle := rfl
@[simp] theorem State.raise_kind (e : ErrorCode) (s : State) : (s.raise e).kind = s.kind := rfl
@[simp] theorem State.raise_txseq (e : ErrorCode) (s : State) : (s.raise e).txseq = s.txseq := rfl
@[simp] theorem State.raise_ntx (e : ErrorCode) (s : State) : (s.raise e).ntx = s.ntx := rfl
@[simp] theorem State.raise_i (e : ErrorCode) (s : State) : (s.raise e).i = s.i := rfl
@[simp] theorem State.raise_j (e : ErrorCode) (s : State) : (s.raise e).j = s.j := rfl
@[simp] theorem State.raise_rx (e : ErrorCode) (s : State) : (s.raise e).rx = s.rx := rfl
@[simp] theorem State.raise_post (e : ErrorCode) (s : State) : (s.raise e).post = s.post := rfl
@[simp] theorem State.raise_fld (e : ErrorCode) (s : State) : (s.raise e).fld = s.fld := rfl
@[simp] theorem State.raise_result (e : ErrorCode) (s : State) : (s.raise e).result = 0 := rfl
@[simp] theorem State.raise_err (e : ErrorCode) (s : State) : (s.raise e).err = e.code := rfl
@[simp] theorem State.raise_busy (e : ErrorCode) (s : State) : (s.raise e).busy = false := rfl
@[simp] theorem State.raise_faulted (e : ErrorCode) (s : State) : (s.raise e).faulted = s.faulted := rfl
@[simp] theorem State.raise_trace (e : ErrorCode) (s : State) : (s.raise e).trace = s.trace := rfl
@[simp] theorem State.raise_responses (e : ErrorCode) (s : State) : (s.raise e).responses = s.responses ++ [⟨0, e.code⟩] :=
  rfl
@[simp] theorem State.raise_proc (e : ErrorCode) (s : State) : (s.raise e).proc = s.proc := rfl
@[simp] theorem State.raise_todo (e : ErrorCode) (s : State) : (s.raise e).todo = s.todo := rfl
@[simp] theorem State.raise_procBegan (e : ErrorCode) (s : State) : (s.raise e).procBegan = s.procBegan := rfl
@[simp] theorem State.raise_samples (e : ErrorCode) (s : State) : (s.raise e).samples = s.samples := rfl
@[simp] theorem State.raise_lineMayFail (e : ErrorCode) (s : State) : (s.raise e).lineMayFail = s.lineMayFail := rfl
@[simp] theorem State.raise_reports (e : ErrorCode) (s : State) : (s.raise e).reports = s.reports := rfl
@[simp] theorem State.raise_draws (e : ErrorCode) (s : State) : (s.raise e).draws = s.draws := rfl
@[simp] theorem State.raise_resetPin (e : ErrorCode) (s : State) : (s.raise e).resetPin = s.resetPin := rfl

/-! `State.lineFault` -/

@[simp] theorem State.lineFault_clk (s : State) : (s.lineFault).clk = s.clk := rfl
@[simp] theorem State.lineFault_ce (s : State) : (s.lineFault).ce = s.ce := rfl
@[simp] theorem State.lineFault_dataDir (s : State) : (s.lineFault).dataDir = s.dataDir := rfl
@[simp] theorem State.lineFault_dataOut (s : State) : (s.lineFault).dataOut = s.dataOut := rfl
@[simp] theorem State.lineFault_phase (s : State) : (s.lineFault).phase = .idle := rfl
@[simp] theorem State.lineFault_kind (s : State) : (s.lineFault).kind = s.kind := rfl
@[simp] theorem State.lineFault_txseq (s : State) : (s.lineFault).txseq = s.txseq := rfl
@[simp] theorem State.lineFault_ntx (s : State) : (s.lineFault).ntx = s.ntx := rfl
@[simp] theorem State.lineFault_i (s : State) : (s.lineFault).i = s.i := rfl
@[simp] theorem State.lineFault_j (s : State) : (s.lineFault).j = s.j := rfl
@[simp] theorem State.lineFault_rx (s : State) : (s.lineFault).rx = s.rx := rfl
@[simp] theorem State.lineFault_post (s : State) : (s.lineFault).post = s.post := rfl
@[simp] theorem State.lineFault_fld (s : State) : (s.lineFault).fld = s.fld := rfl
@[simp] theorem State.lineFault_result (s : State) : (s.lineFault).result = 0 := rfl
@[simp] theorem State.lineFault_err (s : State) : (s.lineFault).err = ErrorCode.lineFault.code := rfl
@[simp] theorem State.lineFault_busy (s : State) : (s.lineFault).busy = false := rfl
@[simp] theorem State.lineFault_faulted (s : State) : (s.lineFault).faulted = true := rfl
@[simp] theorem State.lineFault_trace (s : State) : (s.lineFault).trace = s.trace := rfl
@[simp] theorem State.lineFault_responses (s : State) : (s.lineFault).responses = s.responses ++ [⟨0, ErrorCode.lineFault.code⟩] :=
  rfl
@[simp] theorem State.lineFault_proc (s : State) : (s.lineFault).proc = s.proc := rfl
@[simp] theorem State.lineFault_todo (s : State) : (s.lineFault).todo = s.todo := rfl
@[simp] theorem State.lineFault_procBegan (s : State) : (s.lineFault).procBegan = s.procBegan := rfl
@[simp] theorem State.lineFault_samples (s : State) : (s.lineFault).samples = s.samples := rfl
@[simp] theorem State.lineFault_lineMayFail (s : State) : (s.lineFault).lineMayFail = s.lineMayFail := rfl
@[simp] theorem State.lineFault_reports (s : State) : (s.lineFault).reports = s.reports := rfl
@[simp] theorem State.lineFault_draws (s : State) : (s.lineFault).draws = s.draws := rfl
@[simp] theorem State.lineFault_resetPin (s : State) : (s.lineFault).resetPin = s.resetPin := rfl

/-! `State.answer` -/

@[simp] theorem State.answer_clk (r : BitVec 16) (s : State) : (s.answer r).clk = s.clk := rfl
@[simp] theorem State.answer_ce (r : BitVec 16) (s : State) : (s.answer r).ce = s.ce := rfl
@[simp] theorem State.answer_dataDir (r : BitVec 16) (s : State) : (s.answer r).dataDir = s.dataDir := rfl
@[simp] theorem State.answer_dataOut (r : BitVec 16) (s : State) : (s.answer r).dataOut = s.dataOut := rfl
@[simp] theorem State.answer_phase (r : BitVec 16) (s : State) : (s.answer r).phase = s.phase := rfl
@[simp] theorem State.answer_kind (r : BitVec 16) (s : State) : (s.answer r).kind = s.kind := rfl
@[simp] theorem State.answer_txseq (r : BitVec 16) (s : State) : (s.answer r).txseq = s.txseq := rfl
@[simp] theorem State.answer_ntx (r : BitVec 16) (s : State) : (s.answer r).ntx = s.ntx := rfl
@[simp] theorem State.answer_i (r : BitVec 16) (s : State) : (s.answer r).i = s.i := rfl
@[simp] theorem State.answer_j (r : BitVec 16) (s : State) : (s.answer r).j = s.j := rfl
@[simp] theorem State.answer_rx (r : BitVec 16) (s : State) : (s.answer r).rx = s.rx := rfl
@[simp] theorem State.answer_post (r : BitVec 16) (s : State) : (s.answer r).post = s.post := rfl
@[simp] theorem State.answer_fld (r : BitVec 16) (s : State) : (s.answer r).fld = s.fld := rfl
@[simp] theorem State.answer_result (r : BitVec 16) (s : State) : (s.answer r).result = r := rfl
@[simp] theorem State.answer_err (r : BitVec 16) (s : State) : (s.answer r).err = 0 := rfl
@[simp] theorem State.answer_busy (r : BitVec 16) (s : State) : (s.answer r).busy = s.busy := rfl
@[simp] theorem State.answer_faulted (r : BitVec 16) (s : State) : (s.answer r).faulted = s.faulted := rfl
@[simp] theorem State.answer_trace (r : BitVec 16) (s : State) : (s.answer r).trace = s.trace := rfl
@[simp] theorem State.answer_responses (r : BitVec 16) (s : State) : (s.answer r).responses = s.responses ++ [⟨r, 0⟩] :=
  rfl
@[simp] theorem State.answer_proc (r : BitVec 16) (s : State) : (s.answer r).proc = s.proc := rfl
@[simp] theorem State.answer_todo (r : BitVec 16) (s : State) : (s.answer r).todo = s.todo := rfl
@[simp] theorem State.answer_procBegan (r : BitVec 16) (s : State) : (s.answer r).procBegan = s.procBegan := rfl
@[simp] theorem State.answer_samples (r : BitVec 16) (s : State) : (s.answer r).samples = s.samples := rfl
@[simp] theorem State.answer_lineMayFail (r : BitVec 16) (s : State) : (s.answer r).lineMayFail = s.lineMayFail := rfl
@[simp] theorem State.answer_reports (r : BitVec 16) (s : State) : (s.answer r).reports = s.reports := rfl
@[simp] theorem State.answer_draws (r : BitVec 16) (s : State) : (s.answer r).draws = s.draws := rfl
@[simp] theorem State.answer_resetPin (r : BitVec 16) (s : State) : (s.answer r).resetPin = s.resetPin := rfl

/-! `State.finish` -/

@[simp] theorem State.finish_clk (r : BitVec 16) (s : State) : (s.finish r).clk = s.clk := rfl
@[simp] theorem State.finish_ce (r : BitVec 16) (s : State) : (s.finish r).ce = s.ce := rfl
@[simp] theorem State.finish_dataDir (r : BitVec 16) (s : State) : (s.finish r).dataDir = s.dataDir := rfl
@[simp] theorem State.finish_dataOut (r : BitVec 16) (s : State) : (s.finish r).dataOut = s.dataOut := rfl
@[simp] theorem State.finish_phase (r : BitVec 16) (s : State) : (s.finish r).phase = .idle := rfl
@[simp] theorem State.finish_kind (r : BitVec 16) (s : State) : (s.finish r).kind = s.kind := rfl
@[simp] theorem State.finish_txseq (r : BitVec 16) (s : State) : (s.finish r).txseq = s.txseq := rfl
@[simp] theorem State.finish_ntx (r : BitVec 16) (s : State) : (s.finish r).ntx = s.ntx := rfl
@[simp] theorem State.finish_i (r : BitVec 16) (s : State) : (s.finish r).i = s.i := rfl
@[simp] theorem State.finish_j (r : BitVec 16) (s : State) : (s.finish r).j = s.j := rfl
@[simp] theorem State.finish_rx (r : BitVec 16) (s : State) : (s.finish r).rx = s.rx := rfl
@[simp] theorem State.finish_post (r : BitVec 16) (s : State) : (s.finish r).post = s.post := rfl
@[simp] theorem State.finish_fld (r : BitVec 16) (s : State) : (s.finish r).fld = s.fld := rfl
@[simp] theorem State.finish_result (r : BitVec 16) (s : State) : (s.finish r).result = r := rfl
@[simp] theorem State.finish_err (r : BitVec 16) (s : State) : (s.finish r).err = 0 := rfl
@[simp] theorem State.finish_busy (r : BitVec 16) (s : State) : (s.finish r).busy = false := rfl
@[simp] theorem State.finish_faulted (r : BitVec 16) (s : State) : (s.finish r).faulted = s.faulted := rfl
@[simp] theorem State.finish_trace (r : BitVec 16) (s : State) : (s.finish r).trace = s.trace := rfl
@[simp] theorem State.finish_responses (r : BitVec 16) (s : State) : (s.finish r).responses = s.responses ++ [⟨r, 0⟩] :=
  rfl
@[simp] theorem State.finish_proc (r : BitVec 16) (s : State) : (s.finish r).proc = s.proc := rfl
@[simp] theorem State.finish_todo (r : BitVec 16) (s : State) : (s.finish r).todo = s.todo := rfl
@[simp] theorem State.finish_procBegan (r : BitVec 16) (s : State) : (s.finish r).procBegan = s.procBegan := rfl
@[simp] theorem State.finish_samples (r : BitVec 16) (s : State) : (s.finish r).samples = s.samples := rfl
@[simp] theorem State.finish_lineMayFail (r : BitVec 16) (s : State) : (s.finish r).lineMayFail = s.lineMayFail := rfl
@[simp] theorem State.finish_reports (r : BitVec 16) (s : State) : (s.finish r).reports = s.reports := rfl
@[simp] theorem State.finish_draws (r : BitVec 16) (s : State) : (s.finish r).draws = s.draws := rfl
@[simp] theorem State.finish_resetPin (r : BitVec 16) (s : State) : (s.finish r).resetPin = s.resetPin := rfl

/-! `State.load` -/

@[simp] theorem State.load_clk (k : Kind) (a d : Byte) (s : State) : (s.load k a d).clk = s.clk := rfl
@[simp] theorem State.load_ce (k : Kind) (a d : Byte) (s : State) : (s.load k a d).ce = s.ce := rfl
@[simp] theorem State.load_dataDir (k : Kind) (a d : Byte) (s : State) : (s.load k a d).dataDir = s.dataDir := rfl
@[simp] theorem State.load_dataOut (k : Kind) (a d : Byte) (s : State) : (s.load k a d).dataOut = s.dataOut := rfl
@[simp] theorem State.load_phase (k : Kind) (a d : Byte) (s : State) : (s.load k a d).phase = .bClk := rfl
@[simp] theorem State.load_kind (k : Kind) (a d : Byte) (s : State) : (s.load k a d).kind = k := rfl
@[simp] theorem State.load_txseq (k : Kind) (a d : Byte) (s : State) : (s.load k a d).txseq = d ++ a := rfl
@[simp] theorem State.load_ntx (k : Kind) (a d : Byte) (s : State) : (s.load k a d).ntx = ntxOf k := rfl
@[simp] theorem State.load_i (k : Kind) (a d : Byte) (s : State) : (s.load k a d).i = 0 := rfl
@[simp] theorem State.load_j (k : Kind) (a d : Byte) (s : State) : (s.load k a d).j = 0 := rfl
@[simp] theorem State.load_rx (k : Kind) (a d : Byte) (s : State) : (s.load k a d).rx = 0 := rfl
@[simp] theorem State.load_post (k : Kind) (a d : Byte) (s : State) : (s.load k a d).post = s.post := rfl
@[simp] theorem State.load_fld (k : Kind) (a d : Byte) (s : State) : (s.load k a d).fld = s.fld := rfl
@[simp] theorem State.load_result (k : Kind) (a d : Byte) (s : State) : (s.load k a d).result = s.result := rfl
@[simp] theorem State.load_err (k : Kind) (a d : Byte) (s : State) : (s.load k a d).err = s.err := rfl
@[simp] theorem State.load_busy (k : Kind) (a d : Byte) (s : State) : (s.load k a d).busy = true := rfl
@[simp] theorem State.load_faulted (k : Kind) (a d : Byte) (s : State) : (s.load k a d).faulted = s.faulted := rfl
@[simp] theorem State.load_trace (k : Kind) (a d : Byte) (s : State) : (s.load k a d).trace = s.trace := rfl
@[simp] theorem State.load_responses (k : Kind) (a d : Byte) (s : State) : (s.load k a d).responses = s.responses :=
  rfl
@[simp] theorem State.load_proc (k : Kind) (a d : Byte) (s : State) : (s.load k a d).proc = s.proc := rfl
@[simp] theorem State.load_todo (k : Kind) (a d : Byte) (s : State) : (s.load k a d).todo = s.todo := rfl
@[simp] theorem State.load_procBegan (k : Kind) (a d : Byte) (s : State) : (s.load k a d).procBegan = s.procBegan :=
  rfl
@[simp] theorem State.load_samples (k : Kind) (a d : Byte) (s : State) : (s.load k a d).samples = s.samples := rfl
@[simp] theorem State.load_lineMayFail (k : Kind) (a d : Byte) (s : State) : (s.load k a d).lineMayFail = s.lineMayFail :=
  rfl
@[simp] theorem State.load_reports (k : Kind) (a d : Byte) (s : State) : (s.load k a d).reports = s.reports := rfl
@[simp] theorem State.load_draws (k : Kind) (a d : Byte) (s : State) : (s.load k a d).draws = s.draws := rfl
@[simp] theorem State.load_resetPin (k : Kind) (a d : Byte) (s : State) : (s.load k a d).resetPin = s.resetPin := rfl

/-! `State.accept` -/

@[simp] theorem State.accept_clk (k : Kind) (a d : Byte) (p : Post) (s : State) : (s.accept k a d p).clk = s.clk :=
  rfl
@[simp] theorem State.accept_ce (k : Kind) (a d : Byte) (p : Post) (s : State) : (s.accept k a d p).ce = s.ce := rfl
@[simp] theorem State.accept_dataDir (k : Kind) (a d : Byte) (p : Post) (s : State) : (s.accept k a d p).dataDir = s.dataDir :=
  rfl
@[simp] theorem State.accept_dataOut (k : Kind) (a d : Byte) (p : Post) (s : State) : (s.accept k a d p).dataOut = s.dataOut :=
  rfl
@[simp] theorem State.accept_phase (k : Kind) (a d : Byte) (p : Post) (s : State) : (s.accept k a d p).phase = .bClk :=
  rfl
@[simp] theorem State.accept_kind (k : Kind) (a d : Byte) (p : Post) (s : State) : (s.accept k a d p).kind = k := rfl
@[simp] theorem State.accept_txseq (k : Kind) (a d : Byte) (p : Post) (s : State) : (s.accept k a d p).txseq = d ++ a :=
  rfl
@[simp] theorem State.accept_ntx (k : Kind) (a d : Byte) (p : Post) (s : State) : (s.accept k a d p).ntx = ntxOf k :=
  rfl
@[simp] theorem State.accept_i (k : Kind) (a d : Byte) (p : Post) (s : State) : (s.accept k a d p).i = 0 := rfl
@[simp] theorem State.accept_j (k : Kind) (a d : Byte) (p : Post) (s : State) : (s.accept k a d p).j = 0 := rfl
@[simp] theorem State.accept_rx (k : Kind) (a d : Byte) (p : Post) (s : State) : (s.accept k a d p).rx = 0 := rfl
@[simp] theorem State.accept_post (k : Kind) (a d : Byte) (p : Post) (s : State) : (s.accept k a d p).post = p := rfl
@[simp] theorem State.accept_fld (k : Kind) (a d : Byte) (p : Post) (s : State) : (s.accept k a d p).fld = s.fld :=
  rfl
@[simp] theorem State.accept_result (k : Kind) (a d : Byte) (p : Post) (s : State) : (s.accept k a d p).result = s.result :=
  rfl
@[simp] theorem State.accept_err (k : Kind) (a d : Byte) (p : Post) (s : State) : (s.accept k a d p).err = s.err :=
  rfl
@[simp] theorem State.accept_busy (k : Kind) (a d : Byte) (p : Post) (s : State) : (s.accept k a d p).busy = true :=
  rfl
@[simp] theorem State.accept_faulted (k : Kind) (a d : Byte) (p : Post) (s : State) : (s.accept k a d p).faulted = s.faulted :=
  rfl
@[simp] theorem State.accept_trace (k : Kind) (a d : Byte) (p : Post) (s : State) : (s.accept k a d p).trace = s.trace :=
  rfl
@[simp] theorem State.accept_responses (k : Kind) (a d : Byte) (p : Post) (s : State) : (s.accept k a d p).responses = s.responses :=
  rfl
@[simp] theorem State.accept_proc (k : Kind) (a d : Byte) (p : Post) (s : State) : (s.accept k a d p).proc = s.proc :=
  rfl
@[simp] theorem State.accept_todo (k : Kind) (a d : Byte) (p : Post) (s : State) : (s.accept k a d p).todo = s.todo :=
  rfl
@[simp] theorem State.accept_procBegan (k : Kind) (a d : Byte) (p : Post) (s : State) : (s.accept k a d p).procBegan = s.procBegan :=
  rfl
@[simp] theorem State.accept_samples (k : Kind) (a d : Byte) (p : Post) (s : State) : (s.accept k a d p).samples = s.samples :=
  rfl
@[simp] theorem State.accept_lineMayFail (k : Kind) (a d : Byte) (p : Post) (s : State) : (s.accept k a d p).lineMayFail = s.lineMayFail :=
  rfl
@[simp] theorem State.accept_reports (k : Kind) (a d : Byte) (p : Post) (s : State) : (s.accept k a d p).reports = s.reports :=
  rfl
@[simp] theorem State.accept_draws (k : Kind) (a d : Byte) (p : Post) (s : State) : (s.accept k a d p).draws = s.draws :=
  rfl
@[simp] theorem State.accept_resetPin (k : Kind) (a d : Byte) (p : Post) (s : State) : (s.accept k a d p).resetPin = s.resetPin :=
  rfl

/-! `State.acceptField` -/

@[simp] theorem State.acceptField_clk (k : Kind) (a d : Byte) (p : Post) (f : TimeField) (s : State) : (s.acceptField k a d p f).clk = s.clk :=
  rfl
@[simp] theorem State.acceptField_ce (k : Kind) (a d : Byte) (p : Post) (f : TimeField) (s : State) : (s.acceptField k a d p f).ce = s.ce :=
  rfl
@[simp] theorem State.acceptField_dataDir (k : Kind) (a d : Byte) (p : Post) (f : TimeField) (s : State) : (s.acceptField k a d p f).dataDir = s.dataDir :=
  rfl
@[simp] theorem State.acceptField_dataOut (k : Kind) (a d : Byte) (p : Post) (f : TimeField) (s : State) : (s.acceptField k a d p f).dataOut = s.dataOut :=
  rfl
@[simp] theorem State.acceptField_phase (k : Kind) (a d : Byte) (p : Post) (f : TimeField) (s : State) : (s.acceptField k a d p f).phase = .bClk :=
  rfl
@[simp] theorem State.acceptField_kind (k : Kind) (a d : Byte) (p : Post) (f : TimeField) (s : State) : (s.acceptField k a d p f).kind = k :=
  rfl
@[simp] theorem State.acceptField_txseq (k : Kind) (a d : Byte) (p : Post) (f : TimeField) (s : State) : (s.acceptField k a d p f).txseq = d ++ a :=
  rfl
@[simp] theorem State.acceptField_ntx (k : Kind) (a d : Byte) (p : Post) (f : TimeField) (s : State) : (s.acceptField k a d p f).ntx = ntxOf k :=
  rfl
@[simp] theorem State.acceptField_i (k : Kind) (a d : Byte) (p : Post) (f : TimeField) (s : State) : (s.acceptField k a d p f).i = 0 :=
  rfl
@[simp] theorem State.acceptField_j (k : Kind) (a d : Byte) (p : Post) (f : TimeField) (s : State) : (s.acceptField k a d p f).j = 0 :=
  rfl
@[simp] theorem State.acceptField_rx (k : Kind) (a d : Byte) (p : Post) (f : TimeField) (s : State) : (s.acceptField k a d p f).rx = 0 :=
  rfl
@[simp] theorem State.acceptField_post (k : Kind) (a d : Byte) (p : Post) (f : TimeField) (s : State) : (s.acceptField k a d p f).post = p :=
  rfl
@[simp] theorem State.acceptField_fld (k : Kind) (a d : Byte) (p : Post) (f : TimeField) (s : State) : (s.acceptField k a d p f).fld = f.code :=
  rfl
@[simp] theorem State.acceptField_result (k : Kind) (a d : Byte) (p : Post) (f : TimeField) (s : State) : (s.acceptField k a d p f).result = s.result :=
  rfl
@[simp] theorem State.acceptField_err (k : Kind) (a d : Byte) (p : Post) (f : TimeField) (s : State) : (s.acceptField k a d p f).err = s.err :=
  rfl
@[simp] theorem State.acceptField_busy (k : Kind) (a d : Byte) (p : Post) (f : TimeField) (s : State) : (s.acceptField k a d p f).busy = true :=
  rfl
@[simp] theorem State.acceptField_faulted (k : Kind) (a d : Byte) (p : Post) (f : TimeField) (s : State) : (s.acceptField k a d p f).faulted = s.faulted :=
  rfl
@[simp] theorem State.acceptField_trace (k : Kind) (a d : Byte) (p : Post) (f : TimeField) (s : State) : (s.acceptField k a d p f).trace = s.trace :=
  rfl
@[simp] theorem State.acceptField_responses (k : Kind) (a d : Byte) (p : Post) (f : TimeField) (s : State) : (s.acceptField k a d p f).responses = s.responses :=
  rfl
@[simp] theorem State.acceptField_proc (k : Kind) (a d : Byte) (p : Post) (f : TimeField) (s : State) : (s.acceptField k a d p f).proc = s.proc :=
  rfl
@[simp] theorem State.acceptField_todo (k : Kind) (a d : Byte) (p : Post) (f : TimeField) (s : State) : (s.acceptField k a d p f).todo = s.todo :=
  rfl
@[simp] theorem State.acceptField_procBegan (k : Kind) (a d : Byte) (p : Post) (f : TimeField) (s : State) : (s.acceptField k a d p f).procBegan = s.procBegan :=
  rfl
@[simp] theorem State.acceptField_samples (k : Kind) (a d : Byte) (p : Post) (f : TimeField) (s : State) : (s.acceptField k a d p f).samples = s.samples :=
  rfl
@[simp] theorem State.acceptField_lineMayFail (k : Kind) (a d : Byte) (p : Post) (f : TimeField) (s : State) : (s.acceptField k a d p f).lineMayFail = s.lineMayFail :=
  rfl
@[simp] theorem State.acceptField_reports (k : Kind) (a d : Byte) (p : Post) (f : TimeField) (s : State) : (s.acceptField k a d p f).reports = s.reports :=
  rfl
@[simp] theorem State.acceptField_draws (k : Kind) (a d : Byte) (p : Post) (f : TimeField) (s : State) : (s.acceptField k a d p f).draws = s.draws :=
  rfl
@[simp] theorem State.acceptField_resetPin (k : Kind) (a d : Byte) (p : Post) (f : TimeField) (s : State) : (s.acceptField k a d p f).resetPin = s.resetPin :=
  rfl

/-! `State.presenting` -/

@[simp] theorem State.presenting_clk (w : Word) (s : State) : (s.presenting w).clk = s.clk := rfl
@[simp] theorem State.presenting_ce (w : Word) (s : State) : (s.presenting w).ce = s.ce := rfl
@[simp] theorem State.presenting_dataDir (w : Word) (s : State) : (s.presenting w).dataDir = s.dataDir := rfl
@[simp] theorem State.presenting_dataOut (w : Word) (s : State) : (s.presenting w).dataOut = s.dataOut := rfl
@[simp] theorem State.presenting_phase (w : Word) (s : State) : (s.presenting w).phase = .idle := rfl
@[simp] theorem State.presenting_kind (w : Word) (s : State) : (s.presenting w).kind = s.kind := rfl
@[simp] theorem State.presenting_txseq (w : Word) (s : State) : (s.presenting w).txseq = s.txseq := rfl
@[simp] theorem State.presenting_ntx (w : Word) (s : State) : (s.presenting w).ntx = s.ntx := rfl
@[simp] theorem State.presenting_i (w : Word) (s : State) : (s.presenting w).i = s.i := rfl
@[simp] theorem State.presenting_j (w : Word) (s : State) : (s.presenting w).j = s.j := rfl
@[simp] theorem State.presenting_rx (w : Word) (s : State) : (s.presenting w).rx = s.rx := rfl
@[simp] theorem State.presenting_post (w : Word) (s : State) : (s.presenting w).post = s.post := rfl
@[simp] theorem State.presenting_fld (w : Word) (s : State) : (s.presenting w).fld = s.fld := rfl
@[simp] theorem State.presenting_result (w : Word) (s : State) : (s.presenting w).result = s.result := rfl
@[simp] theorem State.presenting_err (w : Word) (s : State) : (s.presenting w).err = s.err := rfl
@[simp] theorem State.presenting_busy (w : Word) (s : State) : (s.presenting w).busy = false := rfl
@[simp] theorem State.presenting_faulted (w : Word) (s : State) : (s.presenting w).faulted = s.faulted := rfl
@[simp] theorem State.presenting_trace (w : Word) (s : State) : (s.presenting w).trace = s.trace := rfl
@[simp] theorem State.presenting_responses (w : Word) (s : State) : (s.presenting w).responses = s.responses := rfl
@[simp] theorem State.presenting_proc (w : Word) (s : State) : (s.presenting w).proc = [] := rfl
@[simp] theorem State.presenting_todo (w : Word) (s : State) : (s.presenting w).todo = ⟨w, []⟩ :: s.todo := rfl
@[simp] theorem State.presenting_procBegan (w : Word) (s : State) : (s.presenting w).procBegan = s.procBegan := rfl
@[simp] theorem State.presenting_samples (w : Word) (s : State) : (s.presenting w).samples = s.samples := rfl
@[simp] theorem State.presenting_lineMayFail (w : Word) (s : State) : (s.presenting w).lineMayFail = s.lineMayFail :=
  rfl
@[simp] theorem State.presenting_reports (w : Word) (s : State) : (s.presenting w).reports = s.reports := rfl
@[simp] theorem State.presenting_draws (w : Word) (s : State) : (s.presenting w).draws = s.draws := rfl
@[simp] theorem State.presenting_resetPin (w : Word) (s : State) : (s.presenting w).resetPin = false := rfl

/-! `State.perform` -/

@[simp] theorem State.perform_phase (a : LineAction) (s : State) : (s.perform a).phase = s.phase := by
  rcases a with ⟨_ | _ | _, _⟩ | _ | _ <;> rfl
@[simp] theorem State.perform_kind (a : LineAction) (s : State) : (s.perform a).kind = s.kind := by
  rcases a with ⟨_ | _ | _, _⟩ | _ | _ <;> rfl
@[simp] theorem State.perform_txseq (a : LineAction) (s : State) : (s.perform a).txseq = s.txseq := by
  rcases a with ⟨_ | _ | _, _⟩ | _ | _ <;> rfl
@[simp] theorem State.perform_ntx (a : LineAction) (s : State) : (s.perform a).ntx = s.ntx := by
  rcases a with ⟨_ | _ | _, _⟩ | _ | _ <;> rfl
@[simp] theorem State.perform_i (a : LineAction) (s : State) : (s.perform a).i = s.i := by
  rcases a with ⟨_ | _ | _, _⟩ | _ | _ <;> rfl
@[simp] theorem State.perform_j (a : LineAction) (s : State) : (s.perform a).j = s.j := by
  rcases a with ⟨_ | _ | _, _⟩ | _ | _ <;> rfl
@[simp] theorem State.perform_rx (a : LineAction) (s : State) : (s.perform a).rx = s.rx := by
  rcases a with ⟨_ | _ | _, _⟩ | _ | _ <;> rfl
@[simp] theorem State.perform_post (a : LineAction) (s : State) : (s.perform a).post = s.post := by
  rcases a with ⟨_ | _ | _, _⟩ | _ | _ <;> rfl
@[simp] theorem State.perform_fld (a : LineAction) (s : State) : (s.perform a).fld = s.fld := by
  rcases a with ⟨_ | _ | _, _⟩ | _ | _ <;> rfl
@[simp] theorem State.perform_result (a : LineAction) (s : State) : (s.perform a).result = s.result := by
  rcases a with ⟨_ | _ | _, _⟩ | _ | _ <;> rfl
@[simp] theorem State.perform_err (a : LineAction) (s : State) : (s.perform a).err = s.err := by
  rcases a with ⟨_ | _ | _, _⟩ | _ | _ <;> rfl
@[simp] theorem State.perform_busy (a : LineAction) (s : State) : (s.perform a).busy = s.busy := by
  rcases a with ⟨_ | _ | _, _⟩ | _ | _ <;> rfl
@[simp] theorem State.perform_faulted (a : LineAction) (s : State) : (s.perform a).faulted = s.faulted := by
  rcases a with ⟨_ | _ | _, _⟩ | _ | _ <;> rfl
@[simp] theorem State.perform_trace (a : LineAction) (s : State) : (s.perform a).trace = s.trace ++ [a] := by
  rcases a with ⟨_ | _ | _, _⟩ | _ | _ <;> rfl
@[simp] theorem State.perform_responses (a : LineAction) (s : State) : (s.perform a).responses = s.responses := by
  rcases a with ⟨_ | _ | _, _⟩ | _ | _ <;> rfl
@[simp] theorem State.perform_proc (a : LineAction) (s : State) : (s.perform a).proc = s.proc := by
  rcases a with ⟨_ | _ | _, _⟩ | _ | _ <;> rfl
@[simp] theorem State.perform_todo (a : LineAction) (s : State) : (s.perform a).todo = s.todo := by
  rcases a with ⟨_ | _ | _, _⟩ | _ | _ <;> rfl
@[simp] theorem State.perform_procBegan (a : LineAction) (s : State) : (s.perform a).procBegan = s.procBegan := by
  rcases a with ⟨_ | _ | _, _⟩ | _ | _ <;> rfl
@[simp] theorem State.perform_samples (a : LineAction) (s : State) : (s.perform a).samples = s.samples := by
  rcases a with ⟨_ | _ | _, _⟩ | _ | _ <;> rfl
@[simp] theorem State.perform_lineMayFail (a : LineAction) (s : State) : (s.perform a).lineMayFail = s.lineMayFail := by
  rcases a with ⟨_ | _ | _, _⟩ | _ | _ <;> rfl
@[simp] theorem State.perform_reports (a : LineAction) (s : State) : (s.perform a).reports = s.reports := by
  rcases a with ⟨_ | _ | _, _⟩ | _ | _ <;> rfl
@[simp] theorem State.perform_draws (a : LineAction) (s : State) : (s.perform a).draws = s.draws := by
  rcases a with ⟨_ | _ | _, _⟩ | _ | _ <;> rfl
@[simp] theorem State.perform_resetPin (a : LineAction) (s : State) : (s.perform a).resetPin = s.resetPin := by
  rcases a with ⟨_ | _ | _, _⟩ | _ | _ <;> rfl
@[simp] theorem State.perform_clock_clk (l : Level) (s : State) : (s.perform (.setLevel .clock l)).clk = l := rfl
@[simp] theorem State.perform_clock_ce (l : Level) (s : State) : (s.perform (.setLevel .clock l)).ce = s.ce := rfl
@[simp] theorem State.perform_clock_dataDir (l : Level) (s : State) : (s.perform (.setLevel .clock l)).dataDir = s.dataDir := rfl
@[simp] theorem State.perform_clock_dataOut (l : Level) (s : State) : (s.perform (.setLevel .clock l)).dataOut = s.dataOut := rfl
@[simp] theorem State.perform_data_clk (l : Level) (s : State) : (s.perform (.setLevel .data l)).clk = s.clk := rfl
@[simp] theorem State.perform_data_ce (l : Level) (s : State) : (s.perform (.setLevel .data l)).ce = s.ce := rfl
@[simp] theorem State.perform_data_dataDir (l : Level) (s : State) : (s.perform (.setLevel .data l)).dataDir = s.dataDir := rfl
@[simp] theorem State.perform_data_dataOut (l : Level) (s : State) : (s.perform (.setLevel .data l)).dataOut = l := rfl
@[simp] theorem State.perform_ce_clk (l : Level) (s : State) : (s.perform (.setLevel .ce l)).clk = s.clk := rfl
@[simp] theorem State.perform_ce_ce (l : Level) (s : State) : (s.perform (.setLevel .ce l)).ce = l := rfl
@[simp] theorem State.perform_ce_dataDir (l : Level) (s : State) : (s.perform (.setLevel .ce l)).dataDir = s.dataDir := rfl
@[simp] theorem State.perform_ce_dataOut (l : Level) (s : State) : (s.perform (.setLevel .ce l)).dataOut = s.dataOut := rfl
@[simp] theorem State.perform_dir_clk (d : Dir) (s : State) : (s.perform (.setDir d)).clk = s.clk := rfl
@[simp] theorem State.perform_dir_ce (d : Dir) (s : State) : (s.perform (.setDir d)).ce = s.ce := rfl
@[simp] theorem State.perform_dir_dataDir (d : Dir) (s : State) : (s.perform (.setDir d)).dataDir = d := rfl
@[simp] theorem State.perform_dir_dataOut (d : Dir) (s : State) : (s.perform (.setDir d)).dataOut = s.dataOut := rfl
@[simp] theorem State.perform_read_clk (l : Level) (s : State) : (s.perform (.readLevel l)).clk = s.clk := rfl
@[simp] theorem State.perform_read_ce (l : Level) (s : State) : (s.perform (.readLevel l)).ce = s.ce := rfl
@[simp] theorem State.perform_read_dataDir (l : Level) (s : State) : (s.perform (.readLevel l)).dataDir = s.dataDir := rfl
@[simp] theorem State.perform_read_dataOut (l : Level) (s : State) : (s.perform (.readLevel l)).dataOut = s.dataOut := rfl

/-! `State.dropReports` -/

@[simp] theorem State.dropReports_clk (n : Nat) (s : State) : (s.dropReports n).clk = s.clk := by
  unfold State.dropReports; split <;> rfl
@[simp] theorem State.dropReports_ce (n : Nat) (s : State) : (s.dropReports n).ce = s.ce := by
  unfold State.dropReports; split <;> rfl
@[simp] theorem State.dropReports_dataDir (n : Nat) (s : State) : (s.dropReports n).dataDir = s.dataDir := by
  unfold State.dropReports; split <;> rfl
@[simp] theorem State.dropReports_dataOut (n : Nat) (s : State) : (s.dropReports n).dataOut = s.dataOut := by
  unfold State.dropReports; split <;> rfl
@[simp] theorem State.dropReports_phase (n : Nat) (s : State) : (s.dropReports n).phase = s.phase := by
  unfold State.dropReports; split <;> rfl
@[simp] theorem State.dropReports_kind (n : Nat) (s : State) : (s.dropReports n).kind = s.kind := by
  unfold State.dropReports; split <;> rfl
@[simp] theorem State.dropReports_txseq (n : Nat) (s : State) : (s.dropReports n).txseq = s.txseq := by
  unfold State.dropReports; split <;> rfl
@[simp] theorem State.dropReports_ntx (n : Nat) (s : State) : (s.dropReports n).ntx = s.ntx := by
  unfold State.dropReports; split <;> rfl
@[simp] theorem State.dropReports_i (n : Nat) (s : State) : (s.dropReports n).i = s.i := by
  unfold State.dropReports; split <;> rfl
@[simp] theorem State.dropReports_j (n : Nat) (s : State) : (s.dropReports n).j = s.j := by
  unfold State.dropReports; split <;> rfl
@[simp] theorem State.dropReports_rx (n : Nat) (s : State) : (s.dropReports n).rx = s.rx := by
  unfold State.dropReports; split <;> rfl
@[simp] theorem State.dropReports_post (n : Nat) (s : State) : (s.dropReports n).post = s.post := by
  unfold State.dropReports; split <;> rfl
@[simp] theorem State.dropReports_fld (n : Nat) (s : State) : (s.dropReports n).fld = s.fld := by
  unfold State.dropReports; split <;> rfl
@[simp] theorem State.dropReports_result (n : Nat) (s : State) : (s.dropReports n).result = s.result := by
  unfold State.dropReports; split <;> rfl
@[simp] theorem State.dropReports_err (n : Nat) (s : State) : (s.dropReports n).err = s.err := by
  unfold State.dropReports; split <;> rfl
@[simp] theorem State.dropReports_busy (n : Nat) (s : State) : (s.dropReports n).busy = s.busy := by
  unfold State.dropReports; split <;> rfl
@[simp] theorem State.dropReports_faulted (n : Nat) (s : State) : (s.dropReports n).faulted = s.faulted := by
  unfold State.dropReports; split <;> rfl
@[simp] theorem State.dropReports_trace (n : Nat) (s : State) : (s.dropReports n).trace = s.trace := by
  unfold State.dropReports; split <;> rfl
@[simp] theorem State.dropReports_responses (n : Nat) (s : State) : (s.dropReports n).responses = s.responses := by
  unfold State.dropReports; split <;> rfl
@[simp] theorem State.dropReports_proc (n : Nat) (s : State) : (s.dropReports n).proc = s.proc := by
  unfold State.dropReports; split <;> rfl
@[simp] theorem State.dropReports_todo (n : Nat) (s : State) : (s.dropReports n).todo = s.todo := by
  unfold State.dropReports; split <;> rfl
@[simp] theorem State.dropReports_procBegan (n : Nat) (s : State) : (s.dropReports n).procBegan = s.procBegan := by
  unfold State.dropReports; split <;> rfl
@[simp] theorem State.dropReports_samples (n : Nat) (s : State) : (s.dropReports n).samples = s.samples := by
  unfold State.dropReports; split <;> rfl
@[simp] theorem State.dropReports_lineMayFail (n : Nat) (s : State) : (s.dropReports n).lineMayFail = s.lineMayFail := by
  unfold State.dropReports; split <;> rfl
@[simp] theorem State.dropReports_reports (n : Nat) (s : State) :
    (s.dropReports n).reports = if s.lineMayFail then s.reports.drop n else s.reports := by
  unfold State.dropReports; split <;> rfl
@[simp] theorem State.dropReports_draws (n : Nat) (s : State) : (s.dropReports n).draws = s.draws := by
  unfold State.dropReports; split <;> rfl
@[simp] theorem State.dropReports_resetPin (n : Nat) (s : State) : (s.dropReports n).resetPin = s.resetPin := by
  unfold State.dropReports; split <;> rfl

/-! `applyReset` -/

@[simp] theorem applyReset_clk (s : State) : (applyReset s).clk = .low := rfl
@[simp] theorem applyReset_ce (s : State) : (applyReset s).ce = .low := rfl
@[simp] theorem applyReset_dataDir (s : State) : (applyReset s).dataDir = .output := rfl
@[simp] theorem applyReset_dataOut (s : State) : (applyReset s).dataOut = .low := rfl
@[simp] theorem applyReset_phase (s : State) : (applyReset s).phase = .idle := rfl
@[simp] theorem applyReset_kind (s : State) : (applyReset s).kind = .read := rfl
@[simp] theorem applyReset_txseq (s : State) : (applyReset s).txseq = 0 := rfl
@[simp] theorem applyReset_ntx (s : State) : (applyReset s).ntx = 8 := rfl
@[simp] theorem applyReset_i (s : State) : (applyReset s).i = 0 := rfl
@[simp] theorem applyReset_j (s : State) : (applyReset s).j = 0 := rfl
@[simp] theorem applyReset_rx (s : State) : (applyReset s).rx = 0 := rfl
@[simp] theorem applyReset_post (s : State) : (applyReset s).post = .none := rfl
@[simp] theorem applyReset_fld (s : State) : (applyReset s).fld = 0 := rfl
@[simp] theorem applyReset_result (s : State) : (applyReset s).result = 0 := rfl
@[simp] theorem applyReset_err (s : State) : (applyReset s).err = 0 := rfl
@[simp] theorem applyReset_busy (s : State) : (applyReset s).busy = false := rfl
@[simp] theorem applyReset_faulted (s : State) : (applyReset s).faulted = false := rfl
@[simp] theorem applyReset_trace (s : State) : (applyReset s).trace = s.trace ++ resetActions :=
  by
  simp [applyReset, resetActions, List.append_assoc]
@[simp] theorem applyReset_responses (s : State) : (applyReset s).responses = s.responses := rfl
@[simp] theorem applyReset_proc (s : State) : (applyReset s).proc = if s.busy ∨ s.err ≠ 0 then [] else s.proc := rfl
@[simp] theorem applyReset_todo (s : State) : (applyReset s).todo = s.todo := rfl
@[simp] theorem applyReset_procBegan (s : State) : (applyReset s).procBegan = if s.busy then s.responses.length else s.procBegan :=
  rfl
@[simp] theorem applyReset_samples (s : State) : (applyReset s).samples = s.samples := rfl
@[simp] theorem applyReset_lineMayFail (s : State) : (applyReset s).lineMayFail = s.lineMayFail := rfl
@[simp] theorem applyReset_reports (s : State) : (applyReset s).reports = s.reports := rfl
@[simp] theorem applyReset_draws (s : State) : (applyReset s).draws = s.draws := rfl
@[simp] theorem applyReset_resetPin (s : State) : (applyReset s).resetPin = false := rfl

end Sys2Proof.Machine
end

