-- ==== Sys2Proof/Laws/Ops.lean ====
section
/-! SUPPORT. What the shared operations can do, once each: the driver's report, a line action, a sample, the guard of the
FAULTED flag, and the answers. -/

namespace Sys2Proof.Machine

/-- A report changes nothing but the schedule of reports and the count of draws. -/
theorem driverReport_frame (s : State) :
    (driverReport s).2 = { s with reports := (driverReport s).2.reports, draws := (driverReport s).2.draws } := by
  unfold driverReport
  split
  · split <;> rfl
  · rfl

/-- Where `LINE_MAY_FAIL` is false no action fails. -/
theorem driverReport_of_cannot_fail {s : State} (h : s.lineMayFail = false) : driverReport s = (false, s) := by
  simp [driverReport, h]

theorem driverOk_of_cannot_fail {s : State} (n : Nat) (h : s.lineMayFail = false) : DriverOk n s := by
  intro h'; simp [h] at h'

theorem driverReport_of_ok {s : State} {n : Nat} (h : DriverOk (n + 1) s) :
    driverReport s = (false, s.dropReports 1) := by
  unfold driverReport State.dropReports
  split
  · rename_i hm
    obtain ⟨rest, hr⟩ := h hm
    simp [hr, List.replicate_succ]
  · rfl

theorem driverReport_of_fails {s : State} (h : DriverFails s) : driverReport s = (true, s.dropReports 1) := by
  obtain ⟨hm, rest, hr⟩ := h
  simp [driverReport, State.dropReports, hm, hr]

/-- The guarantee for the actions after the next one. -/
theorem DriverOk.drop {s t : State} {n : Nat} (h : DriverOk (n + 1) s) (hm : t.lineMayFail = s.lineMayFail)
    (hr : t.reports = (s.dropReports 1).reports) : DriverOk n t := by
  intro h'
  obtain ⟨rest, hs⟩ := h (hm ▸ h')
  refine ⟨rest, ?_⟩
  simp [hr, ← hm, h', hs, List.replicate_succ]

theorem DriverOk.mono {s : State} {m n : Nat} (h : DriverOk n s) (hle : m ≤ n) : DriverOk m s := by
  intro h'
  obtain ⟨rest, hs⟩ := h h'
  exact ⟨List.replicate (n - m) false ++ rest, by rw [hs, ← List.append_assoc, List.replicate_append_replicate,
    Nat.add_sub_cancel' hle]⟩

/-- A report that is not scheduled is the free value at the count of draws, read as if it were scheduled. -/
theorem driverReport_unscheduled {s : State} (hm : s.lineMayFail = true) (hr : s.reports = []) :
    driverReport { s with reports := [Config.driverFails s.draws], draws := s.draws + 1 } = driverReport s := by
  simp [driverReport, hm, hr]

/-- A line action either is done, and `k` follows, or fails; the report is read in both cases. -/
theorem act_cases (a : LineAction) (k : State → State) (s : State) :
    (∃ t, driverReport s = (false, t) ∧ act a k s = k (t.perform a)) ∨
      (s.lineMayFail = true ∧ ∃ t, driverReport s = (true, t) ∧ act a k s = t.lineFault) := by
  unfold act
  rcases h : driverReport s with ⟨b, t⟩
  cases b
  · exact .inl ⟨t, rfl, rfl⟩
  · refine .inr ⟨?_, t, rfl, rfl⟩
    by_contra hm
    simp [driverReport_of_cannot_fail (by simpa using hm)] at h

theorem act_of_ok {s : State} {n : Nat} (a : LineAction) (k : State → State) (h : DriverOk (n + 1) s) :
    act a k s = k ((s.dropReports 1).perform a) := by
  simp [act, driverReport_of_ok h]

theorem act_of_fails {s : State} (a : LineAction) (k : State → State) (h : DriverFails s) :
    act a k s = (s.dropReports 1).lineFault := by
  simp [act, driverReport_of_fails h]

theorem actRead_of_ok {s : State} {n : Nat} {l : Level} {ls : List Level} (k : Level → State → State)
    (h : DriverOk (n + 1) s) (hs : s.samples = l :: ls) :
    actRead k s = k l (({ s.dropReports 1 with samples := ls } : State).perform (.readLevel l)) := by
  simp [actRead, driverReport_of_ok h, drawLevel, hs]

theorem actRead_of_fails {s : State} (k : Level → State → State) (h : DriverFails s) :
    actRead k s = (s.dropReports 1).lineFault := by
  simp [actRead, driverReport_of_fails h]

/-- A draw of a level changes nothing but the schedule of levels and the count of draws. -/
theorem drawLevel_frame (s : State) :
    (drawLevel s).2 = { s with samples := (drawLevel s).2.samples, draws := (drawLevel s).2.draws } := by
  unfold drawLevel
  split <;> rfl

theorem actRead_cases (k : Level → State → State) (s : State) :
    (∃ t, driverReport s = (false, t) ∧
        actRead k s = k (drawLevel t).1 ((drawLevel t).2.perform (.readLevel (drawLevel t).1))) ∨
      (s.lineMayFail = true ∧ ∃ t, driverReport s = (true, t) ∧ actRead k s = t.lineFault) := by
  unfold actRead
  rcases h : driverReport s with ⟨b, t⟩
  cases b
  · exact .inl ⟨t, rfl, rfl⟩
  · refine .inr ⟨?_, t, rfl, rfl⟩
    by_contra hm
    simp [driverReport_of_cannot_fail (by simpa using hm)] at h

/-- A sample the driver lets pass is some level, and draws nothing else. -/
theorem actRead_ok {s : State} {n : Nat} (k : Level → State → State) (h : DriverOk (n + 1) s) : ∃ l m d,
    actRead k s = k l (State.perform (.readLevel l) { s.dropReports 1 with samples := m, draws := d }) := by
  unfold actRead
  rw [driverReport_of_ok h]
  exact ⟨_, _, _, by rw [← drawLevel_frame]⟩

theorem unlessFaulted_of_clear {s : State} (k : State → State) (h : s.faulted = false) : unlessFaulted k s = k s := by
  simp [unlessFaulted, h]

theorem unlessFaulted_of_faulted {s : State} (k : State → State) (h : s.faulted = true) :
    unlessFaulted k s = s.withError 4 := by
  simp only [unlessFaulted, h, if_true]
  rfl

theorem answer_eq_withAnswer (r : BitVec 16) (s : State) : s.answer r = s.withAnswer r := rfl

theorem raise_eq_withError (e : ErrorCode) (s : State) : s.raise e = s.withError e.code := rfl

/-- Every state after reset has the block's state of `State.reset`, whatever ran before. -/
theorem applyReset_eq (s : State) :
    applyReset s = { State.reset with
      trace := s.trace ++ resetActions
      responses := s.responses
      proc := if s.busy ∨ s.err ≠ 0 then [] else s.proc
      todo := s.todo
      procBegan := if s.busy then s.responses.length else s.procBegan
      samples := s.samples
      lineMayFail := s.lineMayFail
      reports := s.reports
      draws := s.draws } := by
  simp [applyReset, resetActions, State.perform, State.reset]

end Sys2Proof.Machine
end

