-- ==== Sys2Proof/Laws/Port.lean ====
section
/-! SUPPORT. What exec and the step can do: the meanings by family, the fetch of either instruction set, and the step by
the state it starts from. -/

namespace Sys2Proof.Machine

theorem exec_fget (f : TimeField) (s : State) : exec (Instr.fget f) s = .next (fieldRead f s) := by cases f <;> rfl

theorem exec_fset (f : TimeField) (v : Byte) (s : State) : exec (Instr.fset f v) s = .next (fieldWrite f v s) := by
  cases f <;> rfl

theorem exec_wireWrite (r : Register) (d : Byte) (s : State) :
    exec (Instr.wireWrite r d) s = .next (wireWrite r d s) := by cases r <;> rfl

theorem exec_wireRead (r : Register) (s : State) : exec (Instr.wireRead r) s = .next (wireRead r s) := by
  cases r <;> rfl

theorem mapAddress_eq_wireByte (r : Register) (dir : Direction) : mapAddress r dir = wireByte r dir := by
  cases r <;> cases dir <;> decide

/-- A property of every instruction, by family: the six commands of their own, the field reads and writes, and the wire
commands. -/
theorem Instr.byFamily {P : Instr → Prop} (rdreg : ∀ a, P (.rdreg a)) (wrreg : ∀ a d, P (.wrreg a d))
    (rev8 : ∀ x, P (.rev8 x)) (bcdenc : ∀ x, P (.bcdenc x))
    (bcddec : ∀ tens ones x, P (.bcddec tens ones x)) (mapaddr : ∀ r dir, P (.mapaddr r dir))
    (fget : ∀ f, P (Instr.fget f)) (fset : ∀ f v, P (Instr.fset f v))
    (wireWrite : ∀ r d, P (Instr.wireWrite r d)) (wireRead : ∀ r, P (Instr.wireRead r)) (i : Instr) : P i := by
  cases i with
  | rdreg a => exact rdreg a
  | wrreg a d => exact wrreg a d
  | rev8 x => exact rev8 x
  | bcdenc x => exact bcdenc x
  | bcddec tens ones x => exact bcddec tens ones x
  | mapaddr r dir => exact mapaddr r dir
  | fgetSec => exact fget .sec
  | fgetMin => exact fget .min
  | fgetHour => exact fget .hour
  | fgetDay => exact fget .day
  | fgetMonth => exact fget .month
  | fgetWday => exact fget .wday
  | fgetYear => exact fget .year
  | fsetSec v => exact fset .sec v
  | fsetMin v => exact fset .min v
  | fsetHour v => exact fset .hour v
  | fsetDay v => exact fset .day v
  | fsetMonth v => exact fset .month v
  | fsetWday v => exact fset .wday v
  | fsetYear v => exact fset .year v
  | wSecW d => exact wireWrite .sec d
  | wSecR => exact wireRead .sec
  | wMinW d => exact wireWrite .min d
  | wMinR => exact wireRead .min
  | wHourW d => exact wireWrite .hour d
  | wHourR => exact wireRead .hour
  | wDayW d => exact wireWrite .day d
  | wDayR => exact wireRead .day
  | wMonthW d => exact wireWrite .month d
  | wMonthR => exact wireRead .month
  | wWdayW d => exact wireWrite .wday d
  | wWdayR => exact wireRead .wday
  | wYearW d => exact wireWrite .year d
  | wYearR => exact wireRead .year
  | wWpW d => exact wireWrite .wp d
  | wWpR => exact wireRead .wp

/-- Every meaning is guarded by the FAULTED flag and always answers a next state (R155). -/
theorem exec_guarded (i : Instr) : ∃ k, ∀ s, exec i s = .next (unlessFaulted k s) := by
  refine Instr.byFamily (P := fun i => ∃ k, ∀ s, exec i s = .next (unlessFaulted k s)) ?_ ?_ ?_ ?_ ?_ ?_ ?_ ?_ ?_ ?_ i
  · exact fun a => ⟨_, fun _ => rfl⟩
  · exact fun a d => ⟨_, fun _ => rfl⟩
  · exact fun x => ⟨_, fun _ => rfl⟩
  · exact fun x => ⟨_, fun _ => rfl⟩
  · exact fun tens ones x => ⟨_, fun _ => rfl⟩
  · exact fun r dir => ⟨_, fun _ => rfl⟩
  · exact fun f => ⟨_, exec_fget f⟩
  · exact fun f v => ⟨_, exec_fset f v⟩
  · exact fun r d => ⟨_, exec_wireWrite r d⟩
  · exact fun r => ⟨_, exec_wireRead r⟩

theorem exec_of_faulted (i : Instr) {s : State} (hf : s.faulted = true) : exec i s = .next (s.withError 4) := by
  obtain ⟨k, hk⟩ := exec_guarded i
  rw [hk, unlessFaulted_of_faulted _ hf]

/-- A command word of any kind while FAULTED (R155). -/
theorem acceptWord_of_faulted (w : Word) {s : State} (hf : s.faulted = true) :
    acceptWord w s = .next (s.withError 4) := by
  unfold acceptWord
  split
  · exact exec_of_faulted _ hf
  · rw [unlessFaulted_of_faulted _ hf]

/-- What the wire decoder can answer: a write byte of the table with its data byte, or a read byte (R57, R104). -/
theorem decodeWire_cases {seq : BitVec 16} {i : Instr} (h : decodeWire seq = .ok i) :
    (∃ r d, i = Instr.wireWrite r d ∧ seq = d ++ mapAddress r .write) ∨
      (∃ r, i = Instr.wireRead r ∧ seq = 0#8 ++ mapAddress r .read) := by
  have hlt := seq.isLt
  simp only [decodeWire] at h
  split at h
  · cases h
  rename_i htop
  rw [not_not, field_eq_iff] at htop
  split at h <;> rename_i hrw <;> rw [getLsbD_eq_decide, decide_eq_true_eq] at hrw
  · split at h <;> cases h
    rename_i hd
    rw [field_eq_iff] at hd
    refine .inr ⟨_, rfl, BitVec.eq_of_toNat_eq ?_⟩
    rw [toNat_append_add, mapAddress_eq_wireByte, toNat_wireByte, Register.code_ofCode, toNat_field]
    simp [Direction.code] at *
    omega
  · cases h
    refine .inl ⟨_, _, rfl, BitVec.eq_of_toNat_eq ?_⟩
    rw [toNat_append_add, mapAddress_eq_wireByte, toNat_wireByte, Register.code_ofCode, toNat_field, toNat_field]
    simp [Direction.code] at *
    omega

/-- At B_CLK the transmit latch already holds what the wire command it is fetched from would load. -/
theorem load_of_bClk {s : State} (hi : Inv s) (hp : s.phase = .bClk) {a d : Byte} (hseq : s.txseq = d ++ a) :
    s.load s.kind a d = s := by
  have hrx := hi.rxLatch
  have hti := hi.txCount
  have htj := hi.rxCount
  simp only [hp, rxLatchFits, txCountFits, rxCountFits, beq_iff_eq] at hrx hti htj
  have hb : s.busy = true := by rw [hi.busy, hp]; rfl
  simp only [State.load, ← hi.ntx, ← hseq]
  rw [← hb, ← hrx, ← hti, ← htj, ← hp]

/-- The wire command fetched at B_CLK does what the sequencer does there. -/
theorem engineStep_eq_seqStep {s : State} (hi : Inv s) : engineStep s = seqStep s := by
  unfold engineStep
  split
  · rename_i i hp hf
    have hfl : s.faulted = false := by
      by_contra h
      have := hi.faulted (by simpa using h)
      simp [hp] at this
    simp only [fetchWire] at hf
    split at hf
    · rename_i hpair
      have hd : decodeWire s.txseq = .ok i := by
        cases h : decodeWire s.txseq with
        | ok j => rw [h] at hf; simpa [Except.toOption] using hf
        | error e => rw [h] at hf; simp [Except.toOption] at hf
      rcases decodeWire_cases hd with ⟨r, d, rfl, hseq⟩ | ⟨r, rfl, hseq⟩
      · have hk : s.kind = .write := by
          have h0 := hpair.2
          rw [hseq, txseq_low _ _ (by omega)] at h0
          revert h0
          cases s.kind <;> cases r <;> decide
        have hl := load_of_bClk hi hp hseq
        rw [hk] at hl
        rw [exec_wireWrite, wireWrite, openTransaction, unlessFaulted_of_clear _ hfl, hl]
        simp [seqStep, hp]
      · have hk : s.kind = .read := by
          have h0 := hpair.2
          rw [hseq, txseq_low _ _ (by omega)] at h0
          revert h0
          cases s.kind <;> cases r <;> decide
        have hl : s.load .read (mapAddress r .read) 0 = s := hk ▸ load_of_bClk hi hp hseq
        rw [exec_wireRead, wireRead, openTransaction, unlessFaulted_of_clear _ hfl, hl]
        simp [seqStep, hp]
    · cases hf
  · rfl

theorem fetchWire_write {s : State} {r : Register} {d : Byte} (hk : s.kind = .write) (hn : s.ntx = 16)
    (ht : s.txseq = d ++ wireByte r .write) : fetchWire s = some (Instr.wireWrite r d) := by
  rw [fetchWire, ht, decode_wireWrite, txseq_low _ _ (by omega), hk, hn, if_pos]
  · rfl
  · cases r <;> decide

theorem fetchWire_read {s : State} {r : Register} (hk : s.kind = .read) (hn : s.ntx = 8)
    (ht : s.txseq = 0#8 ++ wireByte r .read) : fetchWire s = some (Instr.wireRead r) := by
  rw [fetchWire, ht, decode_wireRead, txseq_low _ _ (by omega), hk, hn, if_pos]
  · rfl
  · cases r <;> decide

theorem step_of_fetchWire {s : State} {i : Instr} (hr : s.resetPin = false) (hp : s.phase = .bClk)
    (h : fetchWire s = some i) : step s = exec i s := by
  simp [step, advance, hr, engineStep, hp, h]

/-- The step, by where it starts. -/
theorem step_of_reset {s : State} (h : s.resetPin = true) : step s = .next (applyReset s) := by
  simp [step, advance, h]

theorem step_of_idle {s : State} (h : s.resetPin = false) (hp : s.phase = .idle) : step s = hostStep s := by
  simp [step, advance, h, hp]

theorem step_of_running {s : State} (hi : Inv s) (h : s.resetPin = false) (hp : s.phase ≠ .idle) :
    step s = seqStep s := by
  simp [step, advance, h, hp, engineStep_eq_seqStep hi]

end Sys2Proof.Machine
end

