-- ==== Sys2Proof/Laws/Codec.lean ====
section
/-! SUPPORT. The codec's functions, once each: the digits `enc` packs, the bits a slice reads, and how large a decode is. -/

namespace Sys2Proof.Machine

/-- `enc` packs the two digits (R93). -/
theorem enc_eq_digits : ∀ v : Byte, v.toNat ≤ 99 → enc v = BitVec.ofNat 8 (v.toNat / 10 * 16 + v.toNat % 10) := by
  decide

/-- `enc` as RESULT shows it (R93, R99). -/
theorem toNat_zext16_enc : ∀ v : Byte, v.toNat ≤ 99 →
    (zext16 (enc v)).toNat = v.toNat / 10 * 16 + v.toNat % 10 := by decide

/-- A slice is the bits from `hi` down to `lo` (R11). -/
theorem slice_eq_extract (x : Byte) (r : BitRange) : slice x r = (x.extractLsb r.hi.toNat r.lo.toNat).toNat := by
  simp [slice, BitVec.extractLsb_toNat, Nat.shiftRight_eq_div_pow]

theorem slice_le (x : Byte) (r : BitRange) : slice x r ≤ 255 :=
  (Nat.mod_le _ _).trans ((Nat.div_le_self _ _).trans (by omega))

/-- The largest decode fits RESULT (R101). -/
theorem dec_le (tens : Option BitRange) (ones : BitRange) (x : Byte) : dec tens ones x ≤ 2805 := by
  have h1 := slice_le x ones
  cases tens with
  | none => simp only [dec]; omega
  | some r =>
    have h2 := slice_le x r
    simp only [dec]
    omega

theorem decodeField_le (f : TimeField) (x : Byte) : decodeField f x ≤ 2805 := dec_le _ _ _

/-- What FSET accepts is at most 99, so `enc` packs it (R124, R125). -/
theorem fsetAccepts_le {f : TimeField} {v : Byte} (h : fsetAccepts f v = true) : v.toNat ≤ 99 := by
  cases f <;> simp [fsetAccepts] at h <;> omega

end Sys2Proof.Machine
end

