-- ==== Sys2Proof/Laws/Sequencer.lean ====
section
/-! SUPPORT. The sequencer's transitions, one lemma per case of R81, and what a run of steps is. -/

namespace Sys2Proof.Machine

theorem bitSent_more {s : State} (h : s.i + 1 < s.ntx) : bitSent s = { s with i := s.i + 1, phase := .txD } := by
  simp only [bitSent, if_pos h]

theorem bitSent_last_write {s : State} (h : s.i + 1 = s.ntx) (hk : s.kind = .write) :
    bitSent s = { s with i := s.i + 1, phase := .eCe } := by
  simp only [bitSent, h, hk]
  rw [if_neg (by bv_omega)]

theorem bitSent_last_read {s : State} (h : s.i + 1 = s.ntx) (hk : s.kind = .read) :
    bitSent s = { s with i := s.i + 1, phase := .turn } := by
  simp only [bitSent, h, hk]
  rw [if_neg (by bv_omega)]

theorem bitReceived_more {s : State} (h : s.j + 1 < 8) : bitReceived s = { s with j := s.j + 1, phase := .rxL } := by
  simp only [bitReceived, if_pos h]

theorem bitReceived_last {s : State} (h : s.j + 1 = 8) : bitReceived s = { s with j := s.j + 1, phase := .eCe } := by
  simp only [bitReceived, h]
  rfl

theorem afterLastClock_read {s : State} (hk : s.kind = .read) : afterLastClock s = s.toPhase .eDir := by
  simp only [afterLastClock, hk]

theorem afterLastClock_write {s : State} (hk : s.kind = .write) : afterLastClock s = s.toPhase .done := by
  simp only [afterLastClock, hk]

/-! The transition of each phase (R81). -/

theorem seqStep_bClk {s : State} (h : s.phase = .bClk) :
    seqStep s = .next (act (.setLevel .clock .low) (State.toPhase .bCe) s) := by
  simp only [seqStep, h]

theorem seqStep_bCe {s : State} (h : s.phase = .bCe) :
    seqStep s = .next (act (.setLevel .ce .high) (State.toPhase .txD) s) := by
  simp only [seqStep, h]

theorem seqStep_txH {s : State} (h : s.phase = .txH) :
    seqStep s = .next (act (.setLevel .clock .high) (State.toPhase .txL) s) := by
  simp only [seqStep, h]

theorem seqStep_txL {s : State} (h : s.phase = .txL) :
    seqStep s = .next (act (.setLevel .clock .low) bitSent s) := by
  simp only [seqStep, h]

theorem seqStep_turn {s : State} (h : s.phase = .turn) :
    seqStep s = .next (act (.setDir .input) (State.toPhase .rxL) s) := by
  simp only [seqStep, h]

theorem seqStep_rxL {s : State} (h : s.phase = .rxL) :
    seqStep s = .next (act (.setLevel .clock .low) (State.toPhase .rxS) s) := by
  simp only [seqStep, h]

theorem seqStep_rxH {s : State} (h : s.phase = .rxH) :
    seqStep s = .next (act (.setLevel .clock .high) bitReceived s) := by
  simp only [seqStep, h]

theorem seqStep_eCe {s : State} (h : s.phase = .eCe) :
    seqStep s = .next (act (.setLevel .ce .low) (State.toPhase .eClk) s) := by
  simp only [seqStep, h]

theorem seqStep_eClk {s : State} (h : s.phase = .eClk) :
    seqStep s = .next (act (.setLevel .clock .low) afterLastClock s) := by
  simp only [seqStep, h]

theorem seqStep_eDir {s : State} (h : s.phase = .eDir) :
    seqStep s = .next (act (.setDir .output) (State.toPhase .done) s) := by
  simp only [seqStep, h]

theorem seqStep_txD {s : State} (h : s.phase = .txD) (hi : s.i.toNat < 16) :
    seqStep s = .next (act (.setLevel .data (lvl (s.txseq.getLsbD s.i.toNat))) (State.toPhase .txH) s) := by
  simp only [seqStep, h, if_pos hi]

theorem seqStep_rxS {s : State} (h : s.phase = .rxS) (hj : s.j.toNat < 8) :
    seqStep s = .next (actRead storeSample s) := by
  simp only [seqStep, h, if_pos hj]

theorem seqStep_done {s : State} (h : s.phase = .done) : seqStep s = .next (complete s) := by
  simp only [seqStep, h]

/-- Under the invariant a running transaction is not faulted. -/
theorem Inv.not_faulted {s : State} (hi : Inv s) (hp : s.phase ≠ .idle) : s.faulted = false := by
  by_contra h
  exact hp (hi.faulted (by simpa using h))

/-- Under the invariant NTX is 8 or 16. -/
theorem Inv.ntx_le {s : State} (hi : Inv s) : s.ntx.toNat ≤ 16 := by
  rw [hi.ntx]
  cases s.kind <;> decide

/-- Runs compose. -/
theorem steps_add {m n : Nat} {s t : State} (h : steps m s = .next t) : steps (m + n) s = steps n t := by
  induction m generalizing s with
  | zero => cases h; rw [Nat.zero_add]
  | succ m ih =>
    rw [Nat.succ_add]
    simp only [steps] at h ⊢
    cases hs : step s with
    | next u => rw [hs] at h; exact ih h
    | fault r => rw [hs] at h; cases h
    | refused r => rw [hs] at h; cases h

theorem steps_one {s t : State} (h : step s = .next t) : steps 1 s = .next t := by
  simp only [steps, h]

end Sys2Proof.Machine
end

