-- ==== Sys2Proof/Laws/Invariant.lean ====
section
/-! SUPPORT. The invariant of the block, piece by piece: each transition of the sequencer keeps it, so do the host
commands and the host's own acts, and reset establishes it. -/

namespace Sys2Proof.Machine

/-- A report read changes nothing but the schedule of reports and the count of draws. -/
theorem driverReport_eq {s t : State} {b : Bool} (h : driverReport s = (b, t)) :
    ∃ r d, t = { s with reports := r, draws := d } := by
  have := driverReport_frame s; rw [h] at this; exact ⟨_, _, this⟩

/-- A line fault keeps the invariant, wherever it happens. -/
theorem inv_lineFault {s : State} (hi : Inv s) (r : List Bool) (d : Nat) :
    Inv (State.lineFault { s with reports := r, draws := d }) := by
  have h1 := hi.txCount; have h2 := hi.rxCount; have h3 := hi.ntx
  have hn : s.ntx.toNat ≤ 16 := by rw [h3]; cases s.kind <;> decide
  constructor <;>
      simp [txCountFits, rxCountFits, rxLatchFits, kindFits, clkAt, ceAt, dirAt, dataOutFits, ErrorCode.code, hi.ntx]
  · unfold txCountFits at h1
    cases h : s.phase <;> simp [h] at h1 <;> bv_omega
  · unfold rxCountFits at h2
    cases h : s.phase <;> cases hk : s.kind <;> simp [h, hk] at h2 <;> bv_omega

/-- A line action keeps the invariant if what follows it when it is done does. -/
theorem inv_act {s : State} (hi : Inv s) (hp : s.phase ≠ .idle) (a : LineAction) (k : State → State)
    (hk : ∀ r d, Inv (k (State.perform a { s with reports := r, draws := d }))) : Inv (act a k s) := by
  rcases act_cases a k s with ⟨t, ht, he⟩ | ⟨_, t, ht, he⟩ <;> obtain ⟨r, d, rfl⟩ := driverReport_eq ht <;> rw [he]
  · exact hk r d
  · exact inv_lineFault hi r d

/-- A sample keeps the invariant if what follows it, whatever the level, does. -/
theorem inv_actRead {s : State} (hi : Inv s) (hp : s.phase ≠ .idle) (k : Level → State → State)
    (hk : ∀ l r d m, Inv (k l (State.perform (.readLevel l) { s with reports := r, draws := d, samples := m })))
        : Inv (actRead k s) := by
  rcases actRead_cases k s with ⟨t, ht, he⟩ | ⟨_, t, ht, he⟩ <;> obtain ⟨r, d, rfl⟩ := driverReport_eq ht <;> rw [he]
  · rw [drawLevel_frame]; exact hk _ _ _ _
  · exact inv_lineFault hi r d

/-- Under the invariant the sequencer always steps, and keeps it (R81). -/
theorem seqStep_inv {s : State} (hi : Inv s) (hp : s.phase ≠ .idle) : ∃ t, seqStep s = .next t ∧ Inv t := by
  have hf := hi.not_faulted hp
  obtain ⟨h9, -, h10, h3, h1, h2, h4, h5, h6, h11, h12, h13, h8⟩ := id hi
  replace h11 := h11 hf; replace h12 := h12 hf; replace h13 := h13 hf; replace h6 := h6 hp
  have hn := hi.ntx_le
  cases h : s.phase
  case idle => exact absurd h hp
  all_goals simp only [txCountFits, rxCountFits, rxLatchFits, kindFits, clkAt, ceAt, dirAt, dataOutFits, postFits,
      h] at h1 h2 h4 h5 h8 h9 h11 h12 h13
  all_goals simp at h1 h2 h4 h5 h8 h9 h11 h12 h13
  case bClk =>
    rw [seqStep_bClk h]; refine ⟨_, rfl, inv_act hi hp _ _ fun r d => ?_⟩
    constructor <;>
        simp [txCountFits, rxCountFits, rxLatchFits, kindFits, clkAt, ceAt, dirAt, dataOutFits, postFits, *]
    exact h6
  case bCe =>
    rw [seqStep_bCe h]; refine ⟨_, rfl, inv_act hi hp _ _ fun r d => ?_⟩
    constructor <;>
        simp [txCountFits, rxCountFits, rxLatchFits, kindFits, clkAt, ceAt, dirAt, dataOutFits, postFits, *]
    · cases s.kind <;> simp [ntxOf]
    · exact h6
  case txD =>
    have hlt : s.i.toNat < 16 := by bv_omega
    rw [seqStep_txD h hlt]; refine ⟨_, rfl, inv_act hi hp _ _ fun r d => ?_⟩
    constructor <;>
        simp [txCountFits, rxCountFits, rxLatchFits, kindFits, clkAt, ceAt, dirAt, dataOutFits, postFits, *]
    · rwa [← h3]
    · exact h6
  case txH =>
    rw [seqStep_txH h]; refine ⟨_, rfl, inv_act hi hp _ _ fun r d => ?_⟩
    constructor <;>
        simp [txCountFits, rxCountFits, rxLatchFits, kindFits, clkAt, ceAt, dirAt, dataOutFits, postFits, *]
    · rwa [← h3]
    · exact h6
  case txL =>
    rw [seqStep_txL h]; refine ⟨_, rfl, inv_act hi hp _ _ fun r d => ?_⟩
    by_cases hlt : s.i + 1 < s.ntx
    · rw [bitSent_more (by simpa using hlt)]
      constructor <;>
          simp [txCountFits, rxCountFits, rxLatchFits, kindFits, clkAt, ceAt, dirAt, dataOutFits, postFits, *]
      · rwa [← h3]
      · exact h6
    · have he : s.i + 1 = s.ntx := by bv_omega
      have hl : s.ntx.toNat - 1 = s.i.toNat := by bv_omega
      cases hk : s.kind
      · rw [bitSent_last_read (by simpa using he) (by simpa using hk)]
        simp only [BitVec.ofNat_eq_ofNat] at he
        constructor <;>
            simp [txCountFits, rxCountFits, rxLatchFits, kindFits, clkAt, ceAt, dirAt, dataOutFits, postFits, *]
        · simpa [postFits, hk] using h6
        · rw [← hl, h3, hk]
      · rw [bitSent_last_write (by simpa using he) (by simpa using hk)]
        simp only [BitVec.ofNat_eq_ofNat] at he
        constructor <;>
            simp [txCountFits, rxCountFits, rxLatchFits, kindFits, clkAt, ceAt, dirAt, dataOutFits, postFits, *]
        · simpa [postFits, hk] using h6
        · rw [← hl, h3, hk]
  case turn =>
    rw [seqStep_turn h]; refine ⟨_, rfl, inv_act hi hp _ _ fun r d => ?_⟩
    constructor <;>
        simp [txCountFits, rxCountFits, rxLatchFits, kindFits, clkAt, ceAt, dirAt, dataOutFits, postFits, *]
    simpa [postFits, h5] using h6
  case rxL =>
    rw [seqStep_rxL h]; refine ⟨_, rfl, inv_act hi hp _ _ fun r d => ?_⟩
    constructor <;>
        simp [txCountFits, rxCountFits, rxLatchFits, kindFits, clkAt, ceAt, dirAt, dataOutFits, postFits, *]
    simpa [postFits, h5] using h6
  case rxS =>
    have hlt : s.j.toNat < 8 := by bv_omega
    rw [seqStep_rxS h hlt]; refine ⟨_, rfl, inv_actRead hi hp _ fun l r d m => ?_⟩
    constructor <;>
        simp [txCountFits, rxCountFits, rxLatchFits, kindFits, clkAt, ceAt, dirAt, dataOutFits, postFits,
        storeSample, *]
    simpa [postFits, h5] using h6
  case rxH =>
    rw [seqStep_rxH h]; refine ⟨_, rfl, inv_act hi hp _ _ fun r d => ?_⟩
    by_cases hlt : s.j + 1 < 8
    · rw [bitReceived_more (by simpa using hlt)]
      constructor <;>
          simp [txCountFits, rxCountFits, rxLatchFits, kindFits, clkAt, ceAt, dirAt, dataOutFits, postFits, *]
      · simpa using hlt
      · simpa [postFits, h5] using h6
      · intro; bv_omega
    · have he : s.j + 1 = 8 := by bv_omega
      rw [bitReceived_last (by simpa using he)]
      constructor <;>
          simp [txCountFits, rxCountFits, rxLatchFits, kindFits, clkAt, ceAt, dirAt, dataOutFits, postFits, *]
      · simpa using he
      · simpa [postFits, h5] using h6
  case eCe =>
    rw [seqStep_eCe h]; refine ⟨_, rfl, inv_act hi hp _ _ fun r d => ?_⟩
    cases hk : s.kind <;> simp [hk] at h2 h11 h13 h6 <;> constructor <;>
        simp [txCountFits, rxCountFits, rxLatchFits, kindFits, clkAt, ceAt, dirAt, dataOutFits, postFits, *] <;>
        simpa [postFits, hk] using h6
  case eClk =>
    rw [seqStep_eClk h]; refine ⟨_, rfl, inv_act hi hp _ _ fun r d => ?_⟩
    cases hk : s.kind <;> simp [hk] at h2 h11 h13 h6
    · rw [afterLastClock_read (by simpa using hk)]
      constructor <;>
          simp [txCountFits, rxCountFits, rxLatchFits, kindFits, clkAt, ceAt, dirAt, dataOutFits, postFits,
          *] ; simpa [postFits, hk] using h6
    · rw [afterLastClock_write (by simpa using hk)]
      constructor <;>
          simp [txCountFits, rxCountFits, rxLatchFits, kindFits, clkAt, ceAt, dirAt, dataOutFits, postFits,
          *] ; simpa [postFits, hk] using h6
  case eDir =>
    rw [seqStep_eDir h]; refine ⟨_, rfl, inv_act hi hp _ _ fun r d => ?_⟩
    simp [h5] at h2
    constructor <;>
        simp [txCountFits, rxCountFits, rxLatchFits, kindFits, clkAt, ceAt, dirAt, dataOutFits, postFits, *]
    simpa [postFits, h5] using h6
  case done =>
    rw [seqStep_done h]; refine ⟨_, rfl, ?_⟩
    have key (r : BitVec 16) : Inv (s.finish r) := by
      constructor <;>
          simp [txCountFits, rxCountFits, rxLatchFits, kindFits, clkAt, ceAt, dirAt, dataOutFits, postFits, *]
      · rw [← h3]; exact hn
      · cases hk : s.kind <;> simp [hk] at h2 <;> simp [h2]
    unfold complete; split <;> exact key _

/-- Every instruction answers a next state. -/
theorem exec_total (i : Instr) (s : State) : ∃ t, exec i s = .next t := by
  obtain ⟨k, hk⟩ := exec_guarded i; exact ⟨_, hk s⟩

/-- In IDLE the invariant does not depend on the response, the draws or the host. -/
theorem inv_of_idle_same {s t : State} (hi : Inv s) (hp : s.phase = .idle)
    (h : t = { s with
      result := t.result, err := t.err, responses := t.responses, draws := t.draws, proc := t.proc, todo := t.todo
      procBegan := t.procBegan })
    (he : t.err.toNat ≤ 4) : Inv t := by
  obtain ⟨h9, hfa, h10, h3, h1, h2, h4, h5, h6, h11, h12, h13, h8⟩ := hi
  rw [h]
  constructor <;>
      simp [txCountFits, rxCountFits, rxLatchFits, kindFits, clkAt, ceAt, dirAt, dataOutFits, hp] at * <;> assumption

/-- Acceptance keeps the invariant (R75). -/
theorem inv_accept {s : State} (hi : Inv s) (hp : s.phase = .idle) (hf : s.faulted = false) (k : Kind) (a d : Byte)
    (p : Post) (hpost : postFits { s with post := p, kind := k } = true) : Inv (s.accept k a d p) := by
  obtain ⟨h9, hfa, h10, h3, h1, h2, h4, h5, h6, h11, h12, h13, h8⟩ := hi
  constructor <;> simp [txCountFits, rxCountFits, rxLatchFits, kindFits, clkAt, ceAt, dirAt, dataOutFits, hp] at *
  · exact hf
  · exact h10
  · simpa [postFits] using hpost
  · exact h11
  · exact h12
  · exact h13

/-- The invariant does not depend on FLD. -/
theorem Inv.fld {s : State} (hi : Inv s) (f) : Inv { s with fld := f } := by
  obtain ⟨h9, hfa, h10, h3, h1, h2, h4, h5, h6, h11, h12, h13, h8⟩ := hi
  constructor <;> assumption

/-- An error answered in IDLE keeps the invariant. -/
theorem withError_inv {s : State} (hi : Inv s) (hp : s.phase = .idle) (e : BitVec 3) (he : e.toNat ≤ 4) :
    Inv (s.withError e) := by
  have hb := hi.busy
  simp [hp] at hb
  refine inv_of_idle_same hi hp ?_ he
  simp [State.withError, ← hb, ← hp]

/-- A host command in IDLE keeps the invariant. -/
theorem exec_inv {s t : State} {i : Instr} (hi : Inv s) (hp : s.phase = .idle) (hh : ∃ w, encode i = .host w)
    (h : exec i s = .next t) : Inv t := by
  cases hf : s.faulted
  case true =>
    obtain ⟨k, hk⟩ := exec_guarded i
    rw [hk, unlessFaulted_of_faulted _ hf] at h
    cases h
    exact withError_inv hi hp 4 (by decide)
  have ans (r) : Inv (s.withAnswer r) := inv_of_idle_same hi hp rfl (by simp [State.withAnswer])
  revert hh h
  refine Instr.byFamily (P := fun i => (∃ w, encode i = .host w) → exec i s = .next t → Inv t)
      ?_ ?_ ?_ ?_ ?_ ?_ ?_ ?_ ?_ ?_ i
  · intro a _ h; simp only [exec, execRdreg, unlessFaulted_of_clear _ hf] at h; cases h
    exact inv_accept hi hp hf _ _ _ _ (by simp [postFits])
  · intro a d _ h; simp only [exec, execWrreg, unlessFaulted_of_clear _ hf] at h; cases h
    exact inv_accept hi hp hf _ _ _ _ (by simp [postFits])
  · intro a _ h; simp only [exec, execRev8, unlessFaulted_of_clear _ hf] at h; cases h; exact ans _
  · intro a _ h; simp only [exec, execBcdenc, unlessFaulted_of_clear _ hf] at h; cases h
    unfold bcdenc; split
    · exact ans _
    · exact inv_of_idle_same (t := { s with draws := s.draws + 1 }.withAnswer _) hi hp rfl (by simp [State.withAnswer])
  · intro a b c _ h; simp only [exec, execBcddec, unlessFaulted_of_clear _ hf] at h; cases h; exact ans _
  · intro a b _ h; simp only [exec, execMapaddr, unlessFaulted_of_clear _ hf] at h; cases h; exact ans _
  · intro f _ h; rw [exec_fget, fieldRead, unlessFaulted_of_clear _ hf] at h; cases h
    exact (inv_accept hi hp hf .read _ _ (.dec f) rfl).fld _
  · intro f v _ h; rw [exec_fset, fieldWrite, unlessFaulted_of_clear _ hf] at h; cases h
    split
    · exact (inv_accept hi hp hf .write _ _ .discard rfl).fld _
    · exact withError_inv hi hp 1 (by decide)
  · rintro r d ⟨w, hw⟩; rw [encode_wireWrite] at hw; cases hw
  · rintro r ⟨w, hw⟩; rw [encode_wireRead] at hw; cases hw

/-- A command word decodes to a host command. -/
theorem decode_encodes_host {w : Word} {i : Instr} (h : decode w = .ok i) : ∃ w, encode i = .host w := by
  unfold decode at h
  repeat' split at h
  all_goals first | cases h | skip
  all_goals first | exact ⟨_, rfl⟩ | skip
  · unfold decodeBcddec at h
    simp only at h
    repeat' split at h
    all_goals first | cases h | skip
    all_goals exact ⟨_, rfl⟩
  · exact ⟨_, encode_fget _⟩
  · exact ⟨_, encode_fset _ _⟩

/-- The invariant does not depend on the host. -/
theorem Inv.host {s : State} (hi : Inv s) (a b c) : Inv { s with proc := a, todo := b, procBegan := c } := by
  obtain ⟨h9, hfa, h10, h3, h1, h2, h4, h5, h6, h11, h12, h13, h8⟩ := hi
  constructor <;> assumption

/-- Issuing a word changes the host alone. -/
theorem nextWord_frame {s u : State} {w : Word} (h : nextWord s = some (w, u)) :
    u = { s with proc := u.proc, todo := u.todo, procBegan := u.procBegan } := by
  unfold nextWord at h
  repeat' split at h
  all_goals cases h <;> rfl

/-- All a step in IDLE can do: wait, stop a procedure, or take a word. -/
theorem hostStep_cases {s t : State} (h : hostStep s = .next t) :
   t = s ∨ t = { s with proc := [] } ∨ ∃ w u, nextWord s = some (w, u) ∧ ((∃ i, decode w = .ok i ∧
       exec i u = .next t) ∨ ((∃ e, decode w = .error e) ∧ t = unlessFaulted (State.raise .illegalCommand) u)) := by
  unfold hostStep at h
  split at h
  · cases h; exact .inl rfl
  split at h
  · cases h; exact .inr (.inl rfl)
  split at h
  · rename_i w u hw
    unfold acceptWord at h
    split at h
    · exact .inr (.inr ⟨w, u, hw, .inl ⟨_, by assumption, h⟩⟩)
    · cases h; exact .inr (.inr ⟨w, u, hw, .inr ⟨⟨_, by assumption⟩, rfl⟩⟩)
  · cases h; exact .inl rfl

/-- A step in IDLE always answers. -/
theorem hostStep_total (s : State) : ∃ t, hostStep s = .next t := by
  unfold hostStep
  repeat' split
  · exact ⟨_, rfl⟩
  · exact ⟨_, rfl⟩
  · unfold acceptWord; split
    · exact exec_total _ _
    · exact ⟨_, rfl⟩
  · exact ⟨_, rfl⟩

/-- Reset establishes the invariant (R35). -/
theorem applyReset_inv (s : State) : Inv (applyReset s) := by
  constructor <;> simp [txCountFits, rxCountFits, rxLatchFits, kindFits, clkAt, ceAt, dirAt, dataOutFits, ntxOf]

/-- The answer to an illegal word keeps the invariant. -/
theorem illegalCommand_inv {s : State} (hi : Inv s) (hp : s.phase = .idle)
    : Inv (unlessFaulted (State.raise .illegalCommand) s) := by
  cases hf : s.faulted
  · rw [unlessFaulted_of_clear _ hf]; exact withError_inv hi hp 2 (by decide)
  · rw [unlessFaulted_of_faulted _ hf]; exact withError_inv hi hp 4 (by decide)

/-- The invariant does not depend on what the other agents present. -/
theorem Inv.outside {s t : State} (hi : Inv s) (h : OutsideAct s t) : Inv t := by
  obtain ⟨h9, hfa, h10, h3, h1, h2, h4, h5, h6, h11, h12, h13, h8⟩ := hi
  rw [h]; constructor <;> assumption

/-- A host command does no line action, and gives one response or none (R27, R75). -/
theorem exec_host_lines {s t : State} {i : Instr} (hh : ∃ w, encode i = .host w) (h : exec i s = .next t) : t.trace
    = s.trace ∧ t.clk = s.clk ∧ t.ce = s.ce ∧ t.dataDir = s.dataDir ∧ t.dataOut = s.dataOut ∧
   ((t.responses = s.responses ∧ t.result = s.result ∧ t.err = s.err) ∨
    (t.responses = s.responses ++ [⟨t.result, t.err⟩] ∧ t.phase = (if t.err = 0 then s.phase else .idle) ∧ t.busy =
      (if t.err = 0 then s.busy else false) )) := by
  revert hh h
  refine Instr.byFamily (P := fun i => (∃ w, encode i = .host w) → exec i s = .next t → _) ?_ ?_ ?_ ?_ ?_ ?_ ?_ ?_
    ?_ ?_ i
  · intro a _ h; cases h; cases hf : s.faulted <;> simp [unlessFaulted, hf, ErrorCode.code]
  · intro a b _ h; cases h; cases hf : s.faulted <;> simp [unlessFaulted, hf, ErrorCode.code]
  · intro a _ h; cases h; cases hf : s.faulted <;> simp [unlessFaulted, hf, ErrorCode.code]
  · intro a _ h; cases h; cases hf : s.faulted <;> simp [unlessFaulted, hf, ErrorCode.code, bcdenc]; split <;> simp
    [drawByte, ErrorCode.code]
  · intro a b c _ h; cases h; cases hf : s.faulted <;> simp [unlessFaulted, hf, ErrorCode.code]
  · intro a b _ h; cases h; cases hf : s.faulted <;> simp [unlessFaulted, hf, ErrorCode.code]
  · intro a _ h; rw [exec_fget] at h; cases h; cases hf : s.faulted <;> simp
    [unlessFaulted, hf, ErrorCode.code, fieldRead]
  · intro a b _ h; rw [exec_fset] at h; cases h; cases hf : s.faulted <;> simp
    [unlessFaulted, hf, ErrorCode.code, fieldWrite]; split <;> simp [ErrorCode.code]
  · rintro r d ⟨w, hw⟩; rw [encode_wireWrite] at hw; cases hw
  · rintro r ⟨w, hw⟩; rw [encode_wireRead] at hw; cases hw

/-- A step in IDLE does no line action, and gives one response or none. -/
theorem hostStep_lines {s t : State} (hb : s.phase = .idle) (h : hostStep s = .next t) : t.trace = s.trace ∧ t.clk =
    s.clk ∧ t.ce = s.ce ∧ t.dataDir = s.dataDir ∧ t.dataOut = s.dataOut ∧
   ((t.responses = s.responses ∧ t.result = s.result ∧ t.err = s.err) ∨
    (t.responses = s.responses ++ [⟨t.result, t.err⟩] ∧ t.phase = .idle ∧ (s.busy = false → t.busy = false))) := by
  rcases hostStep_cases h with rfl | rfl | ⟨w, u, hw, ⟨i, hd, he⟩ | ⟨-, rfl⟩⟩
  · simp
  · simp
  · have hu := nextWord_frame hw
    obtain ⟨h1, h2, h3, h4, h5, h6⟩ := exec_host_lines (decode_encodes_host hd) he
    rw [hu] at h1 h2 h3 h4 h5 h6
    refine ⟨h1, h2, h3, h4, h5, h6.imp id fun ⟨a, b, c⟩ => ⟨a, ?_, fun hs => ?_⟩⟩
    · simp [b, hb]
    · simp [c, hs]
  · have hu := nextWord_frame hw
    rw [hu]
    cases hf : s.faulted <;> simp [unlessFaulted, hf]

end Sys2Proof.Machine
end

