-- ==== Sys2Proof/Laws/Host.lean ====
section
/-! SUPPORT. What a procedure reports, from the responses its commands gave. -/

namespace Sys2Proof.Machine

/-- The responses given since the procedure began are its own. -/
theorem procResponses_eq {s : State} {before own : List Response} (hr : s.responses = before ++ own)
    (hb : s.procBegan = before.length) : s.procResponses = own := by
  rw [State.procResponses, hr, hb, List.drop_left]

/-- A procedure whose commands gave no error, the last of which has completed, reports their RESULTs. -/
theorem procedureReport_done {s : State} {own : List Response} (ho : s.procResponses = own) (hne : own ≠ [])
    (he : ∀ r ∈ own, r.err = 0) (hb : s.busy = false) (hp : s.proc = []) :
    procedureReport s = some (.ok (own.map (·.result))) := by
  have hf : own.find? (fun r => r.err != 0) = none := by simpa using he
  simp only [procedureReport, ho, hf, hb, hp, hne]
  simp

/-- A procedure reports the first error its commands gave. -/
theorem procedureReport_error {s : State} {own : List Response} {r : Response} (ho : s.procResponses = own ++ [r])
    (he : ∀ r ∈ own, r.err = 0) (hr : r.err ≠ 0) : procedureReport s = some (.error r.err) := by
  have hf : own.find? (fun r => r.err != 0) = none := by simpa using he
  have hl : (own ++ [r]).find? (fun r => r.err != 0) = some r := by
    rw [List.find?_append, hf]; simpa using hr
  simp only [procedureReport, ho, hl]

/-- The three RESULTs of a procedure of three reads are what it presents. -/
theorem presentReport_done {s : State} {f : Nat → Nat → Nat → Text} {a b c : BitVec 16}
    (h : procedureReport s = some (.ok [a, b, c])) : presentReport f s = some (.ok (f a.toNat b.toNat c.toNat)) := by
  simp [presentReport, h]

/-- A procedure that stopped presents its error and no text. -/
theorem presentReport_error {s : State} {f : Nat → Nat → Nat → Text} {e : BitVec 3}
    (h : procedureReport s = some (.error e)) : presentReport f s = some (.error e) := by
  simp [presentReport, h]

/-- A procedure whose last command failed is dropped (R142). -/
theorem hostStep_stop {s : State} (hb : s.busy = false) (hp : s.proc ≠ []) (he : s.err ≠ 0) :
    hostStep s = .next { s with proc := [] } := by
  rw [hostStep, if_neg (by simp [hb]), if_pos ⟨hp, he⟩]

/-- Where the word issued belongs to, and when its procedure began (R141). -/
theorem nextWord_cases {s u : State} {w : Word} (h : nextWord s = some (w, u)) :
    (s.proc ≠ [] ∧ u.procBegan = s.procBegan) ∨ (s.proc = [] ∧ u.procBegan = s.responses.length) := by
  unfold nextWord at h
  split at h
  · rename_i hp; cases h; exact .inl ⟨by simp [hp], rfl⟩
  · rename_i hp
    split at h <;> cases h
    exact .inr ⟨hp, rfl⟩

end Sys2Proof.Machine
end

