-- ==== Sys2Proof/Laws/PerInstr.lean ====
section
/-! SUPPORT. A statement per instruction: which of the two instruction sets an instruction's code belongs to. -/

namespace Sys2Proof.Laws.CodeSpace

/-- Whether an instruction is a wire command byte of 42_mapper.md section 3 (R3, R107 to R122). -/
def isWire : Instr → Bool
  | .wSecW _ | .wMinW _ | .wHourW _ | .wDayW _ | .wMonthW _ | .wWdayW _ | .wYearW _ | .wWpW _ => true
  | .wSecR | .wMinR | .wHourR | .wDayR | .wMonthR | .wWdayR | .wYearR | .wWpR => true
  | .rdreg _ | .wrreg _ _ | .rev8 _ | .bcdenc _ | .bcddec _ _ _ | .mapaddr _ _ => false
  | .fgetSec | .fgetMin | .fgetHour | .fgetDay | .fgetMonth | .fgetWday | .fgetYear => false
  | .fsetSec _ | .fsetMin _ | .fsetHour _ | .fsetDay _ | .fsetMonth _ | .fsetWday _ | .fsetYear _ => false

/-- A wire command byte is encoded as a transmit latch, every other instruction as a host command word (R3). -/
def Statement (i : Instr) : Prop :=
  match encode i with
  | .host _ => isWire i = false
  | .wire _ => isWire i = true

theorem rdreg (a : Byte) : Statement (.rdreg a) := rfl

theorem wrreg (a d : Byte) : Statement (.wrreg a d) := rfl

theorem rev8 (x : Byte) : Statement (.rev8 x) := rfl

theorem bcdenc (x : Byte) : Statement (.bcdenc x) := rfl

theorem bcddec (tens : Option BitRange) (ones : BitRange) (x : Byte) : Statement (.bcddec tens ones x) :=
  by cases tens <;> rfl

theorem mapaddr (r : Register) (dir : Direction) : Statement (.mapaddr r dir) := rfl

theorem fgetSec : Statement .fgetSec := rfl

theorem fgetMin : Statement .fgetMin := rfl

theorem fgetHour : Statement .fgetHour := rfl

theorem fgetDay : Statement .fgetDay := rfl

theorem fgetMonth : Statement .fgetMonth := rfl

theorem fgetWday : Statement .fgetWday := rfl

theorem fgetYear : Statement .fgetYear := rfl

theorem fsetSec (v : Byte) : Statement (.fsetSec v) := rfl

theorem fsetMin (v : Byte) : Statement (.fsetMin v) := rfl

theorem fsetHour (v : Byte) : Statement (.fsetHour v) := rfl

theorem fsetDay (v : Byte) : Statement (.fsetDay v) := rfl

theorem fsetMonth (v : Byte) : Statement (.fsetMonth v) := rfl

theorem fsetWday (v : Byte) : Statement (.fsetWday v) := rfl

theorem fsetYear (v : Byte) : Statement (.fsetYear v) := rfl

theorem wSecW (d : Byte) : Statement (.wSecW d) := rfl

theorem wSecR : Statement .wSecR := rfl

theorem wMinW (d : Byte) : Statement (.wMinW d) := rfl

theorem wMinR : Statement .wMinR := rfl

theorem wHourW (d : Byte) : Statement (.wHourW d) := rfl

theorem wHourR : Statement .wHourR := rfl

theorem wDayW (d : Byte) : Statement (.wDayW d) := rfl

theorem wDayR : Statement .wDayR := rfl

theorem wMonthW (d : Byte) : Statement (.wMonthW d) := rfl

theorem wMonthR : Statement .wMonthR := rfl

theorem wWdayW (d : Byte) : Statement (.wWdayW d) := rfl

theorem wWdayR : Statement .wWdayR := rfl

theorem wYearW (d : Byte) : Statement (.wYearW d) := rfl

theorem wYearR : Statement .wYearR := rfl

theorem wWpW (d : Byte) : Statement (.wWpW d) := rfl

theorem wWpR : Statement .wWpR := rfl

end Sys2Proof.Laws.CodeSpace
end

