-- ==== Sys2Proof/Laws/Transition.lean ====
section
/-! SUPPORT. Everything a step of a running transaction can do, once: the row of R81 it takes, or a line fault; and how
many steps it leaves. -/

namespace Sys2Proof.Machine

/-- A line action is done or ends in a line fault; either way nothing but the reports and the draws is read. -/
theorem act_result (a : LineAction) (k : State → State) (s : State) : ∃ r d,
    (s.lineMayFail = true ∧ act a k s = State.lineFault { s with reports := r, draws := d }) ∨
    act a k s = k (State.perform a { s with reports := r, draws := d }) := by
  rcases act_cases a k s with ⟨t, ht, he⟩ | ⟨hm, t, ht, he⟩ <;> obtain ⟨r, d, rfl⟩ := driverReport_eq ht
  · exact ⟨r, d, .inr he⟩
  · exact ⟨r, d, .inl ⟨hm, he⟩⟩

theorem actRead_result (k : Level → State → State) (s : State) : ∃ r d,
    (s.lineMayFail = true ∧ actRead k s = State.lineFault { s with reports := r, draws := d }) ∨
    ∃ l m, actRead k s = k l (State.perform (.readLevel l) { s with reports := r, draws := d, samples := m }) := by
  rcases actRead_cases k s with ⟨t, ht, he⟩ | ⟨hm, t, ht, he⟩ <;> obtain ⟨r, d, rfl⟩ := driverReport_eq ht
  · rw [drawLevel_frame] at he; exact ⟨r, _, .inr ⟨_, _, he⟩⟩
  · exact ⟨r, d, .inl ⟨hm, he⟩⟩

/-- The row of R81 of a phase whose line action sets a level or a direction: the action, and what follows it. -/
def Transition (s : State) (a : LineAction) (k : State → State) : Prop :=
  match s.phase with
  | .bClk => a = .setLevel .clock .low ∧ k = State.toPhase .bCe
  | .bCe => a = .setLevel .ce .high ∧ k = State.toPhase .txD
  | .txD => a = .setLevel .data (lvl (s.txseq.getLsbD s.i.toNat)) ∧ k = State.toPhase .txH
  | .txH => a = .setLevel .clock .high ∧ k = State.toPhase .txL
  | .txL => a = .setLevel .clock .low ∧ k = bitSent
  | .turn => a = .setDir .input ∧ k = State.toPhase .rxL
  | .rxL => a = .setLevel .clock .low ∧ k = State.toPhase .rxS
  | .rxH => a = .setLevel .clock .high ∧ k = bitReceived
  | .eCe => a = .setLevel .ce .low ∧ k = State.toPhase .eClk
  | .eClk => a = .setLevel .clock .low ∧ k = afterLastClock
  | .eDir => a = .setDir .output ∧ k = State.toPhase .done
  | .idle | .rxS | .done => False

/-- Under the invariant `I` names a bit of TXSEQ in TX_D (R24, R25). -/
theorem Inv.txIndex {s : State} (hi : Inv s) (h : s.phase = .txD) : s.i.toNat < 16 := by
  have h1 := hi.txCount
  simp [txCountFits, h] at h1
  have := hi.ntx_le
  bv_omega

/-- Under the invariant `J` names a bit of RX in RX_S (R25). -/
theorem Inv.rxIndex {s : State} (hi : Inv s) (h : s.phase = .rxS) : s.j.toNat < 8 := by
  have h2 := hi.rxCount
  simp [rxCountFits, h] at h2
  bv_omega

/-- A transaction's step in any phase but RX_S and DONE is the line action of its row. -/
theorem seqStep_transition {s : State} (hi : Inv s) (h0 : s.phase ≠ .idle) (h1 : s.phase ≠ .done)
    (h2 : s.phase ≠ .rxS) : ∃ a k, Transition s a k ∧ seqStep s = .next (act a k s) := by
  have key : ∀ p, s.phase = p → ∃ a k, Transition s a k ∧ seqStep s = .next (act a k s) := by
    intro p h
    cases p
    case idle => contradiction
    case done => contradiction
    case rxS => contradiction
    case bClk => exact ⟨_, _, by rw [Transition, h]; exact ⟨rfl, rfl⟩, seqStep_bClk h⟩
    case bCe => exact ⟨_, _, by rw [Transition, h]; exact ⟨rfl, rfl⟩, seqStep_bCe h⟩
    case txD => exact ⟨_, _, by rw [Transition, h]; exact ⟨rfl, rfl⟩, seqStep_txD h (hi.txIndex h)⟩
    case txH => exact ⟨_, _, by rw [Transition, h]; exact ⟨rfl, rfl⟩, seqStep_txH h⟩
    case txL => exact ⟨_, _, by rw [Transition, h]; exact ⟨rfl, rfl⟩, seqStep_txL h⟩
    case turn => exact ⟨_, _, by rw [Transition, h]; exact ⟨rfl, rfl⟩, seqStep_turn h⟩
    case rxL => exact ⟨_, _, by rw [Transition, h]; exact ⟨rfl, rfl⟩, seqStep_rxL h⟩
    case rxH => exact ⟨_, _, by rw [Transition, h]; exact ⟨rfl, rfl⟩, seqStep_rxH h⟩
    case eCe => exact ⟨_, _, by rw [Transition, h]; exact ⟨rfl, rfl⟩, seqStep_eCe h⟩
    case eClk => exact ⟨_, _, by rw [Transition, h]; exact ⟨rfl, rfl⟩, seqStep_eClk h⟩
    case eDir => exact ⟨_, _, by rw [Transition, h]; exact ⟨rfl, rfl⟩, seqStep_eDir h⟩
  exact key _ rfl

/-- Completion gives some result, with no error (R82). -/
theorem complete_eq (s : State) : ∃ v, complete s = s.finish v := by
  unfold complete
  split <;> exact ⟨_, rfl⟩

/-- All a step of a running transaction can do: complete, fault, take its row of R81, or sample. -/
theorem seqStep_cases {s : State} (hi : Inv s) (hp : s.phase ≠ .idle) :
    (s.phase = .done ∧ ∃ v, seqStep s = .next (s.finish v)) ∨
    (s.phase ≠ .done ∧ ∃ r d,
      (s.lineMayFail = true ∧ seqStep s = .next (State.lineFault { s with reports := r, draws := d })) ∨
      (∃ a k, Transition s a k ∧
        seqStep s = .next (k (State.perform a { s with reports := r, draws := d }))) ∨
      (s.phase = .rxS ∧ ∃ l m, seqStep s =
        .next (storeSample l (State.perform (.readLevel l) { s with reports := r, draws := d, samples := m })))) := by
  by_cases hd : s.phase = .done
  · obtain ⟨v, hv⟩ := complete_eq s
    exact .inl ⟨hd, v, hv ▸ seqStep_done hd⟩
  refine .inr ⟨hd, ?_⟩
  by_cases hr : s.phase = .rxS
  · have he := seqStep_rxS hr (hi.rxIndex hr)
    obtain ⟨r, d, ⟨hm, h⟩ | ⟨l, m, h⟩⟩ := actRead_result storeSample s <;> rw [h] at he
    · exact ⟨r, d, .inl ⟨hm, he⟩⟩
    · exact ⟨r, d, .inr (.inr ⟨hr, l, m, he⟩)⟩
  · obtain ⟨a, k, ht, he⟩ := seqStep_transition hi hp hd hr
    obtain ⟨r, d, ⟨hm, h⟩ | h⟩ := act_result a k s <;> rw [h] at he
    · exact ⟨r, d, .inl ⟨hm, he⟩⟩
    · exact ⟨r, d, .inr (.inl ⟨a, k, ht, he⟩)⟩

/-- What follows a line action is one of four. -/
theorem Transition.follows {s : State} {a : LineAction} {k : State → State} (h : Transition s a k) :
    (∃ p, k = State.toPhase p) ∨ k = bitSent ∨ k = bitReceived ∨ k = afterLastClock := by
  unfold Transition at h
  split at h <;> first
    | exact h.elim
    | (obtain ⟨rfl, rfl⟩ := h; first | exact .inl ⟨_, rfl⟩ | simp)

/-- What follows a line action moves the sequencer and counts; the rest of the state stays. -/
theorem Transition.frame {s : State} {a : LineAction} {k : State → State} (h : Transition s a k) (t : State) :
    k t = { t with phase := (k t).phase, i := (k t).i, j := (k t).j } := by
  rcases h.follows with ⟨p, rfl⟩ | rfl | rfl | rfl <;> rfl

/-- What belongs to the host and to whoever applies reset: no meaning and no transition of the sequencer touches it. -/
def SameOutside (s t : State) : Prop :=
  t.proc = s.proc ∧ t.todo = s.todo ∧ t.procBegan = s.procBegan ∧ t.resetPin = s.resetPin ∧
    t.lineMayFail = s.lineMayFail

/-- No instruction touches the host's data or the reset input. -/
theorem exec_sameOutside {i : Instr} {s t : State} (h : exec i s = .next t) : SameOutside s t := by
  revert h
  refine Instr.byFamily (P := fun i => exec i s = .next t → SameOutside s t) ?_ ?_ ?_ ?_ ?_ ?_ ?_ ?_ ?_ ?_ i
  · intro a h; cases h; unfold unlessFaulted; split <;> simp [SameOutside]
  · intro a b h; cases h; unfold unlessFaulted; split <;> simp [SameOutside]
  · intro a h; cases h; unfold unlessFaulted; split <;> simp [SameOutside]
  · intro a h; cases h; unfold unlessFaulted bcdenc; split <;> [skip; split] <;> simp [SameOutside, drawByte]
  · intro a b c h; cases h; unfold unlessFaulted; split <;> simp [SameOutside]
  · intro a b h; cases h; unfold unlessFaulted; split <;> simp [SameOutside]
  · intro a h; rw [exec_fget] at h; cases h; unfold fieldRead unlessFaulted; split <;> simp [SameOutside]
  · intro a b h; rw [exec_fset] at h; cases h; unfold fieldWrite unlessFaulted; split <;> [skip; split] <;>
      simp [SameOutside]
  · intro a b h; rw [exec_wireWrite] at h; cases h
    unfold wireWrite openTransaction unlessFaulted; split
    · simp [SameOutside]
    · obtain ⟨r, d, ⟨-, h⟩ | h⟩ := act_result (.setLevel .clock .low) (State.toPhase .bCe)
        (s.load .write (mapAddress a .write) b) <;> beta_reduce <;> rw [h] <;> simp [SameOutside]
  · intro a h; rw [exec_wireRead] at h; cases h
    unfold wireRead openTransaction unlessFaulted; split
    · simp [SameOutside]
    · obtain ⟨r, d, ⟨-, h⟩ | h⟩ := act_result (.setLevel .clock .low) (State.toPhase .bCe)
        (s.load .read (mapAddress a .read) 0) <;> beta_reduce <;> rw [h] <;> simp [SameOutside]

/-- Nor does a transition of the sequencer. -/
theorem seqStep_sameOutside {s t : State} (hi : Inv s) (hp : s.phase ≠ .idle) (hs : seqStep s = .next t) :
    SameOutside s t := by
  rcases seqStep_cases hi hp with ⟨-, v, he⟩ | ⟨-, r, d, ⟨-, he⟩ | ⟨a, k, h, he⟩ | ⟨-, l, m, he⟩⟩ <;>
    rw [he] at hs <;> cases hs
  · simp [SameOutside]
  · simp [SameOutside]
  · rw [h.frame]; simp [SameOutside]
  · simp [SameOutside, storeSample]

/-- Where `LINE_MAY_FAIL` is false no instruction sets FAULTED (R154). -/
theorem exec_cannot_fault {i : Instr} {s t : State} (hm : s.lineMayFail = false) (hf : s.faulted = false)
    (h : exec i s = .next t) : t.faulted = false := by
  revert h
  refine Instr.byFamily (P := fun i => exec i s = .next t → t.faulted = false) ?_ ?_ ?_ ?_ ?_ ?_ ?_ ?_ ?_ ?_ i
  · intro a h; cases h; simp [unlessFaulted, hf]
  · intro a b h; cases h; simp [unlessFaulted, hf]
  · intro a h; cases h; simp [unlessFaulted, hf]
  · intro a h; cases h; simp [unlessFaulted, hf, bcdenc]; split <;> simp [hf, drawByte]
  · intro a b c h; cases h; simp [unlessFaulted, hf]
  · intro a b h; cases h; simp [unlessFaulted, hf]
  · intro a h; rw [exec_fget] at h; cases h; simp [unlessFaulted, hf, fieldRead]
  · intro a b h; rw [exec_fset] at h; cases h; simp [unlessFaulted, hf, fieldWrite]; split <;> simp [hf]
  · intro a b h; rw [exec_wireWrite] at h; cases h
    simp [unlessFaulted, hf, wireWrite, openTransaction, act, driverReport, hm]
  · intro a h; rw [exec_wireRead] at h; cases h
    simp [unlessFaulted, hf, wireRead, openTransaction, act, driverReport, hm]

/-- Where `LINE_MAY_FAIL` is false the sequencer does not set FAULTED (R154). -/
theorem seqStep_cannot_fault {s t : State} (hm : s.lineMayFail = false) (hf : s.faulted = false)
    (hs : seqStep s = .next t) : t.faulted = false := by
  unfold seqStep at hs
  split at hs
  all_goals try split at hs
  all_goals cases hs
  all_goals try simp [act, actRead, driverReport, hm, hf, bitSent, bitReceived, afterLastClock, storeSample]
  · unfold drawLevel; split <;> simp [hf]
  · unfold complete; split <;> simp [hf]

/-- Where `LINE_MAY_FAIL` is false no instruction answers LINE_FAULT (R154). -/
theorem exec_no_line_fault {i : Instr} {s t : State} (hm : s.lineMayFail = false) (hf : s.err ≠ 3)
    (h : exec i s = .next t) : t.err ≠ 3 := by
  revert h
  refine Instr.byFamily (P := fun i => exec i s = .next t → t.err ≠ 3) ?_ ?_ ?_ ?_ ?_ ?_ ?_ ?_ ?_ ?_ i
  · intro a h; cases h; unfold unlessFaulted; split <;> simpa [ErrorCode.code] using hf
  · intro a b h; cases h; unfold unlessFaulted; split <;> simpa [ErrorCode.code] using hf
  · intro a h; cases h; unfold unlessFaulted; split <;> simp [ErrorCode.code]
  · intro a h; cases h; unfold unlessFaulted bcdenc; split <;> [skip; split] <;> simp [ErrorCode.code, drawByte]
  · intro a b c h; cases h; unfold unlessFaulted; split <;> simp [ErrorCode.code]
  · intro a b h; cases h; unfold unlessFaulted; split <;> simp [ErrorCode.code]
  · intro a h; rw [exec_fget] at h; cases h; unfold fieldRead unlessFaulted; split <;> simpa [ErrorCode.code] using hf
  · intro a b h; rw [exec_fset] at h; cases h; unfold fieldWrite unlessFaulted; split <;> [skip; split] <;>
      simpa [ErrorCode.code] using hf
  · intro a b h; rw [exec_wireWrite] at h; cases h
    unfold wireWrite openTransaction unlessFaulted; split <;> simpa [act, driverReport, hm, ErrorCode.code] using hf
  · intro a h; rw [exec_wireRead] at h; cases h
    unfold wireRead openTransaction unlessFaulted; split <;> simpa [act, driverReport, hm, ErrorCode.code] using hf

/-- Nor does the sequencer. -/
theorem seqStep_no_line_fault {s t : State} (hm : s.lineMayFail = false) (hf : s.err ≠ 3)
    (hs : seqStep s = .next t) : t.err ≠ 3 := by
  unfold seqStep at hs
  split at hs
  all_goals try split at hs
  all_goals cases hs
  all_goals try simpa [act, actRead, driverReport, hm, bitSent, bitReceived, afterLastClock, storeSample] using hf
  · simp [actRead, driverReport, hm, storeSample]; unfold drawLevel; split <;> simpa using hf
  · unfold complete; split <;> simp [ErrorCode.code]

/-- After a bit: the next bit, the end of a write, or the turnaround of a read (R81, TX_L). -/
theorem bitSent_cases (s : State) (h : s.i < s.ntx) (hn : s.ntx.toNat ≤ 16) :
    (s.i + 1 < s.ntx ∧ bitSent s = { s with i := s.i + 1, phase := .txD }) ∨
    (s.i + 1 = s.ntx ∧ s.kind = .write ∧ bitSent s = { s with i := s.i + 1, phase := .eCe }) ∨
    (s.i + 1 = s.ntx ∧ s.kind = .read ∧ bitSent s = { s with i := s.i + 1, phase := .turn }) := by
  by_cases hlt : s.i + 1 < s.ntx
  · exact .inl ⟨hlt, bitSent_more hlt⟩
  · have he : s.i + 1 = s.ntx := by bv_omega
    by_cases hk : s.kind = .write
    · exact .inr (.inl ⟨he, hk, bitSent_last_write he hk⟩)
    · have hk' : s.kind = .read := by revert hk; cases s.kind <;> simp
      exact .inr (.inr ⟨he, hk', bitSent_last_read he hk'⟩)

/-- After a sample: the next sample, or the end (R81, RX_H). -/
theorem bitReceived_cases (s : State) (h : s.j < 8) :
    (s.j + 1 < 8 ∧ bitReceived s = { s with j := s.j + 1, phase := .rxL }) ∨
    (s.j + 1 = 8 ∧ bitReceived s = { s with j := s.j + 1, phase := .eCe }) := by
  by_cases hlt : s.j + 1 < 8
  · exact .inl ⟨hlt, bitReceived_more hlt⟩
  · have he : s.j + 1 = 8 := by bv_omega
    exact .inr ⟨he, bitReceived_last he⟩

/-- Each row of R81 takes one of the steps a transaction has left. -/
theorem stepsLeft_dec {s : State} (hi : Inv s) {a k r d} (h : Transition s a k) :
    stepsLeft (k (State.perform a { s with reports := r, draws := d })) + 1 = stepsLeft s := by
  have hn := hi.ntx
  have hn' := hi.ntx_le
  have h1 := hi.txCount
  have h2 := hi.rxCount
  have h3 := hi.kind
  unfold Transition at h
  split at h <;> rename_i hp <;> (first | exact h.elim | obtain ⟨rfl, rfl⟩ := h) <;>
    simp [txCountFits, rxCountFits, kindFits, hp] at h1 h2 h3
  · simp [stepsLeft, hp]
  · simp [stepsLeft, hp]
  · simp [stepsLeft, hp]; have : s.i.toNat < s.ntx.toNat := by bv_omega
    cases s.kind <;> simp [tailSteps] <;> omega
  · simp [stepsLeft, hp]; have : s.i.toNat < s.ntx.toNat := by bv_omega
    cases s.kind <;> simp [tailSteps] <;> omega
  · have : s.i.toNat < s.ntx.toNat := by bv_omega
    have h1' : (s.i + 1).toNat = s.i.toNat + 1 := by bv_omega
    rcases bitSent_cases (State.perform (.setLevel .clock .low) { s with reports := r, draws := d })
      (by simpa using h1) (by simpa using hn') with ⟨hl, he⟩ | ⟨hl, hk, he⟩ | ⟨hl, hk, he⟩ <;> rw [he] <;> simp at hl h1'
    · simp [stepsLeft, hp]
      cases s.kind <;> simp [tailSteps] <;> omega
    · simp at hk
      simp [stepsLeft, hp, hk, tailSteps, ← hl]; omega
    · simp at hk
      simp [stepsLeft, hp, hk, tailSteps, ← hl]; omega
  · simp [stepsLeft, hp, h2]
  · simp [stepsLeft, hp]
  · have : s.j.toNat < 8 := by bv_omega
    have h1' : (s.j + 1).toNat = s.j.toNat + 1 := by bv_omega
    rcases bitReceived_cases (State.perform (.setLevel .clock .high) { s with reports := r, draws := d })
      (by simpa using h2) with ⟨hl, he⟩ | ⟨hl, he⟩ <;> rw [he] <;> simp at hl h1'
    · simp [stepsLeft, hp]; omega
    · simp [stepsLeft, hp, h3]; bv_omega
  · simp [stepsLeft, hp]; cases s.kind <;> rfl
  · by_cases hk : s.kind = .write
    · rw [afterLastClock_write (by simpa using hk)]; simp [stepsLeft, hp, hk]
    · have hk' : s.kind = .read := by revert hk; cases s.kind <;> simp
      rw [afterLastClock_read (by simpa using hk')]; simp [stepsLeft, hp, hk']
  · simp [stepsLeft, hp]

/-- A transaction has at most 55 steps left. -/
theorem stepsLeft_le {s : State} (hi : Inv s) : stepsLeft s ≤ 55 := by
  have hn := hi.ntx
  have h1 := hi.txCount
  have h2 := hi.rxCount
  unfold stepsLeft
  cases hp : s.phase <;> cases hk : s.kind <;> simp [tailSteps, hn, hk, ntxOf] <;> omega

/-- A running transaction has a step left. -/
theorem stepsLeft_pos {s : State} (hi : Inv s) (hp : s.phase ≠ .idle) : 0 < stepsLeft s := by
  have hn := hi.ntx
  have h1 := hi.txCount
  unfold stepsLeft
  cases hp : s.phase <;> cases hk : s.kind <;> simp [tailSteps, hn, hk, ntxOf] <;>
    simp [txCountFits, hp, hn, hk, ntxOf] at h1 <;> first | bv_omega | contradiction

end Sys2Proof.Machine
end

