-- ==== Sys2Proof/Laws/Run.lean ====
section
/-! SUPPORT. Runs: what the steps of one bit, of all bits, of the samples and of a whole transaction do while the line
driver lets every action pass, and what the first steps of a read do before an action fails. -/

namespace Sys2Proof.Machine

/-- The state after the reports of `n` line actions were read. -/
theorem dropReports_eq (n : Nat) (s : State) : s.dropReports n =
    { s with reports := if s.lineMayFail then s.reports.drop n else s.reports } := by
  unfold State.dropReports; split <;> rfl

/-- Outside IDLE and B_CLK a step is the sequencer's. -/
theorem step_running {s : State} (hr : s.resetPin = false) (hp : s.phase ≠ .idle) (hb : s.phase ≠ .bClk) : step s =
    seqStep s := by
  unfold step advance engineStep
  rw [if_neg (by simp [hr]), if_neg hp]
  split
  · contradiction
  · rfl

/-- A run takes its first step, then the others. -/
theorem steps_succ {n : Nat} {s t : State} (h : step s = .next t) : steps (n + 1) s = steps n t := by simp only
    [steps, h]

/-- One transmitted bit. -/
theorem steps_bit {s : State} (hr : s.resetPin = false) (hp : s.phase = .txD) (hn : s.i < s.ntx)
    (hn' : s.ntx.toNat ≤ 16) (hD : DriverOk 3 s) :
    steps 3 s = .next (bitSent { s with
      clk := .low
      dataOut := lvl (s.txseq.getLsbD s.i.toNat)
      trace := s.trace ++ bitActions (s.txseq.getLsbD s.i.toNat)
      reports := if s.lineMayFail then s.reports.drop 3 else s.reports
      phase := .txL }) := by
  have h16 : s.i.toNat < 16 := by bv_omega
  rw [steps_succ ((step_running hr (by simp [hp]) (by simp [hp])).trans (seqStep_txD hp h16))]
  rw [act_of_ok _ _ hD, dropReports_eq]
  generalize hs1 : State.toPhase _ _ = s1
  have hD1 : DriverOk 2 s1 := hD.drop (by simp [← hs1]) (by simp [← hs1, State.dropReports]; split <;> rfl)
  have hp1 : s1.phase = .txH := by simp [← hs1]
  rw [steps_succ ((step_running (by simp [← hs1, hr]) (by simp [hp1]) (by simp [hp1])).trans (seqStep_txH hp1))]
  rw [act_of_ok _ _ hD1, dropReports_eq]
  generalize hs2 : State.toPhase _ _ = s2
  have hD2 : DriverOk 1 s2 := hD1.drop (by simp [← hs2]) (by simp [← hs2, State.dropReports]; split <;> rfl)
  have hp2 : s2.phase = .txL := by simp [← hs2]
  rw [steps_succ
    ((step_running (by simp [← hs2, ← hs1, hr]) (by simp [hp2]) (by simp [hp2])).trans (seqStep_txL hp2))]
  rw [act_of_ok _ _ hD2, dropReports_eq, ← hs2, ← hs1]
  cases hm : s.lineMayFail <;> simp [steps, State.toPhase, State.perform, bitActions, hm]

/-- All the bits left. -/
theorem steps_bits {m : Nat} : ∀ {s : State}, s.resetPin = false → s.phase = .txD → s.i.toNat + (m + 1) =
    s.ntx.toNat → s.ntx.toNat ≤ 16 → DriverOk (3 * (m + 1)) s →
    steps (3 * (m + 1)) s = .next { s with
      clk := .low
      dataOut := lvl (s.txseq.getLsbD (s.ntx.toNat - 1))
      trace := s.trace ++ (List.range' s.i.toNat (m + 1)).flatMap fun k => bitActions (s.txseq.getLsbD k)
      reports := if s.lineMayFail then s.reports.drop (3 * (m + 1)) else s.reports
      i := s.ntx
      phase := match s.kind with
        | .write => .eCe
        | .read => .turn } := by
  induction m with
  | zero =>
    intro s hr hp hm hn hD
    rw [steps_bit hr hp (by bv_omega) hn hD]
    have he : s.i + 1 = s.ntx := by bv_omega
    have hl : s.ntx.toNat - 1 = s.i.toNat := by omega
    rw [hl]
    unfold bitSent
    simp only [he]
    rw [if_neg (by bv_omega)]
    cases hk : s.kind <;> simp
  | succ m ih =>
    intro s hr hp hm hn hD
    have hlt : s.i + 1 < s.ntx := by bv_omega
    have h1 : (s.i + 1).toNat = s.i.toNat + 1 := by bv_omega
    have h3 := steps_bit hr hp (by bv_omega) hn (hD.mono (by omega))
    rw [bitSent_more (by exact hlt)] at h3
    rw [show 3 * (m + 1 + 1) = 3 + 3 * (m + 1) by ring] at hD ⊢
    rw [steps_add h3, ih]
    · rw [List.range'_succ (n := m + 1), List.flatMap_cons]
      simp only [h1]
      cases s.lineMayFail <;> simp only [List.append_assoc, List.drop_drop, if_true, Bool.false_eq_true, if_false]
    · exact hr
    · rfl
    · simp only [h1]; omega
    · exact hn
    · intro hm'
      obtain ⟨rest, h⟩ := hD hm'
      refine ⟨rest, ?_⟩
      have hm' : s.lineMayFail = true := hm'
      simp only [hm', if_true, h]
      rw [← List.replicate_append_replicate, List.append_assoc, List.drop_append_of_le_length (by simp)]
      simp

/-- One received bit. -/
theorem steps_sample {s : State} {l : Level} {ls : List Level} (hr : s.resetPin = false) (hp : s.phase = .rxL)
    (hj : s.j < 8)
    (hs : s.samples = l :: ls) (hD : DriverOk 3 s) :
    steps 3 s = .next (bitReceived { s with
      clk := .high
      trace := s.trace ++ sampleActions l
      reports := if s.lineMayFail then s.reports.drop 3 else s.reports
      samples := ls
      rx := storeBit s.rx s.j.toNat (bit l)
      phase := .rxH }) := by
  rw [steps_succ ((step_running hr (by simp [hp]) (by simp [hp])).trans (seqStep_rxL hp))]
  rw [act_of_ok _ _ hD, dropReports_eq]
  generalize hs1 : State.toPhase _ _ = s1
  have hD1 : DriverOk 2 s1 := hD.drop (by simp [← hs1]) (by simp [← hs1, State.dropReports]; split <;> rfl)
  have hp1 : s1.phase = .rxS := by simp [← hs1]
  have hj1 : s1.j = s.j := by simp [← hs1]
  have hsm1 : s1.samples = l :: ls := by simp [← hs1, hs]
  rw [steps_succ
    ((step_running (by simp [← hs1, hr]) (by simp [hp1]) (by simp [hp1])).trans
    (seqStep_rxS hp1 (by rw [hj1]; bv_omega)))]
  rw [actRead_of_ok _ hD1 hsm1, dropReports_eq]
  generalize hs2 : storeSample _ _ = s2
  have hD2 : DriverOk 1 s2 := hD1.drop (by simp [← hs2, storeSample])
    (by simp [← hs2, storeSample, State.dropReports]; split <;> rfl)
  have hp2 : s2.phase = .rxH := by simp [← hs2, storeSample]
  rw [steps_succ
    ((step_running (by simp [← hs2, ← hs1, hr, storeSample]) (by simp [hp2]) (by simp [hp2])).trans
    (seqStep_rxH hp2))]
  rw [act_of_ok _ _ hD2, dropReports_eq, ← hs2, ← hs1]
  cases hm : s.lineMayFail <;> simp [steps, State.toPhase, State.perform, sampleActions, storeSample, hm]

/-- Samples stored one after the other from bit `j`. -/
def storeLevels : List Level → Nat → Byte → Byte
  | [], _, x => x
  | l :: ls, j, x => storeLevels ls (j + 1) (storeBit x j (bit l))

/-- All the samples left. -/
theorem steps_samples {ls : List Level} : ∀ {s : State} {rest : List Level}, s.resetPin = false → s.phase = .rxL →
    ls ≠ [] → s.j.toNat + ls.length = 8 → s.samples = ls ++ rest → DriverOk (3 * ls.length) s →
    steps (3 * ls.length) s = .next { s with
      clk := .high
      trace := s.trace ++ ls.flatMap sampleActions
      reports := if s.lineMayFail then s.reports.drop (3 * ls.length) else s.reports
      samples := rest
      rx := storeLevels ls s.j.toNat s.rx
      j := 8
      phase := .eCe } := by
  induction ls with
  | nil => intros; contradiction
  | cons l ls ih =>
    intro s rest hr hp hne hj hs hD
    simp only [List.length_cons] at hj hD ⊢
    have h3 := steps_sample hr hp (by bv_omega) hs (hD.mono (by omega))
    cases ls with
    | nil =>
      rw [bitReceived_last (by simp at hj ⊢; bv_omega)] at h3
      have he : s.j + 1 = 8 := by simp at hj; bv_omega
      simp only [he] at h3
      simpa [storeLevels] using h3
    | cons l' ls =>
      have h1 : (s.j + 1).toNat = s.j.toNat + 1 := by simp at hj; bv_omega
      rw [bitReceived_more (by simp at hj ⊢; bv_omega)] at h3
      rw [show 3 * ((l' :: ls).length + 1) = 3 + 3 * (l' :: ls).length by ring] at hD ⊢
      rw [steps_add h3, ih (rest := rest)]
      · simp only [h1]
        cases s.lineMayFail <;> simp [storeLevels, Nat.add_comm]
      · exact hr
      · rfl
      · simp
      · simp only [h1]; simp at hj ⊢; omega
      · rfl
      · intro hm'
        obtain ⟨rest, h⟩ := hD hm'
        refine ⟨rest, ?_⟩
        have hm' : s.lineMayFail = true := hm'
        simp only [hm', if_true, h]
        rw [← List.replicate_append_replicate, List.append_assoc, List.drop_append_of_le_length (by simp)]
        simp

/-- Eight samples from bit 0 form the received byte (R74). -/
theorem storeLevels_eq (ls : List Level) (h : ls.length = 8) : storeLevels ls 0 0 = receivedByte ls := by
  match ls, h with
  | [a, b, c, d, e, f, g, h], _ => cases a <;> cases b <;> cases c <;> cases d <;> cases e <;> cases f <;> cases g
    <;> cases h <;> rfl

/-- The guarantee for the actions after the next `m`. -/
theorem DriverOk.after {s t : State} {m n : Nat} (h : DriverOk (m + n) s) (hm : t.lineMayFail = s.lineMayFail)
    (hr : t.reports = if s.lineMayFail then s.reports.drop m else s.reports) : DriverOk n t := by
  intro h'
  have h1 : s.lineMayFail = true := hm ▸ h'
  obtain ⟨rest, hs⟩ := h h1
  refine ⟨rest, ?_⟩
  rw [hr, if_pos h1, hs, ← List.replicate_append_replicate, List.append_assoc, List.drop_append_of_le_length
    (by simp)]
  simp

/-- The two actions that open a transaction. -/
theorem steps_open {s : State} (hi : Inv s) (hr : s.resetPin = false) (hp : s.phase = .bClk) (hD : DriverOk 2 s) :
    steps 2 s = .next { s with
      clk := .low
      ce := .high
      trace := s.trace ++ [.setLevel .clock .low, .setLevel .ce .high]
      reports := if s.lineMayFail then s.reports.drop 2 else s.reports
      phase := .txD } := by
  rw [steps_succ ((step_of_running hi hr (by simp [hp])).trans (seqStep_bClk hp))]
  rw [act_of_ok _ _ hD, dropReports_eq]
  generalize hs1 : State.toPhase _ _ = s1
  have hD1 : DriverOk 1 s1 := hD.drop (by simp [← hs1]) (by simp [← hs1, State.dropReports]; split <;> rfl)
  have hp1 : s1.phase = .bCe := by simp [← hs1]
  rw [steps_succ ((step_running (by simp [← hs1, hr]) (by simp [hp1]) (by simp [hp1])).trans (seqStep_bCe hp1))]
  rw [act_of_ok _ _ hD1, dropReports_eq, ← hs1]
  cases hm : s.lineMayFail <;> simp [steps, State.toPhase, State.perform, hm]

/-- The end of a write transaction. -/
theorem steps_close_write {s : State} (hr : s.resetPin = false) (hp : s.phase = .eCe) (hk : s.kind = .write)
    (hpost : postFits s = true) (hD : DriverOk 2 s) :
    steps 3 s = .next { s with
      clk := .low
      ce := .low
      trace := s.trace ++ [.setLevel .ce .low, .setLevel .clock .low]
      reports := if s.lineMayFail then s.reports.drop 2 else s.reports
      result := 0
      err := 0
      responses := s.responses ++ [⟨0, 0⟩]
      busy := false
      phase := .idle } := by
  rw [steps_succ ((step_running hr (by simp [hp]) (by simp [hp])).trans (seqStep_eCe hp))]
  rw [act_of_ok _ _ hD, dropReports_eq]
  generalize hs1 : State.toPhase _ _ = s1
  have hD1 : DriverOk 1 s1 := hD.drop (by simp [← hs1]) (by simp [← hs1, State.dropReports]; split <;> rfl)
  have hp1 : s1.phase = .eClk := by simp [← hs1]
  rw [steps_succ ((step_running (by simp [← hs1, hr]) (by simp [hp1]) (by simp [hp1])).trans (seqStep_eClk hp1))]
  rw [act_of_ok _ _ hD1, afterLastClock_write (by simp [State.dropReports, ← hs1]; split <;> simp [hk]),
    dropReports_eq]
  generalize hs2 : State.toPhase _ _ = s2
  have hp2 : s2.phase = .done := by simp [← hs2]
  have hc : complete s2 = s2.finish 0 := by
    have h1 : s2.kind = .write := by simp [← hs2, ← hs1, hk]
    have h2 : s2.post = s.post := by simp [← hs2, ← hs1]
    unfold complete; rw [h1, h2]
    unfold postFits at hpost
    cases hq : s.post <;> simp [hq, hk] at hpost ⊢
  rw [steps_succ
    ((step_running (by simp [← hs2, ← hs1, hr]) (by simp [hp2]) (by simp [hp2])).trans (seqStep_done hp2)), hc, ←
    hs2, ← hs1]
  cases hm : s.lineMayFail <;> simp [steps, State.toPhase, State.perform, hm, State.finish, State.respond,
    State.toIdle, ErrorCode.code]

/-- What a read transaction answers (R82). -/
def readResult (post : Post) (x : Byte) : BitVec 16 :=
  match post with
  | .dec f => BitVec.ofNat 16 (decodeField f x)
  | .none | .discard => zext16 x

/-- The end of a read transaction. -/
theorem steps_close_read {s : State} (hr : s.resetPin = false) (hp : s.phase = .eCe) (hk : s.kind = .read)
    (hpost : postFits s = true) (hD : DriverOk 3 s) :
    steps 4 s = .next { s with
      clk := .low
      ce := .low
      dataDir := .output
      trace := s.trace ++ [.setLevel .ce .low, .setLevel .clock .low, .setDir .output]
      reports := if s.lineMayFail then s.reports.drop 3 else s.reports
      result := readResult s.post s.rx
      err := 0
      responses := s.responses ++ [⟨readResult s.post s.rx, 0⟩]
      busy := false
      phase := .idle } := by
  rw [steps_succ ((step_running hr (by simp [hp]) (by simp [hp])).trans (seqStep_eCe hp))]
  rw [act_of_ok _ _ hD, dropReports_eq]
  generalize hs1 : State.toPhase _ _ = s1
  have hD1 : DriverOk 2 s1 := hD.drop (by simp [← hs1]) (by simp [← hs1, State.dropReports]; split <;> rfl)
  have hp1 : s1.phase = .eClk := by simp [← hs1]
  rw [steps_succ ((step_running (by simp [← hs1, hr]) (by simp [hp1]) (by simp [hp1])).trans (seqStep_eClk hp1))]
  rw [act_of_ok _ _ hD1, afterLastClock_read (by simp [State.dropReports, ← hs1]; split <;> simp [hk]),
    dropReports_eq]
  generalize hs3 : State.toPhase _ _ = s3
  have hD3 : DriverOk 1 s3 := hD1.drop (by simp [← hs3]) (by simp [← hs3, State.dropReports]; split <;> rfl)
  have hp3 : s3.phase = .eDir := by simp [← hs3]
  rw [steps_succ
    ((step_running (by simp [← hs3, ← hs1, hr]) (by simp [hp3]) (by simp [hp3])).trans (seqStep_eDir hp3))]
  rw [act_of_ok _ _ hD3, dropReports_eq]
  generalize hs2 : State.toPhase _ _ = s2
  have hp2 : s2.phase = .done := by simp [← hs2]
  have hc : complete s2 = s2.finish (readResult s.post s.rx) := by
    have h1 : s2.kind = .read := by simp [← hs2, ← hs3, ← hs1, hk]
    have h2 : s2.post = s.post := by simp [← hs2, ← hs3, ← hs1]
    have h3 : s2.rx = s.rx := by simp [← hs2, ← hs3, ← hs1]
    unfold complete; rw [h1, h2, h3]
    unfold postFits at hpost
    cases hq : s.post <;> simp [hq, hk] at hpost ⊢ <;> rfl
  rw [steps_succ
    ((step_running (by simp [← hs2, ← hs3, ← hs1, hr]) (by simp [hp2]) (by simp [hp2])).trans (seqStep_done hp2)),
    hc, ← hs2, ← hs3, ← hs1]
  cases hm : s.lineMayFail <;> simp [steps, State.toPhase, State.perform, hm, State.finish, State.respond,
    State.toIdle, ErrorCode.code]

/-- The bits of the transmit latch are the command byte's, bit 0 first, then the data byte's (R24, R40, R41). -/
theorem commandBits_eq (a d : Byte) :
    ((List.range' 0 8).flatMap fun k => bitActions ((d ++ a).getLsbD k)) = byteActions a := by
  rw [show List.range' 0 8 = List.range 8 by decide, byteActions]
  exact List.flatMap_congr fun k hk => by rw [txseq_low _ _ (List.mem_range.mp hk)]

/-- The bits of a whole latch: the command byte, then the data byte. -/
theorem latchBits_eq (a d : Byte) :
    ((List.range' 0 16).flatMap fun k => bitActions ((d ++ a).getLsbD k)) = byteActions a ++ byteActions d := by
  rw [show List.range' 0 16 = List.range' 0 8 ++ (List.range 8).map (8 + ·) by decide, List.flatMap_append,
    commandBits_eq, List.flatMap_map, byteActions, byteActions]
  congr 1
  exact List.flatMap_congr fun k _ => by rw [txseq_high]

/-- A write transaction, from B_CLK to IDLE (R86). -/
theorem steps_write {s : State} {a d : Byte} (hi : Inv s) (hr : s.resetPin = false) (hp : s.phase = .bClk)
    (hk : s.kind = .write) (ht : s.txseq = d ++ a) (hD : DriverOk 52 s) :
    steps 53 s = .next { s with
      clk := .low
      ce := .low
      dataOut := lvl (d.getLsbD 7)
      i := 16
      trace := s.trace ++ writeTrace a d
      reports := if s.lineMayFail then s.reports.drop 52 else s.reports
      result := 0
      err := 0
      responses := s.responses ++ [⟨0, 0⟩]
      busy := false
      phase := .idle } := by
  have hn : s.ntx = 16 := by rw [hi.ntx, hk]; rfl
  have h0 : s.i = 0 := by have := hi.txCount; simpa [txCountFits, hp] using this
  have hpost := hi.post (by simp [hp])
  have h1 := steps_open hi hr hp (hD.mono (by omega))
  rw [show 53 = 2 + 51 from rfl, steps_add h1]
  generalize hs1 : State.mk .. = s1 at h1 ⊢
  have hD1 : DriverOk 50 s1 := DriverOk.after (m := 2) hD (by simp [← hs1]) (by simp [← hs1])
  have h2 := steps_bits (m := 15) (s := s1) (by simp [← hs1, hr]) (by simp [← hs1]) (by simp [← hs1, h0, hn])
    (by simp [← hs1, hn]) (hD1.mono (by omega))
  rw [show 51 = 3 * (15 + 1) + 3 from rfl, steps_add h2]
  generalize hs2 : State.mk .. = s2 at h2 ⊢
  have hD2 : DriverOk 2 s2 := DriverOk.after (m := 48) hD1 (by simp [← hs2]) (by simp [← hs2])
  rw [steps_close_write (by simp [← hs2, ← hs1, hr]) (by simp [← hs2, ← hs1, hk]) (by simp [← hs2, ← hs1, hk])
    (by simpa [postFits, ← hs2, ← hs1] using hpost) hD2]
  rw [← hs2, ← hs1]
  have hbits := latchBits_eq a d
  rw [← ht] at hbits
  have hb : s.txseq.getLsbD 15 = d.getLsbD 7 := by rw [ht]; exact txseq_high _ _ 7
  cases hm : s.lineMayFail <;> simp [-BitVec.getLsbD_eq_getElem, hn, h0, hb, hbits, writeTrace]

/-- From the turnaround to the end of a read. -/
theorem steps_receive {s : State} {ls rest : List Level} (hr : s.resetPin = false) (hp : s.phase = .turn)
    (hk : s.kind = .read) (hpost : postFits s = true) (hj : s.j = 0) (hx : s.rx = 0) (hl : ls.length = 8)
    (hs : s.samples = ls ++ rest) (hD : DriverOk 28 s) :
    steps 29 s = .next { s with
      clk := .low
      ce := .low
      dataDir := .output
      j := 8
      rx := receivedByte ls
      samples := rest
      trace := s.trace ++ ([.setDir .input] ++ ls.flatMap sampleActions ++
        [.setLevel .ce .low, .setLevel .clock .low, .setDir .output])
      reports := if s.lineMayFail then s.reports.drop 28 else s.reports
      result := readResult s.post (receivedByte ls)
      err := 0
      responses := s.responses ++ [⟨readResult s.post (receivedByte ls), 0⟩]
      busy := false
      phase := .idle } := by
  rw [steps_succ ((step_running hr (by simp [hp]) (by simp [hp])).trans (seqStep_turn hp))]
  rw [act_of_ok _ _ hD, dropReports_eq]
  generalize hs3 : State.toPhase _ _ = s3
  have hD3 : DriverOk 27 s3 := hD.drop (by simp [← hs3]) (by simp [← hs3, State.dropReports]; split <;> rfl)
  have h4 := steps_samples (ls := ls) (rest := rest) (s := s3) (by simp [← hs3, hr]) (by simp [← hs3])
    (by rintro rfl; simp at hl) (by simp [← hs3, hj, hl]) (by simp [← hs3, hs]) (hD3.mono (by omega))
  have hx3 : storeLevels ls s3.j.toNat s3.rx = receivedByte ls := by
    rw [show s3.j = 0 by simp [← hs3, hj], show s3.rx = 0 by simp [← hs3, hx]]; exact storeLevels_eq ls hl
  rw [hl, hx3] at h4
  rw [show 28 = 3 * 8 + 4 from rfl, steps_add h4]
  generalize hs4 : State.mk .. = s4 at h4 ⊢
  have hD4 : DriverOk 3 s4 := DriverOk.after (m := 24) hD3 (by simp [← hs4]) (by simp [← hs4])
  rw [steps_close_read (by simp [← hs4, ← hs3, hr]) (by simp [← hs4]) (by simp [← hs4, ← hs3, hk])
    (by simpa [postFits, ← hs4, ← hs3] using hpost) hD4]
  rw [← hs4, ← hs3]
  cases hm : s.lineMayFail <;> simp [State.toPhase, State.perform]

/-- A read transaction, from B_CLK to IDLE (R87). -/
theorem steps_read {s : State} {a : Byte} {ls rest : List Level} (hi : Inv s) (hr : s.resetPin = false)
    (hp : s.phase = .bClk) (hk : s.kind = .read) (ht : s.txseq = 0#8 ++ a) (hl : ls.length = 8)
    (hs : s.samples = ls ++ rest) (hD : DriverOk 54 s) :
    steps 55 s = .next { s with
      clk := .low
      ce := .low
      dataOut := lvl (a.getLsbD 7)
      i := 8
      j := 8
      rx := receivedByte ls
      samples := rest
      trace := s.trace ++ readTrace a ls
      reports := if s.lineMayFail then s.reports.drop 54 else s.reports
      result := readResult s.post (receivedByte ls)
      err := 0
      responses := s.responses ++ [⟨readResult s.post (receivedByte ls), 0⟩]
      busy := false
      phase := .idle } := by
  have hn : s.ntx = 8 := by rw [hi.ntx, hk]; rfl
  have h0 : s.i = 0 := by have := hi.txCount; simpa [txCountFits, hp] using this
  have hj0 : s.j = 0 := by have := hi.rxCount; simpa [rxCountFits, hp] using this
  have hrx : s.rx = 0 := by have := hi.rxLatch; simpa [rxLatchFits, hp] using this
  have hdir : s.dataDir = .output := by have := hi.dataDir (hi.not_faulted (by simp [hp])); simpa [dirAt, hp] using
    this
  have hpost := hi.post (by simp [hp])
  have h1 := steps_open hi hr hp (hD.mono (by omega))
  rw [show 55 = 2 + 53 from rfl, steps_add h1]
  generalize hs1 : State.mk .. = s1 at h1 ⊢
  have hD1 : DriverOk 52 s1 := DriverOk.after (m := 2) hD (by simp [← hs1]) (by simp [← hs1])
  have h2 := steps_bits (m := 7) (s := s1) (by simp [← hs1, hr]) (by simp [← hs1]) (by simp [← hs1, h0, hn])
    (by simp [← hs1, hn]) (hD1.mono (by omega))
  rw [show 53 = 3 * (7 + 1) + 29 from rfl, steps_add h2]
  generalize hs2 : State.mk .. = s2 at h2 ⊢
  have hD2 : DriverOk 28 s2 := DriverOk.after (m := 24) hD1 (by simp [← hs2]) (by simp [← hs2])
  rw [steps_receive (ls := ls) (rest := rest) (by simp [← hs2, ← hs1, hr]) (by simp [← hs2, ← hs1, hk])
    (by simp [← hs2, ← hs1, hk]) (by simpa [postFits, ← hs2, ← hs1] using hpost) (by simp [← hs2, ← hs1, hj0])
    (by simp [← hs2, ← hs1, hrx]) hl (by simp [← hs2, ← hs1, hs]) hD2]
  have hb : s.txseq.getLsbD 7 = a.getLsbD 7 := by rw [ht]; exact txseq_low _ _ (by omega)
  rw [← hs2, ← hs1]
  have hbits := commandBits_eq a 0#8
  rw [← ht] at hbits
  cases hm : s.lineMayFail <;> simp [-BitVec.getLsbD_eq_getElem, hn, h0, hb, hdir, hbits, readTrace]

/-! A run compared with the run in which the driver cannot fail and the coming levels are all scheduled: the two do the
same line actions for as long as the driver lets them pass. -/

/-- The levels the next `m` draws give. -/
def freeLevels : Nat → Nat → List Level
  | 0, _ => []
  | m + 1, d => lvl (Config.freeBit d) :: freeLevels m (d + 1)

@[simp] theorem length_freeLevels (m d : Nat) : (freeLevels m d).length = m := by
  induction m generalizing d with
  | zero => rfl
  | succ m ih => simp [freeLevels, ih]

/-- `u` is `s` with a driver that cannot fail and with at least the next `n` levels scheduled. -/
def Sure (n : Nat) (s u : State) : Prop :=
  ∃ m, n ≤ m ∧ u = { s with
    samples := s.samples ++ freeLevels m s.draws
    lineMayFail := false
    reports := u.reports
    draws := u.draws }

/-- A draw gives the two the same level. -/
theorem Sure.drawLevel {n : Nat} {s u : State} (h : Sure (n + 1) s u) :
    (drawLevel u).1 = (drawLevel s).1 ∧ Sure n (drawLevel s).2 (drawLevel u).2 := by
  obtain ⟨m, hm, h⟩ := h
  cases hs : s.samples with
  | cons l ls =>
    have hu : u.samples = l :: (ls ++ freeLevels m s.draws) := by rw [h, hs]; rfl
    simp only [Machine.drawLevel, hs, hu, true_and]
    exact ⟨m, by omega, by rw [h]⟩
  | nil =>
    obtain ⟨m, rfl⟩ : ∃ k, m = k + 1 := ⟨m - 1, by omega⟩
    have hu : u.samples = lvl (Config.freeBit s.draws) :: freeLevels m (s.draws + 1) := by rw [h, hs]; rfl
    simp only [Machine.drawLevel, hs, hu, true_and]
    exact ⟨m, by omega, by rw [h]; simp⟩

/-- One line action that the driver lets pass, in both. -/
theorem step_sure {n : Nat} {s u : State} (hi : Inv s) (hiu : Inv u) (hr : s.resetPin = false) (hp : s.phase ≠ .idle)
    (hd : s.phase ≠ .done) (hD : DriverOk (n + 1) s) (h : Sure (n + 1) s u) :
    ∃ t v a, step s = .next t ∧ step u = .next v ∧ Sure n t v ∧ Inv t ∧ Inv v ∧ SameOutside s t ∧
      t.trace = s.trace ++ [a] ∧ t.responses = s.responses ∧ t.reports = (s.dropReports 1).reports ∧
      stepsLeft t + 1 = stepsLeft s := by
  obtain ⟨m, hm, hu⟩ := id h
  have hq : u.phase = s.phase := by rw [hu]
  have hru : u.resetPin = false := by rw [hu]; exact hr
  have hmu : u.lineMayFail = false := by rw [hu]
  have hDu : DriverOk 1 u := driverOk_of_cannot_fail _ hmu
  have hdu : u.dropReports 1 = u := by simp [State.dropReports, hmu]
  obtain ⟨t, ht, hit⟩ := seqStep_inv hi hp
  obtain ⟨v, hv, hiv⟩ := seqStep_inv hiu (by rwa [hq])
  refine ⟨t, v, ?_⟩
  rw [step_of_running hi hr hp, step_of_running hiu hru (by rwa [hq]), ht, hv]
  have hso := seqStep_sameOutside hi hp ht
  by_cases hx : s.phase = .rxS
  · rw [seqStep_rxS hx (hi.rxIndex hx)] at ht
    rw [seqStep_rxS (hq.trans hx) (hiu.rxIndex (hq.trans hx))] at hv
    have h' : Sure (n + 1) (s.dropReports 1) u := ⟨m, hm, by rw [dropReports_eq, hu]⟩
    obtain ⟨hl, k, hk, hs⟩ := h'.drawLevel
    simp only [actRead, driverReport_of_ok hD] at ht
    simp only [actRead, driverReport_of_ok hDu, hdu] at hv
    generalize hxs : drawLevel (s.dropReports 1) = ds at ht hl hs hk
    generalize hxu : drawLevel u = du at hv hl hs hk
    obtain ⟨l, s1⟩ := ds
    obtain ⟨l', u1⟩ := du
    have hs1 := drawLevel_frame (s.dropReports 1)
    rw [hxs] at hs1
    simp only [dropReports_eq] at hs1
    obtain rfl : l' = l := hl
    cases ht; cases hv
    refine ⟨.readLevel l', rfl, rfl, ⟨k, hk, ?_⟩, hit, hiv, hso, ?_, ?_, ?_, ?_⟩
    · simp only at hs; rw [hs]; rfl
    · rw [hs1]; simp [storeSample]
    · rw [hs1]; simp [storeSample]
    · rw [hs1]; simp [storeSample, dropReports_eq]
    · rw [hs1]; simp [storeSample, stepsLeft, hx]
  · obtain ⟨a, k, hT, he⟩ := seqStep_transition hi hp hd hx
    have hTu : Transition u a k := by
      rw [hu]; exact hT
    obtain ⟨a', k', hT', he'⟩ := seqStep_transition hiu (by rwa [hq]) (by rwa [hq]) (by rwa [hq])
    have : a' = a ∧ k' = k := by
      unfold Transition at hTu hT'
      split at hTu <;> rename_i hph <;> simp only [hph] at hT' <;>
        (first | exact hTu.elim | exact ⟨hT'.1.trans hTu.1.symm, hT'.2.trans hTu.2.symm⟩)
    obtain ⟨rfl, rfl⟩ := this
    rw [he, act_of_ok _ _ hD] at ht
    rw [he', act_of_ok _ _ hDu, hdu] at hv
    cases ht; cases hv
    refine ⟨a', rfl, rfl, ⟨m, by omega, ?_⟩, hit, hiv, hso, ?_, ?_, ?_, ?_⟩
    · rw [dropReports_eq, hT.frame, hT.frame (u.perform a')]
      rw [hu]
      rcases hT.follows with ⟨p, rfl⟩ | rfl | rfl | rfl <;> rcases a' with ⟨_ | _ | _, _⟩ | _ | _ <;> rfl
    · rw [hT.frame]; simp
    · rw [hT.frame]; simp
    · rw [hT.frame]; simp
    · rw [dropReports_eq]; exact stepsLeft_dec hi hT (d := s.draws)

/-- `n` line actions that the driver lets pass, in both. -/
theorem steps_sure : ∀ {n : Nat} {s u : State}, Inv s → Inv u → s.resetPin = false → n < stepsLeft s →
    DriverOk n s → Sure n s u →
    ∃ t v acts, steps n s = .next t ∧ steps n u = .next v ∧ Sure 0 t v ∧ Inv t ∧ Inv v ∧ SameOutside s t ∧
      t.trace = s.trace ++ acts ∧ acts.length = n ∧ t.responses = s.responses ∧
      t.reports = (if s.lineMayFail then s.reports.drop n else s.reports) ∧ stepsLeft t + n = stepsLeft s := by
  intro n
  induction n with
  | zero =>
    intro s u hi hiu _ _ _ h
    exact ⟨s, u, [], rfl, rfl, h, hi, hiu, ⟨rfl, rfl, rfl, rfl, rfl⟩, by simp, rfl, rfl, by simp, rfl⟩
  | succ n ih =>
    intro s u hi hiu hr hn hD h
    have hp : s.phase ≠ .idle := by intro hp; simp [stepsLeft, hp] at hn
    have hd : s.phase ≠ .done := by intro hp; simp [stepsLeft, hp] at hn
    obtain ⟨t, v, a, hs, hu, ht, hit, hiv, ho, htr, hre, hrp, hl⟩ := step_sure hi hiu hr hp hd hD h
    obtain ⟨o1, o2, o3, o4, o5⟩ := ho
    obtain ⟨t', v', acts, hs', hu', ht', hit', hiv', ⟨p1, p2, p3, p4, p5⟩, htr', hla, hre', hrp', hl'⟩ :=
      ih hit hiv (o4.trans hr) (by omega) (hD.drop o5 hrp) ht
    refine ⟨t', v', a :: acts, (steps_succ hs).trans hs', (steps_succ hu).trans hu', ht', hit', hiv',
      ⟨p1.trans o1, p2.trans o2, p3.trans o3, p4.trans o4, p5.trans o5⟩, by rw [htr', htr]; simp, by simp [hla],
      hre'.trans hre, ?_, by omega⟩
    rw [hrp', hrp, o5]
    cases hm : s.lineMayFail <;> simp [hm]

/-- What a running transaction does is added at the end of the line trace. -/
theorem steps_trace_grows : ∀ {n : Nat} {s t : State}, Inv s → s.resetPin = false → n ≤ stepsLeft s →
    s.lineMayFail = false → steps n s = .next t → s.trace <+: t.trace := by
  intro n
  induction n with
  | zero => intro s t _ _ _ _ h; cases h; exact List.prefix_rfl
  | succ n ih =>
    intro s t hi hr hn hm h
    have hp : s.phase ≠ .idle := by intro hp; simp [stepsLeft, hp] at hn
    by_cases hd : s.phase = .done
    · obtain ⟨v, hv⟩ := complete_eq s
      have hs := (step_of_running hi hr hp).trans (seqStep_done hd)
      have : n = 0 := by simp [stepsLeft, hd] at hn; omega
      subst this
      rw [steps_succ hs, hv] at h; cases h; simp
    · have hu : Sure (n + 1) s { s with samples := s.samples ++ freeLevels (n + 1) s.draws, lineMayFail := false } :=
        ⟨n + 1, by omega, rfl⟩
      have hiu : Inv { s with samples := s.samples ++ freeLevels (n + 1) s.draws, lineMayFail := false } := by
        obtain ⟨h9, hfa, h10, h3, h1, h2, h4, h5, h6, h11, h12, h13, h8⟩ := hi
        constructor <;> assumption
      obtain ⟨t1, v, a, hs, -, -, hit, -, ho, htr, -, -, hl⟩ :=
        step_sure (n := n) hi hiu hr hp hd (driverOk_of_cannot_fail _ hm) hu
      rw [steps_succ hs] at h
      exact (htr ▸ List.prefix_append _ _).trans
        (ih hit (ho.2.2.2.1.trans hr) (by omega) (ho.2.2.2.2.trans hm) h)

/-- The first `k` line actions of a read that the driver lets pass are the first `k` of its line trace (R87, R154), for
eight levels that agree with those the peripheral presents. -/
theorem steps_read_prefix {s : State} {a : Byte} {k : Nat} (hi : Inv s) (hr : s.resetPin = false)
    (hp : s.phase = .bClk) (hk : s.kind = .read) (ht : s.txseq = 0#8 ++ a) (hlt : k < 54) (hD : DriverOk k s) :
    ∃ t ls, ls.length = 8 ∧ (ls <+: s.samples ∨ s.samples <+: ls) ∧ steps k s = .next t ∧ Inv t ∧ SameOutside s t ∧
      t.phase ≠ .idle ∧ t.phase ≠ .done ∧ t.trace = s.trace ++ (readTrace a ls).take k ∧ t.responses = s.responses ∧
      t.reports = if s.lineMayFail then s.reports.drop k else s.reports := by
  generalize hu : ({ s with samples := s.samples ++ freeLevels 54 s.draws, lineMayFail := false } : State) = u
  have hiu : Inv u := by
    obtain ⟨h9, hfa, h10, h3, h1, h2, h4, h5, h6, h11, h12, h13, h8⟩ := hi
    rw [← hu]; constructor <;> assumption
  have hsl : stepsLeft s = 55 := by
    have hn : s.ntx = 8 := by rw [hi.ntx, hk]; rfl
    have h0 : s.i = 0 := by have := hi.txCount; simpa [txCountFits, hp] using this
    simp [stepsLeft, hp, hk, hn, h0, tailSteps]
  obtain ⟨t, v, acts, hs, hv, ⟨m, -, htv⟩, hit, hiv, ho, htr, hla, hre, hrp, hl⟩ :=
    steps_sure hi hiu hr (by omega) hD ⟨54, by omega, by rw [← hu]⟩
  have hsm : u.samples = u.samples.take 8 ++ u.samples.drop 8 := (List.take_append_drop 8 _).symm
  have hfull := steps_read hiu (a := a) (ls := u.samples.take 8) (rest := u.samples.drop 8) (by rw [← hu]; exact hr)
    (by rw [← hu]; exact hp) (by rw [← hu]; exact hk) (by rw [← hu]; exact ht) (by rw [← hu]; simp) hsm
    (driverOk_of_cannot_fail _ (by rw [← hu]))
  rw [show 55 = k + (55 - k) by omega, steps_add hv] at hfull
  have hgrow := steps_trace_grows hiv (by rw [htv]; exact ho.2.2.2.1.trans hr)
    (by rw [htv]; exact le_of_eq (by simp [stepsLeft] at hl hsl ⊢; omega)) (by rw [htv]) hfull
  have huT : u.trace = s.trace := by rw [← hu]
  have hvT : v.trace = t.trace := by rw [htv]
  simp only [hvT, htr, huT] at hgrow
  refine ⟨t, u.samples.take 8, by rw [← hu]; simp, ?_, hs, hit, ho, ?_, ?_, ?_, hre, hrp⟩
  · rw [← hu]
    exact List.prefix_or_prefix_of_prefix (List.take_prefix _ _) (List.prefix_append _ _)
  · intro h
    have : stepsLeft t = 0 := by simp [stepsLeft, h]
    omega
  · intro h
    have : stepsLeft t = 1 := by simp [stepsLeft, h]
    omega
  · have := List.prefix_iff_eq_take.mp ((List.prefix_append_right_inj _).mp hgrow)
    rw [htr, this, hla]

end Sys2Proof.Machine
end

