-- ==== Sys2Proof/Tests/Slice0.lean ====
section
/-! SUPPORT. The model's own tests: what WellFormed refuses, words written out from the encodings, single steps with results
from spec/95_test_vectors.md or worked out by hand from the rules, and a witness for every statement with hypotheses. -/

namespace Sys2Proof.Tests

open Sys2Proof Sys2Proof.Machine

/-- The state of a next outcome satisfies a check. -/
def okNext (o : Host.Outcome State Fault Refusal) (check : State → Bool) : Bool :=
  match o with
  | .next t => check t
  | .fault _ => false
  | .refused _ => false

/-- Ready in IDLE, the host about to issue `words` one procedure each, the peripheral about to present `samples`. -/
def ready (words : List Word) (samples : List Level) : State :=
  { State.reset with todo := words.map fun w => ⟨w, []⟩, samples := samples }

/-- A transaction about to open: the latches after acceptance (R75). -/
def opening (kind : Kind) (a d : Byte) : State := State.reset.load kind a d

/-- The latch state of a write of 0x59 to 0x80 in a phase of its transmission, `i` bits sent. -/
def sending (p : Phase) (i : BitVec 5) : State :=
  { opening .write 0x80 0x59 with phase := p, i := i, ce := .high }

/-- A read of 0x81 in a phase of its reception, `j` bits sampled. -/
def receiving (p : Phase) (j : BitVec 4) : State :=
  { opening .read 0x81 0 with
    phase := p, i := 8, j := j, ce := .high, dataDir := .input, dataOut := .high, samples := [.high] }

/-! WellFormed refuses each ill-formed term: an inverted tens range, an inverted ones range with and without a tens range
(R64, R67 check 3; D-18, D-19). -/

theorem test_wellFormed_inverted_tens : WellFormed (.bcddec (some ⟨0, 4⟩) ⟨3, 0⟩ 0) = false := by decide
theorem test_wellFormed_inverted_ones : WellFormed (.bcddec (some ⟨6, 4⟩) ⟨1, 2⟩ 0) = false := by decide
theorem test_wellFormed_inverted_ones_alone : WellFormed (.bcddec none ⟨1, 2⟩ 0) = false := by decide
theorem test_wellFormed_one_bit_ranges : WellFormed (.bcddec (some ⟨4, 4⟩) ⟨7, 7⟩ 0) = true := by decide

/-! Decoding, bit by bit from R57 and R62 to R65: OP, the fields from the top, the operands. -/

/-- R62: OP 0001, D 0, A 1000 0001 (D-4). -/
theorem test_decode_rdreg : decode 0b0001_000000000000_00000000_10000001#32 = .ok (.rdreg 0x81) := by decide
/-- R62: OP 0010, D 0101 1001, A 1000 0000 (D-7). -/
theorem test_decode_wrreg : decode 0b0010_000000000000_01011001_10000000#32 = .ok (.wrreg 0x80 0x59) := by decide
/-- R63: OP 0011, X 0001 0010. -/
theorem test_decode_rev8 : decode 0b0011_00000000000000000000_00010010#32 = .ok (.rev8 0x12) := by decide
/-- R63: OP 0100, X 0110 0011 (D-11). -/
theorem test_decode_bcdenc : decode 0b0100_00000000000000000000_01100011#32 = .ok (.bcdenc 99) := by decide
/-- R64: OP 0101, T 1, THI 110, TLO 100, OHI 011, OLO 000, X 0101 1001 (DEC-1). -/
theorem test_decode_bcddec :
    decode 0b0101_1_110_100_011_000_0000000_01011001#32 = .ok (.bcddec (some ⟨6, 4⟩) ⟨3, 0⟩ 0x59) := by decide
/-- R64: OP 0101, T 0, OHI 010, OLO 000, X 0000 0101 (D-16). -/
theorem test_decode_bcddec_ones_alone :
    decode 0b0101_0_000_000_010_000_0000000_00000101#32 = .ok (.bcddec none ⟨2, 0⟩ 0x05) := by decide
/-- R65: OP 0110, FLD 111, DIR 1 (D-22). -/
theorem test_decode_mapaddr : decode 0b0110_0_111_0000000_1_00000000_00000000#32 = .ok (.mapaddr .wp .read) := by
  decide
/-- R65: OP 0111, FLD 011. -/
theorem test_decode_fget : decode 0b0111_0_011_0000000_0_00000000_00000000#32 = .ok .fgetDay := by decide
/-- R65: OP 1000, FLD 101, V 1111 1111 (D-32: a legal word). -/
theorem test_decode_fset : decode 0b1000_0_101_0000000_0_00000000_11111111#32 = .ok (.fsetWday 255) := by decide
/-- R57: ONE 1, B6 0, REG 00110, RW 0, with the data byte 0010 0100 above. -/
theorem test_decode_wire_write : decodeWire 0b00100100_1_0_00110_0#16 = .ok (.wYearW 0x24) := by decide
/-- R57: ONE 1, B6 0, REG 00111, RW 1. -/
theorem test_decode_wire_read : decodeWire 0b00000000_1_0_00111_1#16 = .ok .wWpR := by decide

/-! Rejection, by the name of the check (R67; D-3, D-13, D-17, D-18, D-25, D-33) and of the wire table (R49). -/

theorem test_reject_opcode : decode 0xF0000000 = .error .opcode := by decide
theorem test_reject_unary_reserved : decode 0x4F000000 = .error .reservedBits := by decide
theorem test_reject_tens_without_t : decode 0x51000005 = .error .reservedBits := by decide
theorem test_reject_inverted_tens : decode 0x58800000 = .error .invertedRange := by decide
theorem test_reject_field_reserved : decode 0x60020000 = .error .reservedBits := by decide
theorem test_reject_write_protect_field : decode 0x87000000 = .error .noSuchField := by decide
theorem test_reject_wire_bit6 : decodeWire 0x00C0 = .error .notInTable := by decide
theorem test_reject_wire_index8 : decodeWire 0x0090 = .error .notInTable := by decide
theorem test_reject_wire_data_after_read : decodeWire 0x0181 = .error .dataAfterRead := by decide

/-! The host's two questions, on a row of each format. -/

theorem test_table_word : decodeTableWord 32 0x86000000 = some (.fsetYear 0) := by decide
theorem test_table_byte : decodeTableWord 8 0x8E = some (.wWpW 0) := by decide
theorem test_table_byte_unknown : decodeTableWord 8 0x40 = none := by decide
/-- REV-3, run as the first instruction after reset. -/
theorem test_fetch_word_runs : okNext (step (State.reset.withFetchWord 32 0x30000001)) (fun t =>
    t.result == 0x0080 && t.err == 0 && t.todo == []) = true := by decide
/-- W.HOUR.R, run as the first instruction after reset: a read transaction is open, and CLOCK was set low. -/
theorem test_fetch_byte_runs : okNext (step (State.reset.withFetchWord 8 0x85)) (fun t =>
    t.phase == .bCe && t.kind == .read && t.txseq == 0x0085 && t.ntx == 8 &&
      t.trace == State.reset.trace ++ [.setLevel .clock .low]) = true := by decide

/-! The codec, the mapper and the reversal (REV-6, ENC-3, ENC-6, DEC-6 to DEC-9, DEC-12, section 2.5). -/

theorem test_rev8 : okNext (exec (.rev8 0x8C) State.reset) (fun t => t.result == 0x31) = true := by decide
theorem test_bcdenc_ten : okNext (exec (.bcdenc 10) State.reset) (fun t => t.result == 0x10) = true := by decide
theorem test_bcdenc_99 : okNext (exec (.bcdenc 99) State.reset) (fun t => t.result == 0x99) = true := by decide
/-- ENC-7: any byte, no error; the error code is what the spec fixes. -/
theorem test_bcdenc_100 : okNext (exec (.bcdenc 100) State.reset) (fun t => t.err == 0 && !t.busy) = true := by
  decide
theorem test_bcddec_widest : okNext (exec (.bcddec (some ⟨7, 0⟩) ⟨7, 0⟩ 0xFF) State.reset) (fun t =>
    t.result == 2805) = true := by decide
theorem test_bcddec_overlap : okNext (exec (.bcddec (some ⟨7, 4⟩) ⟨7, 4⟩ 0x5A) State.reset) (fun t =>
    t.result == 55) = true := by decide
theorem test_mapaddr : okNext (exec (.mapaddr .wp .write) State.reset) (fun t => t.result == 0x8E) = true := by
  decide
/-- FG-4, FG-13, FG-21, FG-26, FG-31: the masks of R96 on bytes outside BCD. -/
theorem test_decodeField : decodeField .sec 0x5A = 60 ∧ decodeField .hour 0x3F = 45 ∧ decodeField .month 0xE0 = 0 ∧
    decodeField .wday 0xF8 = 0 ∧ decodeField .year 0xFF = 165 := by decide

/-! Acceptance, one of each kind: the operands go to their places (R75), no other command's latch is kept. -/

theorem test_wrreg_latches : okNext (exec (.wrreg 0x80 0x59) State.reset) (fun t =>
    t.txseq == 0x5980 && t.kind == .write && t.ntx == 16 && t.phase == .bClk && t.busy &&
      t.trace == State.reset.trace) = true := by decide
theorem test_fgetMin_latches : okNext (exec .fgetMin State.reset) (fun t =>
    t.txseq == 0x0083 && t.kind == .read && t.post == .dec .min && t.fld == 1) = true := by decide
/-- FS-38: FSET.YEAR 24 sends 0x8C, 0x24. -/
theorem test_fsetYear_latches : okNext (exec (.fsetYear 24) State.reset) (fun t =>
    t.txseq == 0x248C && t.kind == .write && t.post == .discard && t.fld == 6) = true := by decide
/-- FS-31 and FS-34: the weekday's bounds. -/
theorem test_fsetWday_bounds : okNext (exec (.fsetWday 0) State.reset) (fun t => t.err == 1) = true ∧
    okNext (exec (.fsetWday 8) State.reset) (fun t => t.err == 1) = true ∧
    okNext (exec (.fsetWday 7) State.reset) (fun t => t.txseq == 0x078A) = true := by decide
/-- ER-2: a reserved bit wins over a weekday of 0. -/
theorem test_illegal_before_validation : okNext (step (ready [0x85000100] [])) (fun t =>
    t.err == 2 && t.result == 0 && t.status == 0x08) = true := by decide
/-- LF-3: FAULTED wins over ILLEGAL_COMMAND. -/
theorem test_faulted_before_illegal :
    okNext (step { ready [0x00000000] [] with faulted := true }) (fun t => t.err == 4 && t.status == 0x12) = true := by
  decide

/-! One step of the sequencer, a phase each (R81, R86, R87). -/

/-- Bit 3 of the data byte 0x59, sent as bit 11, is HIGH. -/
theorem test_txD_sends_data_bit : okNext (step (sending .txD 11)) (fun t =>
    t.dataOut == .high && t.phase == .txH) = true := by decide
theorem test_txL_last_bit_of_write : okNext (step { sending .txL 15 with clk := .high }) (fun t =>
    t.clk == .low && t.i == 16 && t.phase == .eCe) = true := by decide
theorem test_txL_last_bit_of_read : okNext (step { receiving .txL 0 with i := 7, dataDir := .output }) (fun t =>
    t.phase == .turn) = true := by decide
theorem test_turn : okNext (step { receiving .turn 0 with dataDir := .output }) (fun t =>
    t.dataDir == .input && t.dataOut == .high && t.phase == .rxL) = true := by decide
/-- A HIGH fourth sample is bit 3 of RX. -/
theorem test_rxS_stores_sample : okNext (step (receiving .rxS 3)) (fun t =>
    t.rx == 0x08 && t.samples == [] && t.phase == .rxH) = true := by decide
theorem test_rxH_last_sample : okNext (step (receiving .rxH 7)) (fun t =>
    t.clk == .high && t.j == 8 && t.phase == .eCe) = true := by decide
theorem test_eDir_restores_output : okNext (step { receiving .eDir 8 with ce := .low }) (fun t =>
    t.dataDir == .output && t.dataOut == .high && t.phase == .done) = true := by decide
/-- FG-2: 0x59 received for FGET.SEC completes with 59. -/
theorem test_done_decodes : okNext (step { receiving .done 8 with rx := 0x59, post := .dec .sec }) (fun t =>
    t.result == 59 && t.err == 0 && t.phase == .idle && !t.busy && t.responses == [⟨59, 0⟩]) = true := by decide
/-- RD-1's last step: RDREG answers the received byte. -/
theorem test_done_answers_byte : okNext (step { receiving .done 8 with rx := 0x0A }) (fun t =>
    t.result == 0x000A && t.err == 0) = true := by decide
/-- LF-1: the first `SetLevel(CLOCK, LOW)` of the read phase fails: CE stays HIGH, DATA an input, STATUS is 0x0E. -/
theorem test_line_fault : okNext (step { receiving .rxL 0 with lineMayFail := true, reports := [true] }) (fun t =>
    t.clk == .low && t.ce == .high && t.dataDir == .input && t.dataOut == .high && t.err == 3 && t.result == 0 &&
      t.status == 0x0E && t.trace == State.reset.trace) = true := by decide
/-- RS-1: reset from `(HIGH, HIGH, INPUT, HIGH)`, faulted. -/
theorem test_reset : okNext (step { receiving .idle 0 with clk := .high, faulted := true, err := 3, resetPin := true })
    (fun t => t.clk == .low && t.ce == .low && t.dataDir == .output && t.dataOut == .low && t.status == 0 &&
      t.trace == State.reset.trace ++
        [.setLevel .ce .low, .setLevel .clock .low, .setDir .output, .setLevel .data .low]) = true := by decide

/-! The host: HP-3, R142, and the texts of R143, R146 to R148. -/

theorem test_writeDate_words : writeDate 3 11 24 = ⟨0x83000003, [0x8400000B, 0x86000018]⟩ := by decide
theorem test_procedure_stops : okNext (step { ready [0x30000001] [] with proc := [0x80000000], err := 1 }) (fun t =>
    t.proc == [] && t.todo == [⟨0x30000001, []⟩] && t.responses == []) = true := by decide
/-- R142, R146: READTIME stopped by a line fault at its last read presents the error, not the RESULTs at hand, nor those
of earlier commands. -/
theorem test_failed_read_presents_error :
    let s : State := { State.reset with responses := [⟨9, 0⟩, ⟨7, 0⟩, ⟨5, 0⟩, ⟨0, 3⟩], procBegan := 1 }
    presentReport timeText s = some (.error 3) := by decide
/-- HP-1's shape: the three RESULTs since the procedure began, while none of its words is left. -/
theorem test_report_of_three_reads :
    let s : State := { State.reset with responses := [⟨0, 1⟩, ⟨9, 0⟩, ⟨5, 0⟩, ⟨0, 0⟩], procBegan := 1 }
    presentReport timeText s = some (.ok "09:05:00".toList) ∧
      procedureReport { s with proc := [0x70000000] } = none ∧ procedureReport { s with busy := true } = none := by decide
/-- R167: a procedure that reset cut short reports nothing. -/
theorem test_abandoned_procedure_reports_nothing : okNext (step { receiving .rxS 3 with
    responses := [⟨9, 0⟩, ⟨5, 0⟩], resetPin := true }) (fun t => procedureReport t == none && t.proc == []) = true := by
  decide
theorem test_fmt2 : fmt2 5 = "05".toList ∧ fmt2 14 = "14".toList ∧ fmt2 165 = "165".toList := by decide
theorem test_texts : timeText 9 5 0 = "09:05:00".toList ∧ dateText 3 11 24 = "03.11.2024".toList := by decide

/-! Witnesses: for every statement of Certificates/Slice0/Obligations.lean with hypotheses, a state and operands that meet
them together, with the boundary values of each clause. -/

/-- Ready, with the host about to run one procedure, `n` reports of success and the line driver able to fail. -/
def hosting (p : Procedure) (samples : List Level) (n : Nat) : State :=
  { State.reset with
    todo := [p], samples := samples, lineMayFail := true, reports := List.replicate n false, err := 2 }

theorem hosting_inv (p : Procedure) (samples : List Level) (n : Nat) : Inv (hosting p samples n) := by
  refine ⟨rfl, ?_, (by decide : (2#3).toNat ≤ 4), rfl, rfl, rfl, rfl, rfl, ?_, ?_, ?_, ?_, rfl⟩ <;> intros <;>
    first | rfl | contradiction

theorem hosting_ok (p : Procedure) (samples : List Level) (n : Nat) : DriverOk n (hosting p samples n) :=
  fun _ => ⟨[], (List.append_nil _).symm⟩

theorem opening_write_inv : Inv (opening .write 0x80 0x59) := by constructor <;> decide
theorem opening_read_inv : Inv (opening .read 0x81 0) := by constructor <;> decide
theorem receiving_rxS_inv : Inv (receiving .rxS 3) := by constructor <;> decide
theorem receiving_done_inv : Inv { receiving .done 8 with ce := .low, dataDir := .output } := by constructor <;> decide

theorem witness_clear_state : (hosting readTime [] 3).faulted = false := by decide
theorem witness_bcdenc_operands : (0 : Byte).toNat ≤ 99 ∧ (99 : Byte).toNat ≤ 99 ∧ 99 < (100 : Byte).toNat ∧
    99 < (255 : Byte).toNat := by decide
theorem witness_bcddec_wellFormed : WellFormed (.bcddec (some ⟨7, 0⟩) ⟨7, 0⟩ 0xFF) = true ∧
    WellFormed (.bcddec (some ⟨4, 4⟩) ⟨3, 0⟩ 0x12) = true ∧ WellFormed (.bcddec none ⟨7, 7⟩ 0x80) = true := by decide
/-- At each field's limit the decode gives the value back, one above it (where FSET admits one) it does not. -/
theorem witness_field_limits : decodeField .sec (enc 79) = 79 ∧ decodeField .sec (enc 80) ≠ 80 ∧
    decodeField .hour (enc 39) = 39 ∧ decodeField .day (enc 40) ≠ 40 ∧ decodeField .month (enc 19) = 19 ∧
    decodeField .month (enc 20) ≠ 20 ∧ decodeField .wday (enc 7) = 7 ∧ decodeField .wday (enc 8) ≠ 8 ∧
    decodeField .year (enc 99) = 99 := by decide
theorem witness_fset_operands : fsetAccepts .sec 0 = true ∧ fsetAccepts .year 99 = true ∧ fsetAccepts .min 100 = false ∧
    fsetAccepts .wday 1 = true ∧ fsetAccepts .wday 7 = true ∧ fsetAccepts .wday 0 = false ∧
    fsetAccepts .wday 8 = false := by decide
theorem witness_fget_member : (TimeField.year, 0x8D#8) ∈
    [(TimeField.sec, 0x81#8), (.min, 0x83), (.hour, 0x85), (.day, 0x87), (.month, 0x89), (.wday, 0x8B),
      (.year, 0x8D)] := by decide
theorem witness_wire_opens : (hosting readTime [] 1).faulted = false ∧ DriverOk 1 (hosting readTime [] 1) :=
  ⟨rfl, hosting_ok _ _ _⟩

theorem witness_presented_first : ∃ (s : State) (w : Word) (i : Instr), s.resetPin = false ∧ s.phase = .idle ∧
    s.busy = false ∧ decode w = .ok i ∧ s.proc = [] ∧ s.todo = [⟨w, []⟩] :=
  ⟨ready [0x30000001] [], 0x30000001, .rev8 1, by decide⟩
theorem witness_presented_next : ∃ (s : State) (w : Word) (i : Instr), s.resetPin = false ∧ s.phase = .idle ∧
    s.busy = false ∧ decode w = .ok i ∧ s.proc = [w, 0x70000000] ∧ s.err = 0 :=
  ⟨{ ready [] [] with proc := [0x71000000, 0x70000000] }, 0x71000000, .fgetMin, by decide⟩
theorem witness_illegal_word (i : Instr) : decode 0x77000000 ≠ .ok i := by
  rw [show decode 0x77000000 = .error .noSuchField by decide]
  exact fun h => by cases h
theorem witness_presented_illegal : ∃ (s : State) (w : Word), s.resetPin = false ∧ s.phase = .idle ∧ s.busy = false ∧
    (∀ i, decode w ≠ .ok i) ∧ s.proc = [] ∧ s.todo = [⟨w, []⟩] :=
  ⟨ready [0x77000000] [], 0x77000000, by decide, by decide, by decide,
    witness_illegal_word, by decide⟩
theorem witness_wire_in_latch : (opening .write 0x80 0x59).resetPin = false ∧ (opening .write 0x80 0x59).phase = .bClk ∧
    (opening .write 0x80 0x59).ntx = 16 ∧
    (opening .write 0x80 0x59).txseq = ((0x59#8).setWidth 16 <<< 8) ||| tableWriteByte .sec ∧
    (opening .read 0x81 0).ntx = 8 ∧ (opening .read 0x81 0).txseq = tableReadByte .sec := by decide
theorem witness_fetch_words : decode (BitVec.ofNat 32 0x76000000) = .ok .fgetYear ∧
    decodeWire (BitVec.ofNat 16 0x8F) = .ok .wWpR ∧ decodeWire (BitVec.ofNat 16 0x80) = .ok (.wSecW 0) := by decide
theorem witness_nothing_presented : State.reset.resetPin = false ∧ State.reset.phase = .idle ∧ State.reset.proc = [] ∧
    State.reset.todo = [] := by decide

/-- Faulted, and a reset applied clears the flag. -/
theorem witness_faulted_reset : okNext (step { receiving .idle 3 with faulted := true, err := 3, resetPin := true })
    (fun t => !t.faulted) = true := by decide
/-- Faulted with CE left HIGH and DATA an input: the next word is answered. -/
theorem witness_faulted_state : ∃ s t : State, Inv s ∧ s.faulted = true ∧ s.resetPin = false ∧ s.ce = .high ∧
    s.dataDir = .input ∧ step s = .next t ∧ t.err = 4 :=
  ⟨{ receiving .idle 3 with faulted := true, err := 3, busy := false, todo := [⟨0, []⟩] }, _,
    by constructor <;> decide, by decide, by decide, by decide, by decide, rfl, by decide⟩
/-- The errors of R157 that apply to a word at acceptance, and a word to which none applies. -/
theorem witness_error_clauses : decode 0x85000000 = .ok (Instr.fset .wday 0) ∧ fsetAccepts .wday 0 = false ∧
    decode 0x85000001 = .ok (Instr.fset .wday 1) ∧ fsetAccepts .wday 1 = true ∧
    decode 0x85000100 = .error .reservedBits := by decide

theorem witness_one_action : ∃ t, step (opening .write 0x80 0x59) = .next t ∧ t.faulted = false ∧
    (opening .write 0x80 0x59).busy = true ∧ (opening .write 0x80 0x59).phase ≠ .done :=
  ⟨_, rfl, by decide⟩
theorem witness_done_no_action : ∃ t, step { receiving .done 8 with ce := .low, dataDir := .output } = .next t ∧
    t.faulted = false ∧ t.trace = State.reset.trace :=
  ⟨_, rfl, by decide⟩
theorem witness_line_action_fails : ∃ s : State, Inv s ∧ s.resetPin = false ∧ s.phase = .rxL ∧ DriverFails s :=
  ⟨{ receiving .rxL 0 with lineMayFail := true, reports := [true] }, by constructor <;> decide, by decide, by decide,
    rfl, [], rfl⟩
theorem witness_line_cannot_fail : ∃ t, (opening .read 0x81 0).lineMayFail = false ∧
    (opening .read 0x81 0).faulted = false ∧ (opening .read 0x81 0).err ≠ 3 ∧ step (opening .read 0x81 0) = .next t :=
  ⟨_, by decide, by decide, by decide, rfl⟩
theorem witness_line_action_unscheduled : ∃ s : State, Inv s ∧ s.resetPin = false ∧ s.phase = .rxS ∧
    s.lineMayFail = true ∧ s.reports = [] :=
  ⟨{ receiving .rxS 3 with lineMayFail := true }, by constructor <;> decide, by decide, by decide, rfl, rfl⟩

theorem witness_rdreg_run : ∃ (a : Byte) (ls rest : List Level) (ps : List Procedure) (s : State), Inv s ∧
    s.resetPin = false ∧ s.phase = .idle ∧ s.faulted = false ∧ s.proc = [] ∧ s.todo = ⟨0x10000000#32 ||| a.setWidth 32, []⟩ :: ps ∧ ls.length = 8 ∧
    s.samples = ls ++ rest ∧ DriverOk 54 s :=
  ⟨0x81, List.replicate 8 .high, [.low], [], hosting ⟨0x10000081, []⟩ (List.replicate 8 .high ++ [.low]) 54,
    hosting_inv _ _ _, by decide, by decide, by decide, by decide, by decide, by decide, by decide, hosting_ok _ _ _⟩
theorem witness_wrreg_run : ∃ (a d : Byte) (ps : List Procedure) (s : State), Inv s ∧ s.resetPin = false ∧
    s.phase = .idle ∧ s.faulted = false ∧ s.proc = [] ∧
    s.todo = ⟨0x20000000#32 ||| (d.setWidth 32 <<< 8) ||| a.setWidth 32, []⟩ :: ps ∧
    DriverOk 52 s :=
  ⟨0x80, 0x59, [], hosting ⟨0x20005980, []⟩ [] 52, hosting_inv _ _ _, by decide, by decide, by decide, by decide,
    by decide, hosting_ok _ _ _⟩
theorem witness_fget_run : ∃ (f : TimeField) (a : Byte) (value : Byte → Nat) (ls rest : List Level)
    (ps : List Procedure) (s : State), (f, a, value) ∈
      [(TimeField.sec, 0x81#8, fun x : Byte => (x.extractLsb 6 4).toNat * 10 + (x.extractLsb 3 0).toNat),
        (.min, 0x83, fun x => (x.extractLsb 6 4).toNat * 10 + (x.extractLsb 3 0).toNat),
        (.hour, 0x85, fun x => (x.extractLsb 5 4).toNat * 10 + (x.extractLsb 3 0).toNat),
        (.day, 0x87, fun x => (x.extractLsb 5 4).toNat * 10 + (x.extractLsb 3 0).toNat),
        (.month, 0x89, fun x => (x.extractLsb 4 4).toNat * 10 + (x.extractLsb 3 0).toNat),
        (.wday, 0x8B, fun x => (x.extractLsb 2 0).toNat),
        (.year, 0x8D, fun x => (x.extractLsb 7 4).toNat * 10 + (x.extractLsb 3 0).toNat)] ∧ Inv s ∧
    s.resetPin = false ∧ s.phase = .idle ∧ s.faulted = false ∧ s.proc = [] ∧
    s.todo = ⟨0x70000000#32 ||| (f.code.setWidth 32 <<< 24), []⟩ :: ps ∧ ls.length = 8 ∧ s.samples = ls ++ rest ∧
    DriverOk 54 s :=
  ⟨.wday, 0x8B, fun x => (x.extractLsb 2 0).toNat, List.replicate 8 .low, [], [],
    hosting ⟨0x75000000, []⟩ (List.replicate 8 .low) 54, by simp, hosting_inv _ _ _,
    by decide, by decide, by decide, by decide, by decide, by decide, by decide, hosting_ok _ _ _⟩
theorem witness_fset_run : ∃ (v : Byte) (ps : List Procedure) (s : State), Inv s ∧ s.resetPin = false ∧
    s.phase = .idle ∧ s.faulted = false ∧ s.proc = [] ∧
    s.todo = ⟨0x80000000#32 ||| (TimeField.wday.code.setWidth 32 <<< 24) ||| v.setWidth 32, []⟩ :: ps ∧ 1 ≤ v.toNat ∧
    v.toNat ≤ 7 ∧ DriverOk 52 s :=
  ⟨7, [], hosting ⟨0x85000007, []⟩ [] 52, hosting_inv _ _ _, by decide, by decide, by decide, by decide, by decide,
    by decide, by decide, hosting_ok _ _ _⟩
theorem witness_wire_write_run : Inv (opening .write 0x80 0x59) ∧ (opening .write 0x80 0x59).resetPin = false ∧
    (opening .write 0x80 0x59).phase = .bClk ∧ (opening .write 0x80 0x59).kind = .write ∧
    (opening .write 0x80 0x59).txseq = ((0x59#8).setWidth 16 <<< 8) ||| tableWriteByte .sec ∧
    DriverOk 52 (opening .write 0x80 0x59) :=
  ⟨opening_write_inv, by decide, by decide, by decide, by decide, driverOk_of_cannot_fail _ rfl⟩
theorem witness_wire_read_run : ∃ s : State, Inv s ∧ s.resetPin = false ∧ s.phase = .bClk ∧ s.kind = .read ∧
    s.txseq = tableReadByte .sec ∧ s.samples = List.replicate 8 .high ++ [] ∧ DriverOk 54 s :=
  ⟨{ opening .read 0x81 0 with samples := List.replicate 8 .high }, by constructor <;> decide, by decide, by decide,
    by decide, by decide, by decide, driverOk_of_cannot_fail _ rfl⟩
theorem witness_running : Inv (receiving .rxS 3) ∧ (receiving .rxS 3).resetPin = false ∧
    (receiving .rxS 3).phase ≠ .idle :=
  ⟨receiving_rxS_inv, by decide, by decide⟩
theorem witness_samples : 55 ≤ stepsLeft (opening .read 0x81 0) ∧ 53 ≤ stepsLeft (opening .write 0x80 0x59) ∧
    DriverOk 55 (opening .read 0x81 0) :=
  ⟨by decide, by decide, driverOk_of_cannot_fail _ rfl⟩
theorem witness_inv_step : ∃ s t : State, Inv s ∧ step s = .next t :=
  ⟨receiving .rxS 3, _, receiving_rxS_inv, rfl⟩
theorem witness_reachable : Reachable { State.reset with lineMayFail := true, resetPin := true } :=
  .outside (.start true) rfl
theorem witness_data_read : ∃ t, step (receiving .rxS 3) = .next t ∧
    t.trace = (receiving .rxS 3).trace ++ [.readLevel .high] :=
  ⟨_, rfl, by decide⟩
theorem witness_ce_rises : ∃ s t : State, Inv s ∧ s.resetPin = false ∧ step s = .next t ∧ s.ce = .low ∧ t.ce = .high :=
  ⟨{ opening .write 0x80 0x59 with phase := .bCe }, _, by constructor <;> decide, by decide, rfl, by decide, by decide⟩
theorem witness_data_changes : ∃ s t : State, Inv s ∧ s.resetPin = false ∧ step s = .next t ∧ s.dataOut ≠ t.dataOut :=
  ⟨sending .txD 7, _, by constructor <;> decide, by decide, rfl, by decide⟩
theorem witness_direction_switch : ∃ s t : State, s.resetPin = false ∧ step s = .next t ∧ t.dataDir ≠ s.dataDir :=
  ⟨{ receiving .turn 0 with dataDir := .output }, _, by decide, rfl, by decide⟩
theorem witness_response : ∃ s t : State, Inv s ∧ s.resetPin = false ∧ step s = .next t ∧ t.responses ≠ s.responses :=
  ⟨{ receiving .done 8 with ce := .low, dataDir := .output }, _, receiving_done_inv, by decide, rfl, by decide⟩
theorem witness_no_response : ∃ s t : State, Inv s ∧ s.resetPin = false ∧ step s = .next t ∧ t.responses = s.responses :=
  ⟨receiving .rxS 3, _, receiving_rxS_inv, by decide, rfl, by decide⟩
theorem witness_reset_pin : ({ receiving .rxS 3 with resetPin := true } : State).resetPin = true := rfl
theorem witness_code_decodes : decodeCode (.host 0x5E8C0059) = .ok (.bcddec (some ⟨6, 4⟩) ⟨3, 0⟩ 0x59) ∧
    decodeCode (.wire 0x0087) = .ok .wDayR := by decide
theorem witness_row_hit : (⟨"FSET.SEC", 0x80000000, 0xFFFFFF00⟩ : OpcodeRow) ∈ hostRows ∧
    OpcodeRow.hits ⟨"FSET.SEC", 0x80000000, 0xFFFFFF00⟩ 0x80000063 = true := by decide
theorem witness_procedure_failed : ∃ s : State, s.resetPin = false ∧ s.phase = .idle ∧ s.busy = false ∧ s.proc ≠ [] ∧
    s.err ≠ 0 :=
  ⟨{ ready [] [] with proc := [0x80000000], err := 1 }, by decide⟩
theorem witness_writeTime : ∃ (h m sec : Byte) (s : State), Inv s ∧ s.resetPin = false ∧ s.phase = .idle ∧
    s.faulted = false ∧ s.proc = [] ∧ s.todo = [writeTime h m sec] ∧ h.toNat ≤ 99 ∧ m.toNat ≤ 99 ∧ sec.toNat ≤ 99 ∧
    DriverOk 156 s :=
  ⟨23, 59, 99, hosting (writeTime 23 59 99) [] 156, hosting_inv _ _ _, by decide, by decide, by decide, by decide, rfl,
    by decide, by decide, by decide, hosting_ok _ _ _⟩
theorem witness_readTime : ∃ (ls : List Level) (s : State), Inv s ∧ s.resetPin = false ∧ s.phase = .idle ∧
    s.faulted = false ∧ s.proc = [] ∧ s.todo = [readTime] ∧ ls.length = 8 ∧ s.samples = ls ++ ls ++ ls ++ [] ∧
    DriverOk 162 s :=
  ⟨List.replicate 8 .high, hosting readTime (List.replicate 24 .high) 162, hosting_inv _ _ _, by decide, by decide,
    by decide, by decide, rfl, by decide, by decide, hosting_ok _ _ _⟩
theorem witness_writeDate : ∃ (d mo y : Byte) (s : State), Inv s ∧ s.resetPin = false ∧ s.phase = .idle ∧
    s.faulted = false ∧ s.proc = [] ∧ s.todo = [writeDate d mo y] ∧ d.toNat ≤ 99 ∧ mo.toNat ≤ 99 ∧ y.toNat ≤ 99 ∧
    DriverOk 156 s :=
  ⟨31, 12, 99, hosting (writeDate 31 12 99) [] 156, hosting_inv _ _ _, by decide, by decide, by decide, by decide, rfl,
    by decide, by decide, by decide, hosting_ok _ _ _⟩
theorem witness_readDate : ∃ (ls : List Level) (s : State), Inv s ∧ s.resetPin = false ∧ s.phase = .idle ∧
    s.faulted = false ∧ s.proc = [] ∧ s.todo = [readDate] ∧ ls.length = 8 ∧ s.samples = ls ++ ls ++ ls ++ [] ∧
    DriverOk 162 s :=
  ⟨List.replicate 8 .high, hosting readDate (List.replicate 24 .high) 162, hosting_inv _ _ _, by decide, by decide,
    by decide, by decide, rfl, by decide, by decide, hosting_ok _ _ _⟩
theorem witness_writeTime_stops : ∃ (h m sec : Byte) (s : State), Inv s ∧ s.resetPin = false ∧ s.phase = .idle ∧
    s.faulted = false ∧ s.proc = [] ∧ s.todo = [writeTime h m sec] ∧ h.toNat ≤ 99 ∧ 99 < m.toNat ∧ DriverOk 52 s :=
  ⟨99, 100, 0, hosting (writeTime 99 100 0) [] 52, hosting_inv _ _ _, by decide, by decide, by decide, by decide, rfl,
    by decide, by decide, hosting_ok _ _ _⟩
/-- The last read fails at its first line action, and at its last. -/
theorem witness_readTime_faults : ∀ k ∈ [0, 53], ∃ (ls : List Level) (s : State), Inv s ∧ s.resetPin = false ∧
    s.phase = .idle ∧ s.faulted = false ∧ s.proc = [] ∧ s.todo = [readTime] ∧ ls.length = 8 ∧
    s.samples = ls ++ ls ++ [.low] ∧ k < 54 ∧ s.lineMayFail = true ∧
    s.reports = List.replicate (108 + k) false ++ true :: [] :=
  fun k hk => ⟨List.replicate 8 .high, { hosting readTime (List.replicate 16 .high ++ [.low]) 0 with
      reports := List.replicate (108 + k) false ++ [true] },
    (hosting_inv readTime (List.replicate 16 .high ++ [.low]) 0).outside rfl, rfl, rfl, rfl, rfl, rfl, rfl, rfl,
    by revert k; decide, rfl, rfl⟩
/-- A command that fails in a procedure in progress, with another word left. -/
theorem witness_failed_in_progress : ∃ s t : State, Inv s ∧ s.resetPin = false ∧ s.procBegan ≤ s.responses.length ∧
    s.proc ≠ [] ∧ (∀ r ∈ s.responses.drop s.procBegan, r.err = 0) ∧ step s = .next t ∧ t.responses ≠ s.responses ∧
    t.err ≠ 0 ∧ t.proc ≠ [] :=
  ⟨{ ready [] [] with proc := [0x81000064, 0x80000000], responses := [⟨0, 0⟩] }, _, by constructor <;> decide,
    by decide, by decide, by decide, by decide, rfl, by decide⟩
/-- A command that fails as it begins its procedure, after an earlier one failed. -/
theorem witness_failed_first : ∃ s t : State, Inv s ∧ s.resetPin = false ∧ s.procBegan ≤ s.responses.length ∧
    s.busy = false ∧ s.proc = [] ∧ step s = .next t ∧ t.responses ≠ s.responses ∧ t.err ≠ 0 :=
  ⟨{ ready [0x81000064] [] with responses := [⟨0, 1⟩], err := 1 }, _, by constructor <;> decide, by decide, by decide,
    by decide, by decide, rfl, by decide⟩
theorem witness_runs_transaction : runsTransaction (.rdreg 0x81) = true ∧
    okNext (exec (.rdreg 0x81) State.reset) (fun t => t.phase != .idle && t.phase == .bClk) = true ∧
    okNext (exec (.fsetWday 7) State.reset) (fun t => t.phase == .bClk && t.post != .none) = true ∧
    okNext (exec .wSecR State.reset) (fun t => t.phase == .bCe) = true := by decide
theorem witness_text_bounds : (99 : Nat) < 100 ∧ (100 : Nat) ≤ 100 := by decide
/-- Seven distinct names exist, and an index 1 to 7. -/
theorem witness_weekday : ∃ names : Config.WeekdayNames, weekdayName names 0 1 = ['a'] ∧ weekdayName names 0 7 = ['g'] :=
  ⟨⟨[['a'], ['b'], ['c'], ['d'], ['e'], ['f'], ['g']], by decide, by decide⟩, by decide⟩

end Sys2Proof.Tests
end

section
/-! PROOF. The scope of the model (00_scope.md): every run from reset meets the invariant, whatever the other agents do,
and a line action that fails stops its transaction. -/

namespace Sys2Proof.Machine

/-! The invariant along a run. -/

/-- A step in IDLE keeps the invariant, whatever word the host presents. -/
theorem hostStep_inv {s t : State} (hi : Inv s) (hp : s.phase = .idle) (h : hostStep s = .next t) : Inv t := by
  rcases hostStep_cases h with rfl | rfl | ⟨w, u, hw, hu⟩
  · exact hi
  · exact hi.host [] s.todo s.procBegan
  · have hfr := nextWord_frame hw
    have hiu : Inv u := hfr ▸ hi.host u.proc u.todo u.procBegan
    have hpu : u.phase = .idle := by rw [hfr]; exact hp
    rcases hu with ⟨i, hd, he⟩ | ⟨-, rfl⟩
    · exact exec_inv hiu hpu (decode_encodes_host hd) he
    · exact illegalCommand_inv hiu hpu

/-- Every step keeps the invariant: reset establishes it, the host's acts and the sequencer's transitions keep it. -/
theorem step_inv {s t : State} (hi : Inv s) (h : step s = .next t) : Inv t := by
  cases hr : s.resetPin with
  | true =>
    rw [step_of_reset hr] at h; cases h
    exact applyReset_inv s
  | false =>
    by_cases hp : s.phase = .idle
    · exact hostStep_inv hi hp (step_of_idle hr hp ▸ h)
    · obtain ⟨u, hu, hiu⟩ := seqStep_inv hi hp
      rw [step_of_running hi hr hp, hu] at h; cases h
      exact hiu

/-- The state right after reset meets the invariant, with either value of `LINE_MAY_FAIL` (R10, R35). -/
theorem reset_inv (mayFail : Bool) : Inv { State.reset with lineMayFail := mayFail } := by
  cases mayFail <;> constructor <;> decide

/-- Settles O36, by induction on the run: reset establishes the invariant, outside acts and steps keep it. -/
theorem reachableStatesMeetTheInvariant : Obligations.ReachableStatesMeetTheInvariant := by
  intro s h
  induction h with
  | start mayFail => exact reset_inv mayFail
  | outside _ ha ih => exact ih.outside ha
  | step _ hs ih => exact step_inv ih hs

/-! A line action that fails, and the report that says so. -/

/-- A phase has one row of R81. -/
theorem Transition.unique {s : State} {a b : LineAction} {k l : State → State} (h : Transition s a k)
    (h' : Transition s b l) : a = b ∧ k = l := by
  unfold Transition at h h'
  split at h <;> simp_all

/-- A line action sees the driver only through its report. -/
theorem act_congr {s u : State} (a : LineAction) (k : State → State) (h : driverReport u = driverReport s) :
    act a k u = act a k s := by
  simp only [act, h]

/-- So does a sample. -/
theorem actRead_congr {s u : State} (k : Level → State → State) (h : driverReport u = driverReport s) :
    actRead k u = actRead k s := by
  simp only [actRead, h]

/-- A running transaction whose driver reports a failure ends in LINE_FAULT, in every phase but DONE (R154). -/
theorem seqStep_of_fails {s : State} (hi : Inv s) (hp : s.phase ≠ .idle) (hd : s.phase ≠ .done)
    (hD : DriverFails s) : seqStep s = .next (s.dropReports 1).lineFault := by
  by_cases hx : s.phase = .rxS
  · rw [seqStep_rxS hx (hi.rxIndex hx), actRead_of_fails _ hD]
  · obtain ⟨a, k, -, he⟩ := seqStep_transition hi hp hd hx
    rw [he, act_of_fails a k hD]

/-- The sequencer reads the schedule of reports and the count of draws only through the report of its line action
(R154). -/
theorem seqStep_of_same_report {s : State} {r : List Bool} {d : Nat} (hi : Inv s) (hp : s.phase ≠ .idle)
    (hd : s.phase ≠ .done) (h : driverReport { s with reports := r, draws := d } = driverReport s) :
    seqStep { s with reports := r, draws := d } = seqStep s := by
  have hiu : Inv { s with reports := r, draws := d } := hi.outside rfl
  by_cases hx : s.phase = .rxS
  · have hxu : ({ s with reports := r, draws := d } : State).phase = .rxS := hx
    rw [seqStep_rxS hxu (hiu.rxIndex hxu), seqStep_rxS hx (hi.rxIndex hx), actRead_congr _ h]
  · obtain ⟨a, k, ht, he⟩ := seqStep_transition hi hp hd hx
    obtain ⟨b, l, hu, hv⟩ := seqStep_transition hiu hp hd hx
    obtain ⟨rfl, rfl⟩ := ht.unique hu
    rw [hv, he, act_congr a k h]

/-- FAULTED is clear and ERR is not LINE_FAULT. -/
def NoLineFault (s : State) : Prop := s.faulted = false ∧ s.err ≠ 3

/-- Where `LINE_MAY_FAIL` is false no step in IDLE answers a line fault (R154). -/
theorem hostStep_noLineFault {s t : State} (hm : s.lineMayFail = false) (hn : NoLineFault s)
    (h : hostStep s = .next t) : NoLineFault t := by
  rcases hostStep_cases h with rfl | rfl | ⟨w, u, hw, hu⟩
  · exact hn
  · exact hn
  · have hfr := nextWord_frame hw
    have hmu : u.lineMayFail = false := by rw [hfr]; exact hm
    have hnu : NoLineFault u := by rw [hfr]; exact hn
    obtain ⟨hf, he⟩ := hnu
    rcases hu with ⟨i, -, hx⟩ | ⟨-, rfl⟩
    · exact ⟨exec_cannot_fault hmu hf hx, exec_no_line_fault hmu he hx⟩
    · rw [unlessFaulted_of_clear _ hf]
      exact ⟨hf, by simp [ErrorCode.code]⟩

/-- Nor does a step of the engine, whether or not it fetches a wire command. -/
theorem engineStep_noLineFault {s t : State} (hm : s.lineMayFail = false) (hn : NoLineFault s)
    (h : engineStep s = .next t) : NoLineFault t := by
  obtain ⟨hf, he⟩ := hn
  unfold engineStep at h
  split at h
  · exact ⟨exec_cannot_fault hm hf h, exec_no_line_fault hm he h⟩
  · exact ⟨seqStep_cannot_fault hm hf h, seqStep_no_line_fault hm he h⟩

/-- Nor does any step of the machine. -/
theorem step_noLineFault {s t : State} (hm : s.lineMayFail = false) (hn : NoLineFault s) (h : step s = .next t) :
    NoLineFault t := by
  unfold step advance at h
  split at h
  · cases h
    exact ⟨rfl, by rw [applyReset_err]; decide⟩
  split at h
  · exact hostStep_noLineFault hm hn h
  · exact engineStep_noLineFault hm hn h

/-- Settles O25: a running step is the sequencer's, which reads the driver only through the report of its line action;
where `LINE_MAY_FAIL` is false no meaning and no transition faults. -/
theorem failedLineActionStopsTheTransaction : Obligations.FailedLineActionStopsTheTransaction := by
  refine ⟨fun s hi hr hp hd hD => ?fails, fun s hi hr hp hd hm hs => ?unscheduled, fun s t hm hf he h => ?cannotFail⟩
  case fails =>
    rw [step_of_running hi hr hp, seqStep_of_fails hi hp hd hD]
    rfl
  case unscheduled =>
    have hiu : Inv { s with reports := [Config.driverFails s.draws], draws := s.draws + 1 } := hi.outside rfl
    rw [step_of_running hi hr hp, step_of_running hiu hr hp,
      seqStep_of_same_report hi hp hd (driverReport_unscheduled hm hs)]
  case cannotFail => exact step_noLineFault hm ⟨hf, he⟩ h

end Sys2Proof.Machine
end

section
/-! PROOF. The state of the block (10_state.md): every step keeps the invariant; what a step does to the lines, to DATA
and to RESULT and ERR; what a command can see of the state; the words the step runs; and the reset table. -/

namespace Sys2Proof.Machine

/-- Settles O34: reset establishes the invariant, the host's acts and the sequencer's transitions keep it. -/
theorem stepKeepsTheInvariant : Obligations.StepKeepsTheInvariant := fun _ _ hi h => step_inv hi h

/-! The line actions of a step. -/

/-- BUSY is 1 only while a transaction runs (R28). -/
theorem Inv.running_of_busy {s : State} (hi : Inv s) (hb : s.busy = true) : s.phase ≠ .idle := by
  simpa [hb] using hi.busy

/-- A block in IDLE is ready (R28). -/
theorem Inv.ready_of_idle {s : State} (hi : Inv s) (hp : s.phase = .idle) : s.busy = false := by
  simpa [hp] using hi.busy

/-- A step of the sequencer that does not fault does no line action in DONE and one in every other phase (R81, R83). -/
theorem seqStep_trace {s t : State} (hi : Inv s) (hp : s.phase ≠ .idle) (hs : seqStep s = .next t)
    (hf : t.faulted = false) : if s.phase = .done then t.trace = s.trace else ∃ a, t.trace = s.trace ++ [a] := by
  rcases seqStep_cases hi hp with ⟨hd, v, he⟩ | ⟨hd, r, d, ⟨-, he⟩ | ⟨a, k, h, he⟩ | ⟨-, l, m, he⟩⟩ <;>
    rw [he] at hs <;> cases hs
  · rw [if_pos hd]; simp
  · simp at hf
  · rw [if_neg hd, h.frame]; exact ⟨a, by simp⟩
  · rw [if_neg hd]; exact ⟨.readLevel l, by simp [storeSample]⟩

/-- Settles O24: while BUSY is 1 the step is the sequencer's, which leaves the host alone and takes its row of R81. -/
theorem eachStepDoesOneLineAction : Obligations.EachStepDoesOneLineAction := by
  intro s t hi hr hb h
  have hp := hi.running_of_busy hb
  rw [step_of_running hi hr hp] at h
  obtain ⟨hproc, htodo, hbegan, -⟩ := seqStep_sameOutside hi hp h
  exact ⟨hproc, htodo, hbegan, seqStep_trace hi hp h⟩

/-- No row of R81 but that of RX_S reads DATA. -/
theorem Transition.ne_read {s : State} {a : LineAction} {k : State → State} (h : Transition s a k) (l : Level) :
    a ≠ .readLevel l := by
  rintro rfl
  unfold Transition at h
  split at h <;> simp at h

/-- The sequencer reads DATA in RX_S alone (R81). -/
theorem seqStep_reads_in_rxS {s t : State} {l : Level} (hi : Inv s) (hp : s.phase ≠ .idle) (hs : seqStep s = .next t)
    (ht : t.trace = s.trace ++ [.readLevel l]) : s.phase = .rxS := by
  rcases seqStep_cases hi hp with ⟨-, v, he⟩ | ⟨-, r, d, ⟨-, he⟩ | ⟨a, k, h, he⟩ | ⟨hx, -⟩⟩
  · rw [he] at hs; cases hs; simp at ht
  · rw [he] at hs; cases hs; simp at ht
  · rw [he] at hs; cases hs
    rw [h.frame] at ht
    exact absurd (by simpa using ht) (h.ne_read l)
  · exact hx

/-- Settles O37: a read is done in RX_S alone, where the invariant has DATA an input. -/
theorem dataIsReadOnlyWhileInput : Obligations.DataIsReadOnlyWhileInput := by
  intro s t l hi hr h ht
  by_cases hp : s.phase = .idle
  · obtain ⟨htr, -⟩ := hostStep_lines hp (step_of_idle hr hp ▸ h)
    simp [htr] at ht
  · rw [step_of_running hi hr hp] at h
    have hx := seqStep_reads_in_rxS hi hp h ht
    have hd := hi.dataDir (hi.not_faulted hp)
    simpa [dirAt, hx] using hd

/-! The direction of DATA and its output latch (R18). These need no invariant. -/

/-- From `s` to `t` the direction of DATA stays or its output latch does. -/
def KeepsDirOrLatch (s t : State) : Prop := t.dataDir = s.dataDir ∨ t.dataOut = s.dataOut

/-- A line action sets the direction of DATA or its latch, never both. -/
theorem perform_keepsDirOrLatch (a : LineAction) (s : State) : KeepsDirOrLatch s (s.perform a) := by
  cases a with
  | setLevel line l => cases line <;> exact .inl rfl
  | setDir d => exact .inr rfl
  | readLevel l => exact .inl rfl

/-- So does a line action of a transaction, whatever moves the sequencer after it, and whether or not it fails. -/
theorem act_keepsDirOrLatch (a : LineAction) {k : State → State} (s : State)
    (hk : ∀ t, (k t).dataDir = t.dataDir ∧ (k t).dataOut = t.dataOut) : KeepsDirOrLatch s (act a k s) := by
  obtain ⟨r, d, ⟨-, h⟩ | h⟩ := act_result a k s <;> rw [h]
  · exact .inl rfl
  · obtain ⟨hdir, hout⟩ := hk (State.perform a { s with reports := r, draws := d })
    rw [KeepsDirOrLatch, hdir, hout]
    exact perform_keepsDirOrLatch a { s with reports := r, draws := d }

/-- A sample keeps both. -/
theorem actRead_storeSample_keepsDirOrLatch (s : State) : KeepsDirOrLatch s (actRead storeSample s) := by
  obtain ⟨r, d, ⟨-, h⟩ | ⟨l, m, h⟩⟩ := actRead_result storeSample s <;> rw [h] <;> exact .inl rfl

/-- The end of a transaction is no line action. -/
theorem complete_keepsDirOrLatch (s : State) : KeepsDirOrLatch s (complete s) := by
  obtain ⟨v, hv⟩ := complete_eq s
  rw [hv]
  exact .inl rfl

/-- A step of the sequencer does at most one line action, in any state (R81). -/
theorem seqStep_keepsDirOrLatch {s t : State} (hs : seqStep s = .next t) : KeepsDirOrLatch s t := by
  cases hp : s.phase <;> simp only [seqStep, hp] at hs
  case idle => cases hs; exact .inl rfl
  case done => cases hs; exact complete_keepsDirOrLatch s
  case txD =>
    split at hs <;> cases hs
    exact act_keepsDirOrLatch _ s fun _ => ⟨rfl, rfl⟩
  case rxS =>
    split at hs <;> cases hs
    exact actRead_storeSample_keepsDirOrLatch s
  all_goals
    cases hs
    exact act_keepsDirOrLatch _ s fun _ => ⟨rfl, rfl⟩

/-- The opening of a transaction sets no direction. -/
theorem openTransaction_keepsDirOrLatch (kind : Kind) (a d : Byte) (s : State) :
    KeepsDirOrLatch s (openTransaction kind a d s) := by
  unfold openTransaction unlessFaulted
  split
  · exact .inl rfl
  · exact act_keepsDirOrLatch _ (s.load kind a d) fun _ => ⟨rfl, rfl⟩

/-- A fetched wire command is what the decoder reads from the transmit latch. -/
theorem decodeWire_of_fetchWire {s : State} {i : Instr} (h : fetchWire s = some i) : decodeWire s.txseq = .ok i := by
  unfold fetchWire at h
  split at h
  · cases hd : decodeWire s.txseq with
    | ok j => simpa [hd, Except.toOption] using h
    | error e => simp [hd, Except.toOption] at h
  · cases h

theorem engineStep_keepsDirOrLatch {s t : State} (h : engineStep s = .next t) : KeepsDirOrLatch s t := by
  unfold engineStep at h
  split at h
  · rename_i i _ hf
    rcases decodeWire_cases (decodeWire_of_fetchWire hf) with ⟨r, d, rfl, -⟩ | ⟨r, rfl, -⟩
    · rw [exec_wireWrite] at h; cases h; exact openTransaction_keepsDirOrLatch _ _ _ s
    · rw [exec_wireRead] at h; cases h; exact openTransaction_keepsDirOrLatch _ _ _ s
  · exact seqStep_keepsDirOrLatch h

/-- Settles O39: a step in IDLE does no line action, and a step of the engine at most one, which sets the direction of
DATA or its latch. -/
theorem directionSwitchKeepsTheLatch : Obligations.DirectionSwitchKeepsTheLatch := by
  intro s t hr h hdir
  by_cases hp : s.phase = .idle
  · obtain ⟨-, -, -, -, hout, -⟩ := hostStep_lines hp (step_of_idle hr hp ▸ h)
    exact hout
  · rw [step, advance, if_neg (by simp [hr]), if_neg hp] at h
    exact (engineStep_keepsDirOrLatch h).resolve_left hdir

/-! Responses. -/

/-- A step of the sequencer responds as it ends the transaction, in DONE or by a line fault, and else leaves RESULT and
ERR alone (R82, R154). -/
theorem seqStep_responds {s t : State} (hi : Inv s) (hp : s.phase ≠ .idle) (hs : seqStep s = .next t) :
    (t.responses = s.responses ∧ t.result = s.result ∧ t.err = s.err) ∨
    (t.responses = s.responses ++ [⟨t.result, t.err⟩] ∧ t.phase = .idle ∧ t.busy = false) := by
  rcases seqStep_cases hi hp with ⟨-, v, he⟩ | ⟨-, r, d, ⟨-, he⟩ | ⟨a, k, h, he⟩ | ⟨-, l, m, he⟩⟩ <;>
    rw [he] at hs <;> cases hs
  · exact .inr (by simp)
  · exact .inr (by simp)
  · rw [h.frame]; exact .inl (by simp)
  · exact .inl (by simp [storeSample])

/-- Settles O40: in IDLE by what a host command can answer, in a transaction by what its step can do. -/
theorem responsesAreWhatResultAndErrShow : Obligations.ResponsesAreWhatResultAndErrShow := by
  intro s t hi hr h
  by_cases hp : s.phase = .idle
  · obtain ⟨-, -, -, -, -, hresp⟩ := hostStep_lines hp (step_of_idle hr hp ▸ h)
    exact hresp.imp id fun ⟨hgiven, hidle, hbusy⟩ => ⟨hgiven, hidle, hbusy (hi.ready_of_idle hp)⟩
  · exact seqStep_responds hi hp (step_of_running hi hr hp ▸ h)

/-! What a command can see of the state: neither ERR nor the latches an earlier command left (R30, R31). -/

/-- Two states agree on everything a command reads or answers: all but ERR, the latches and the host's data. -/
structure SameVisible (s u : State) : Prop where
  clk : s.clk = u.clk
  ce : s.ce = u.ce
  dataDir : s.dataDir = u.dataDir
  dataOut : s.dataOut = u.dataOut
  trace : s.trace = u.trace
  responses : s.responses = u.responses
  result : s.result = u.result
  busy : s.busy = u.busy
  faulted : s.faulted = u.faulted
  phase : s.phase = u.phase
  samples : s.samples = u.samples
  reports : s.reports = u.reports
  draws : s.draws = u.draws
  lineMayFail : s.lineMayFail = u.lineMayFail

/-- Two states run the same transaction: the latches of R75 agree and, right after a host command was accepted, so do
POST and the FLD of a field command. -/
structure SameTransaction (s u : State) : Prop where
  kind : s.kind = u.kind
  txseq : s.txseq = u.txseq
  ntx : s.ntx = u.ntx
  i : s.i = u.i
  j : s.j = u.j
  rx : s.rx = u.rx
  accepted : s.phase = .bClk → s.post = u.post ∧ (s.post ≠ .none → s.fld = u.fld)

/-- A meaning that cannot tell two states apart that agree on what is visible; where it `runs` a transaction, it leaves
the same one running. -/
def Blind (runs : Bool) (k : State → State) : Prop :=
  ∀ s u, SameVisible s u →
    SameVisible (k s) (k u) ∧ (runs = true → (k s).phase ≠ .idle → SameTransaction (k s) (k u))

theorem SameVisible.respond {s u : State} (h : SameVisible s u) (r : BitVec 16) (e : ErrorCode) :
    SameVisible (s.respond r e) (u.respond r e) :=
  { h with result := rfl, responses := by simp [h.responses] }

theorem SameVisible.raise {s u : State} (h : SameVisible s u) (e : ErrorCode) :
    SameVisible (s.raise e) (u.raise e) :=
  { h.respond 0 e with busy := rfl, phase := rfl }

theorem SameVisible.load {s u : State} (h : SameVisible s u) (kind : Kind) (a d : Byte) :
    SameVisible (s.load kind a d) (u.load kind a d) :=
  { h with busy := rfl, phase := rfl }

/-- The driver's report depends on `LINE_MAY_FAIL`, the schedule of reports and the count of draws alone. -/
theorem SameVisible.sameReport {s u : State} (h : SameVisible s u) : ∃ b r d,
    driverReport s = (b, { s with reports := r, draws := d }) ∧
    driverReport u = (b, { u with reports := r, draws := d }) := by
  unfold driverReport
  rw [← h.lineMayFail, ← h.reports, ← h.draws]
  split
  · split
    · rename_i b rs _
      exact ⟨b, rs, s.draws, rfl, by rw [h.draws]⟩
    · exact ⟨_, s.reports, s.draws + 1, rfl, by rw [h.reports]⟩
  · exact ⟨false, s.reports, s.draws, rfl, by rw [h.lineMayFail, h.reports, h.draws]⟩

/-- An error leaves no transaction running (R158). -/
theorem blind_raise (runs : Bool) (e : ErrorCode) : Blind runs (State.raise e) :=
  fun _ _ h => ⟨h.raise e, fun _ hp => absurd rfl hp⟩

/-- The commands that use no line answer with their operands alone. -/
theorem blind_answer (r : BitVec 16) : Blind false (State.answer r) :=
  fun _ _ h => ⟨h.respond r .none, fun hr => nomatch hr⟩

/-- The free byte of BCDENC depends on the count of draws, which is visible (R94). -/
theorem blind_bcdenc (x : Byte) : Blind false (bcdenc x) := by
  intro s u h
  refine ⟨?_, fun hr => nomatch hr⟩
  unfold bcdenc
  split
  · exact h.respond _ .none
  · have hdraw : SameVisible (drawByte s).2 (drawByte u).2 :=
      { h with draws := by simp [drawByte, h.draws] }
    simpa [drawByte, State.answer, h.draws] using hdraw.respond (zext16 (Config.freeByte u.draws)) .none

/-- RDREG and WRREG set POST to NONE, so that FLD, which they leave, does not count (R26). -/
theorem blind_accept (kind : Kind) (a d : Byte) : Blind true (State.accept kind a d .none) :=
  fun _ _ h => ⟨{ h.load kind a d with }, fun _ _ =>
    ⟨rfl, rfl, rfl, rfl, rfl, rfl, fun _ => ⟨rfl, fun hpost => absurd rfl hpost⟩⟩⟩

/-- A field command sets POST and FLD (R26). -/
theorem blind_acceptField (kind : Kind) (a d : Byte) (post : Post) (f : TimeField) :
    Blind true (State.acceptField kind a d post f) :=
  fun _ _ h => ⟨{ h.load kind a d with }, fun _ _ =>
    ⟨rfl, rfl, rfl, rfl, rfl, rfl, fun _ => ⟨rfl, fun _ => rfl⟩⟩⟩

/-- The FAULTED flag is visible. -/
theorem Blind.guarded {runs : Bool} {k : State → State} (hk : Blind runs k) :
    Blind runs (unlessFaulted k) := by
  intro s u h
  unfold unlessFaulted
  rw [← h.faulted]
  split
  · exact blind_raise runs .faulted s u h
  · exact hk s u h

/-- The line action of B_CLK, after the latches are loaded: done or failed in both states alike. -/
theorem blind_openTransaction (kind : Kind) (a d : Byte) : Blind true (openTransaction kind a d) := by
  refine Blind.guarded fun s u h => ?_
  have hload := h.load kind a d
  obtain ⟨b, r, n, hs, hu⟩ := hload.sameReport
  simp only [act, hs, hu]
  cases b with
  | true =>
    have hrep : SameVisible { s.load kind a d with reports := r, draws := n }
        { u.load kind a d with reports := r, draws := n } := { hload with reports := rfl, draws := rfl }
    exact ⟨{ hrep.raise .lineFault with faulted := rfl }, fun _ hp => absurd rfl hp⟩
  | false =>
    exact ⟨{ hload with reports := rfl, draws := rfl, clk := rfl, phase := rfl, trace := by simp [h.trace] },
      fun _ _ => ⟨rfl, rfl, rfl, rfl, rfl, rfl, fun hp => nomatch hp⟩⟩

theorem blind_fieldRead (f : TimeField) : Blind true (fieldRead f) :=
  (blind_acceptField .read _ 0 (.dec f) f).guarded

/-- An operand out of range is refused in both states alike (R124). -/
theorem blind_fieldWrite (f : TimeField) (v : Byte) : Blind true (fieldWrite f v) := by
  refine Blind.guarded fun s u h => ?_
  split
  · exact blind_acceptField .write _ _ .discard f s u h
  · exact blind_raise true .validation s u h

theorem runsTransaction_fget (f : TimeField) : runsTransaction (Instr.fget f) = true := by cases f <;> rfl

theorem runsTransaction_fset (f : TimeField) (v : Byte) : runsTransaction (Instr.fset f v) = true := by
  cases f <;> rfl

theorem runsTransaction_wireWrite (r : Register) (d : Byte) :
    runsTransaction (Instr.wireWrite r d) = true := by cases r <;> rfl

theorem runsTransaction_wireRead (r : Register) : runsTransaction (Instr.wireRead r) = true := by
  cases r <;> rfl

/-- Every instruction's meaning is blind to ERR and the latches. -/
theorem exec_blind (i : Instr) : ∃ k, (∀ s, exec i s = .next (k s)) ∧ Blind (runsTransaction i) k := by
  refine Instr.byFamily
    (P := fun i => ∃ k, (∀ s, exec i s = .next (k s)) ∧ Blind (runsTransaction i) k) ?_ ?_ ?_ ?_ ?_ ?_ ?_ ?_ ?_ ?_ i
  · exact fun a => ⟨_, fun _ => rfl, (blind_accept .read a 0).guarded⟩
  · exact fun a d => ⟨_, fun _ => rfl, (blind_accept .write a d).guarded⟩
  · exact fun x => ⟨_, fun _ => rfl, (blind_answer _).guarded⟩
  · exact fun x => ⟨_, fun _ => rfl, (blind_bcdenc x).guarded⟩
  · exact fun tens ones x => ⟨_, fun _ => rfl, (blind_answer _).guarded⟩
  · exact fun r dir => ⟨_, fun _ => rfl, (blind_answer _).guarded⟩
  · exact fun f => ⟨_, exec_fget f, by rw [runsTransaction_fget]; exact blind_fieldRead f⟩
  · exact fun f v => ⟨_, exec_fset f v, by rw [runsTransaction_fset]; exact blind_fieldWrite f v⟩
  · exact fun r d => ⟨_, exec_wireWrite r d, by rw [runsTransaction_wireWrite]; exact blind_openTransaction .write _ d⟩
  · exact fun r => ⟨_, exec_wireRead r, by rw [runsTransaction_wireRead]; exact blind_openTransaction .read _ 0⟩

/-- Settles O41: the two states agree on what is visible, and every meaning is blind to the rest. -/
theorem staleLatchesAndErrAreNotObservable : Obligations.StaleLatchesAndErrAreNotObservable := by
  intro i s kind txseq ntx ni nj rx post fld e
  obtain ⟨k, hk, hblind⟩ := exec_blind i
  obtain ⟨hv, ht⟩ := hblind s { s with
    kind := kind, txseq := txseq, ntx := ntx, i := ni, j := nj, rx := rx, post := post, fld := fld, err := e }
    ⟨rfl, rfl, rfl, rfl, rfl, rfl, rfl, rfl, rfl, rfl, rfl, rfl, rfl, rfl⟩
  refine ⟨_, _, hk _, hk _, hv.clk, hv.ce, hv.dataDir, hv.dataOut, hv.trace, hv.responses, hv.result, hv.busy,
    hv.faulted, hv.phase, hv.samples, hv.reports, hv.draws, fun hr hp => ?_⟩
  have h := ht hr hp
  exact ⟨h.kind, h.txseq, h.ntx, h.i, h.j, h.rx, h.accepted⟩

/-! The word the step runs. -/

/-- A ready block with no procedure being stopped takes the host's next word (R27, R141). -/
theorem hostStep_of_nextWord {s u : State} {w : Word} (hb : s.busy = false) (he : s.proc = [] ∨ s.err = 0)
    (hw : nextWord s = some (w, u)) : hostStep s = acceptWord w u := by
  rw [hostStep, if_neg (by simp [hb]), if_neg (by tauto), hw]

theorem nextWord_of_proc {s : State} {w : Word} {ws : List Word} (hp : s.proc = w :: ws) :
    nextWord s = some (w, { s with proc := ws }) := by
  simp only [nextWord, hp]

theorem nextWord_of_todo {s : State} {p : Procedure} {ps : List Procedure} (hp : s.proc = []) (ht : s.todo = p :: ps) :
    nextWord s =
      some (p.first, { s with proc := p.rest, todo := ps, procBegan := s.responses.length }) := by
  simp only [nextWord, hp, ht]

/-- A legal word is executed (R67). -/
theorem acceptWord_of_ok {w : Word} {i : Instr} (h : decode w = .ok i) (s : State) : acceptWord w s = exec i s := by
  simp only [acceptWord, h]

/-- An illegal word is answered as one, or as FAULTED (R68, R155). -/
theorem acceptWord_of_illegal {w : Word} (h : ∀ i, decode w ≠ .ok i) (s : State) :
    acceptWord w s = .next (s.withError (if s.faulted then 4 else 2)) := by
  cases hf : s.faulted with
  | true => exact acceptWord_of_faulted w hf
  | false =>
    cases hd : decode w with
    | ok i => exact absurd hd (h i)
    | error e =>
      simp only [acceptWord, hd, unlessFaulted_of_clear _ hf]
      rfl

/-- Settles O16: the host's next word is that of the procedure in progress, or the first of the next one. -/
theorem stepRunsThePresentedCommand : Obligations.StepRunsThePresentedCommand := by
  intro s w hr hp hb
  rw [step_of_idle hr hp]
  refine ⟨fun ws hproc he => ?goesOn, fun ws ps hproc htodo => ?begins⟩
  case goesOn =>
    rw [hostStep_of_nextWord hb (.inr he) (nextWord_of_proc hproc)]
    exact ⟨fun i hd => acceptWord_of_ok hd _, fun hd => acceptWord_of_illegal hd _⟩
  case begins =>
    rw [hostStep_of_nextWord hb (.inl hproc) (nextWord_of_todo hproc htodo)]
    exact ⟨fun i hd => acceptWord_of_ok hd _, fun hd => acceptWord_of_illegal hd _⟩

theorem State.holdingWire_kind (seq : BitVec 16) (s : State) :
    (s.holdingWire seq).kind = if seq.getLsbD 0 then .read else .write := rfl

theorem State.holdingWire_ntx (seq : BitVec 16) (s : State) :
    (s.holdingWire seq).ntx = ntxOf (if seq.getLsbD 0 then .read else .write) := rfl

theorem State.holdingWire_txseq (seq : BitVec 16) (s : State) :
    (s.holdingWire seq).txseq = seq.extractLsb' 8 8 ++ seq.extractLsb' 0 8 := rfl

/-- A wire command put in the transmit latch at B_CLK is the one the engine fetches there (R24, R57). -/
theorem fetchWire_holdingWire {seq : BitVec 16} {i : Instr} (h : decodeWire seq = .ok i) (s : State) :
    fetchWire (s.holdingWire seq) = some i := by
  rcases decodeWire_cases h with ⟨r, d, rfl, hseq⟩ | ⟨r, rfl, hseq⟩ <;> rw [mapAddress_eq_wireByte] at hseq
  · have h0 : seq.getLsbD 0 = false := by
      rw [hseq, txseq_low _ _ (by omega)]; cases r <;> decide
    exact fetchWire_write (by rw [State.holdingWire_kind, h0]; rfl) (by rw [State.holdingWire_ntx, h0]; rfl)
      (by rw [State.holdingWire_txseq, hseq, txseq_a, txseq_d])
  · have h0 : seq.getLsbD 0 = true := by
      rw [hseq, txseq_low _ _ (by omega)]; cases r <;> decide
    exact fetchWire_read (by rw [State.holdingWire_kind, h0]; rfl) (by rw [State.holdingWire_ntx, h0]; rfl)
      (by rw [State.holdingWire_txseq, hseq, txseq_a, txseq_d])

/-- Settles O18: a host word is presented as a procedure of its own, a wire command lies in the latch at B_CLK. -/
theorem fetchWordStateRunsThatWord : Obligations.FetchWordStateRunsThatWord := by
  refine fun s w => ⟨fun i hd => ?host, fun i hd => ?wire⟩
  case host =>
    rw [State.withFetchWord, if_neg (by decide), step_of_idle rfl rfl,
      hostStep_of_nextWord rfl (.inl rfl) (nextWord_of_todo rfl rfl), acceptWord_of_ok hd]
    rfl
  case wire => exact step_of_fetchWire rfl rfl (fetchWire_holdingWire hd s)

/-! The reset table, STATUS, and words of every format. -/

/-- Settles O43: `State.reset` is written from R35's table. -/
theorem resetStateHoldsTheResetTable : Obligations.ResetStateHoldsTheResetTable := by
  unfold Obligations.ResetStateHoldsTheResetTable
  decide

/-- STATUS as a number: each view in its place (R29). -/
theorem toNat_status (s : State) : s.status.toNat = s.err.toNat * 4 + s.faulted.toNat * 2 + s.busy.toNat := by
  have hf := s.faulted.toNat_lt
  have hb := s.busy.toNat_lt
  simp only [State.status, toNat_append_add, BitVec.toNat_ofBool, BitVec.toNat_ofNat]
  omega

/-- Settles O44: bit and field of STATUS as digits of its number. -/
theorem statusShowsBusyFaultedErr : Obligations.StatusShowsBusyFaultedErr := by
  intro s
  have hs := toNat_status s
  have hf := s.faulted.toNat_lt
  have hb := s.busy.toNat_lt
  refine ⟨?busy, ?faulted, ?err, ?zero⟩
  case busy =>
    rw [getLsbD_eq_decide, hs]
    cases s.busy <;> simp <;> omega
  case faulted =>
    rw [getLsbD_eq_decide, hs]
    cases s.faulted <;> simp <;> omega
  case err =>
    apply BitVec.eq_of_toNat_eq
    rw [BitVec.extractLsb, toNat_field, hs]
    omega
  case zero =>
    apply BitVec.eq_of_toNat_eq
    rw [BitVec.extractLsb, toNat_field, hs]
    simp
    omega

/-- Settles O49: the decoder evaluated on each word. -/
theorem wordsOfEveryFormatDecode : Obligations.WordsOfEveryFormatDecode := by
  unfold Obligations.WordsOfEveryFormatDecode
  decide

end Sys2Proof.Machine
end

section
/-! PROOF. The encodings (30_encoding.md): what the host decoder reads, word by word; decoder and encoder agree; the
match and mask table of R71 and the assembler's words of R69; and the wire command bytes at the engine. -/

namespace Sys2Proof.Machine

/-! Fields of a word. -/

/-- A field inside a zero field is zero. -/
theorem subfield_zero {m lo n lo' n' : Nat} {w : BitVec m} (h : w.extractLsb' lo n = 0#n)
    (hlo : lo ≤ lo' := by omega) (hhi : lo' + n' ≤ lo + n := by omega) : w.extractLsb' lo' n' = 0#n' := by
  rw [field_bits_iff] at h ⊢
  intro k hk
  have hbit := h (lo' - lo + k) (by omega)
  rw [← Nat.add_assoc, Nat.add_sub_cancel' hlo, BitVec.getLsbD_zero] at hbit
  rw [hbit, BitVec.getLsbD_zero]

/-- A field of one bit is that bit. -/
theorem field_one {m : Nat} (w : BitVec m) (k : Nat) : w.extractLsb' k 1 = BitVec.ofBool (w.getLsbD k) := by
  simp [field_bits_iff]

section FormatOfFields

variable {w : Word} {op : BitVec 4} {d a x v : Byte} {t dir : BitVec 1} {tens ones : BitRange} {fld : BitVec 3}

/-- A word with the fields of format R is the format's word (R62). -/
theorem formatR_of_fields (hop : w.extractLsb' 28 4 = op) (hz : w.extractLsb' 16 12 = 0#12)
    (hd : w.extractLsb' 8 8 = d) (ha : w.extractLsb' 0 8 = a) : formatR op d a = w := by
  have hw := w.isLt
  rw [field_eq_iff] at hop hz hd ha
  apply BitVec.eq_of_toNat_eq; rw [toNat_formatR]; simp at hz; omega

/-- A word with the fields of format U is the format's word (R63). -/
theorem formatU_of_fields (hop : w.extractLsb' 28 4 = op) (hz : w.extractLsb' 8 20 = 0#20)
    (hx : w.extractLsb' 0 8 = x) : formatU op x = w := by
  have hw := w.isLt
  rw [field_eq_iff] at hop hz hx
  apply BitVec.eq_of_toNat_eq; rw [toNat_formatU]; simp at hz; omega

/-- A word with the fields of format B is the format's word (R64). -/
theorem formatB_of_fields (hop : w.extractLsb' 28 4 = 5#4) (ht : w.extractLsb' 27 1 = t)
    (hthi : w.extractLsb' 24 3 = tens.hi) (htlo : w.extractLsb' 21 3 = tens.lo) (hohi : w.extractLsb' 18 3 = ones.hi)
    (holo : w.extractLsb' 15 3 = ones.lo) (hz : w.extractLsb' 8 7 = 0#7) (hx : w.extractLsb' 0 8 = x) :
    formatB t tens ones x = w := by
  have hw := w.isLt
  rw [field_eq_iff] at hop ht hthi htlo hohi holo hz hx
  apply BitVec.eq_of_toNat_eq; rw [toNat_formatB]; simp at hop hz; omega

/-- A word with the fields of format F is the format's word (R65). -/
theorem formatF_of_fields (hop : w.extractLsb' 28 4 = op) (hz27 : w.extractLsb' 27 1 = 0#1)
    (hfld : w.extractLsb' 24 3 = fld) (hz17 : w.extractLsb' 17 7 = 0#7) (hdir : w.extractLsb' 16 1 = dir)
    (hz8 : w.extractLsb' 8 8 = 0#8) (hv : w.extractLsb' 0 8 = v) : formatF op fld dir v = w := by
  have hw := w.isLt
  rw [field_eq_iff] at hop hz27 hfld hz17 hdir hz8 hv
  apply BitVec.eq_of_toNat_eq; rw [toNat_formatF]; simp at hz27 hz17 hz8; omega

end FormatOfFields

/-! What the host decoder reads. -/

/-- The words the host decoder accepts, a case a command or family: OP, the reserved bits at 0 and the ranges not
inverted, with the operands in the fields of the format (R62 to R67). -/
inductive Reads (w : Word) : Instr → Prop
  | rdreg (op : w.extractLsb' 28 4 = 1#4) (zero : w.extractLsb' 8 20 = 0#20) : Reads w (.rdreg (w.extractLsb' 0 8))
  | wrreg (op : w.extractLsb' 28 4 = 2#4) (zero : w.extractLsb' 16 12 = 0#12) :
      Reads w (.wrreg (w.extractLsb' 0 8) (w.extractLsb' 8 8))
  | rev8 (op : w.extractLsb' 28 4 = 3#4) (zero : w.extractLsb' 8 20 = 0#20) : Reads w (.rev8 (w.extractLsb' 0 8))
  | bcdenc (op : w.extractLsb' 28 4 = 4#4) (zero : w.extractLsb' 8 20 = 0#20) : Reads w (.bcdenc (w.extractLsb' 0 8))
  | bcddecTens (op : w.extractLsb' 28 4 = 5#4) (zero : w.extractLsb' 8 7 = 0#7) (t : w.getLsbD 27 = true)
      (tens : BitRange.wf ⟨w.extractLsb' 24 3, w.extractLsb' 21 3⟩ = true)
      (ones : BitRange.wf ⟨w.extractLsb' 18 3, w.extractLsb' 15 3⟩ = true) :
      Reads w (.bcddec (some ⟨w.extractLsb' 24 3, w.extractLsb' 21 3⟩) ⟨w.extractLsb' 18 3, w.extractLsb' 15 3⟩
        (w.extractLsb' 0 8))
  | bcddecOnes (op : w.extractLsb' 28 4 = 5#4) (zero : w.extractLsb' 8 7 = 0#7) (t : w.getLsbD 27 = false)
      (noTens : w.extractLsb' 21 6 = 0#6) (ones : BitRange.wf ⟨w.extractLsb' 18 3, w.extractLsb' 15 3⟩ = true) :
      Reads w (.bcddec none ⟨w.extractLsb' 18 3, w.extractLsb' 15 3⟩ (w.extractLsb' 0 8))
  | mapaddr (op : w.extractLsb' 28 4 = 6#4) (zero27 : w.extractLsb' 27 1 = 0#1) (zero17 : w.extractLsb' 17 7 = 0#7)
      (zero0 : w.extractLsb' 0 16 = 0#16) :
      Reads w (.mapaddr (Register.ofCode (w.extractLsb' 24 3)) (Direction.ofBit (w.getLsbD 16)))
  | fget (f : TimeField) (op : w.extractLsb' 28 4 = 7#4) (fld : w.extractLsb' 24 3 = f.code)
      (zero27 : w.extractLsb' 27 1 = 0#1) (zero0 : w.extractLsb' 0 24 = 0#24) : Reads w (Instr.fget f)
  | fset (f : TimeField) (op : w.extractLsb' 28 4 = 8#4) (fld : w.extractLsb' 24 3 = f.code)
      (zero27 : w.extractLsb' 27 1 = 0#1) (zero8 : w.extractLsb' 8 16 = 0#16) :
      Reads w (Instr.fset f (w.extractLsb' 0 8))

theorem op_eq_of_toNat {w : Word} {n : Nat} (h : (w.extractLsb' 28 4).toNat = n) :
    w.extractLsb' 28 4 = BitVec.ofNat 4 n := by
  rw [← h, BitVec.ofNat_toNat, BitVec.setWidth_eq]

/-- BCDDEC by its T bit; a range is never inverted (R64). -/
theorem reads_of_decodeBcddec {w : Word} {i : Instr} (op : w.extractLsb' 28 4 = 5#4) (h : decodeBcddec w = .ok i) :
    Reads w i := by
  simp only [decodeBcddec] at h
  split at h
  · cases h
  rename_i hz
  split at h
  · rename_i ht
    split at h <;> cases h
    rename_i hr
    obtain ⟨htens, hones⟩ := Bool.and_eq_true_iff.mp hr
    exact .bcddecTens op (not_not.mp hz) ht htens hones
  · rename_i ht
    split at h
    · cases h
    rename_i hn
    split at h <;> cases h
    exact .bcddecOnes op (not_not.mp hz) (by simpa using ht) (not_not.mp hn) ‹_›

/-- What the decoder accepts, by the branch of OP it takes. -/
theorem reads_of_decode {w : Word} {i : Instr} (h : decode w = .ok i) : Reads w i := by
  unfold decode at h
  split at h <;> rename_i hop
  · split at h <;> cases h
    exact .rdreg (op_eq_of_toNat hop) ‹_›
  · split at h <;> cases h
    exact .wrreg (op_eq_of_toNat hop) ‹_›
  · split at h <;> cases h
    exact .rev8 (op_eq_of_toNat hop) ‹_›
  · split at h <;> cases h
    exact .bcdenc (op_eq_of_toNat hop) ‹_›
  · exact reads_of_decodeBcddec (op_eq_of_toNat hop) h
  · split at h <;> cases h
    rename_i hz
    obtain ⟨hz27, hz17, hz0⟩ := hz
    exact .mapaddr (op_eq_of_toNat hop) hz27 hz17 hz0
  · split at h
    · rename_i hz
      obtain ⟨hz27, hz0⟩ := hz
      split at h <;> cases h
      exact .fget _ (op_eq_of_toNat hop) (TimeField.code_of_ofCode ‹_›).symm hz27 hz0
    · cases h
  · split at h
    · rename_i hz
      obtain ⟨hz27, hz8⟩ := hz
      split at h <;> cases h
      exact .fset _ (op_eq_of_toNat hop) (TimeField.code_of_ofCode ‹_›).symm hz27 hz8
    · cases h
  · cases h

/-- The decoder reads every such word so. -/
theorem Reads.decode {w : Word} {i : Instr} (h : Reads w i) : decode w = .ok i := by
  cases h with
  | rdreg op zero | wrreg op zero | rev8 op zero | bcdenc op zero => simp [Sys2Proof.decode, op, zero]
  | bcddecTens op zero t tens ones =>
    simp [-BitVec.getLsbD_eq_getElem, Sys2Proof.decode, decodeBcddec, op, zero, t, tens, ones]
  | bcddecOnes op zero t noTens ones =>
    simp [-BitVec.getLsbD_eq_getElem, Sys2Proof.decode, decodeBcddec, op, zero, t, noTens, ones]
  | mapaddr op zero27 zero17 zero0 => simp [Sys2Proof.decode, op, zero27, zero17, zero0]
  | fget f op fld zero27 zero0 => simp [Sys2Proof.decode, op, fld, zero27, zero0]
  | fset f op fld zero27 zero8 => simp [Sys2Proof.decode, op, fld, zero27, zero8]

@[simp] theorem Direction.code_ofBit (b : Bool) : (Direction.ofBit b).code = BitVec.ofBool b := by cases b <;> rfl

/-- The encoder gives the word back: every bit is a field the decoder has read or a reserved 0. -/
theorem Reads.encode {w : Word} {i : Instr} (h : Reads w i) : encode i = .host w := by
  cases h with
  | rdreg op zero =>
    exact congrArg Code.host (formatR_of_fields op (subfield_zero zero) (subfield_zero zero) rfl)
  | wrreg op zero => exact congrArg Code.host (formatR_of_fields op zero rfl rfl)
  | rev8 op zero | bcdenc op zero => exact congrArg Code.host (formatU_of_fields op zero rfl)
  | bcddecTens op zero t tens ones =>
    exact congrArg Code.host (formatB_of_fields op (by rw [field_one, t]; rfl) rfl rfl rfl rfl zero rfl)
  | bcddecOnes op zero t noTens ones =>
    exact congrArg Code.host (formatB_of_fields op (by rw [field_one, t]; rfl) (subfield_zero noTens)
      (subfield_zero noTens) rfl rfl zero rfl)
  | mapaddr op zero27 zero17 zero0 =>
    exact congrArg Code.host (formatF_of_fields op zero27 (Register.code_ofCode _).symm zero17
      (by rw [field_one, Direction.code_ofBit]) (subfield_zero zero0) (subfield_zero zero0))
  | fget f op fld zero27 zero0 =>
    rw [encode_fget]
    exact congrArg Code.host (formatF_of_fields op zero27 fld (subfield_zero zero0)
      (subfield_zero zero0) (subfield_zero zero0) (subfield_zero zero0))
  | fset f op fld zero27 zero8 =>
    rw [encode_fset]
    exact congrArg Code.host (formatF_of_fields op zero27 fld (subfield_zero zero8)
      (subfield_zero zero8) (subfield_zero zero8) rfl)

/-- The instruction read is well-formed: only BCDDEC's ranges can fail, and the decoder has checked them (R64). -/
theorem Reads.wellFormed {w : Word} {i : Instr} (h : Reads w i) : WellFormed i = true := by
  cases h with
  | bcddecTens _ _ _ tens ones => exact Bool.and_eq_true_iff.mpr ⟨tens, ones⟩
  | bcddecOnes _ _ _ _ ones => exact ones
  | fget f => cases f <;> rfl
  | fset f => cases f <;> rfl
  | _ => rfl

/-- A wire command has no operand to check. -/
theorem wellFormed_wireWrite (r : Register) (d : Byte) : WellFormed (Instr.wireWrite r d) = true := by cases r <;> rfl

theorem wellFormed_wireRead (r : Register) : WellFormed (Instr.wireRead r) = true := by cases r <;> rfl

/-- Settles O46: a host word by the fields the decoder reads of it, a wire command by what its decoder can answer. -/
theorem encodeOfDecodeIsTheCode : Obligations.EncodeOfDecodeIsTheCode := by
  intro c i h
  cases c with
  | host w =>
    have hr := reads_of_decode h
    exact ⟨hr.wellFormed, hr.encode⟩
  | wire seq =>
    rcases decodeWire_cases h with ⟨r, d, rfl, rfl⟩ | ⟨r, rfl, rfl⟩ <;> rw [mapAddress_eq_wireByte]
    · exact ⟨wellFormed_wireWrite r d, encode_wireWrite r d⟩
    · exact ⟨wellFormed_wireRead r, encode_wireRead r⟩

/-- OP as the top four bits of a word. -/
theorem toNat_shiftRight_op (w : Word) : (w >>> 28).toNat = (w.extractLsb' 28 4).toNat := by
  have hw := w.isLt
  rw [toNat_field, BitVec.toNat_ushiftRight, Nat.shiftRight_eq_div_pow]
  omega

/-- OP of a legal word is 1 to 8 (R61). -/
theorem Reads.op_range {w : Word} {i : Instr} (h : Reads w i) :
    1 ≤ (w.extractLsb' 28 4).toNat ∧ (w.extractLsb' 28 4).toNat ≤ 8 := by
  cases h <;> simp [‹w.extractLsb' 28 4 = _›]

/-- Settles O20: an illegal word is answered as one, and no legal word has another OP than 1 to 8. -/
theorem illegalWordIsAnsweredWithNoEffect : Obligations.IllegalWordIsAnsweredWithNoEffect := by
  refine ⟨fun w s hf hd => ?answer, fun w hop i hd => ?op⟩
  case answer =>
    rw [acceptWord_of_illegal hd, hf]
    rfl
  case op =>
    have hr := (reads_of_decode hd).op_range
    rw [toNat_shiftRight_op] at hop
    omega

/-! The match and mask table (R71). -/

/-- R71's row of a field read, for every field at once. -/
def fgetRow (f : TimeField) : OpcodeRow :=
  ⟨(Instr.fget f).mnemonic, 0x70000000 ||| (f.code.setWidth 32 <<< 24), 0xFFFFFFFF⟩

/-- R71's row of a field write, for every field at once; the mnemonic does not depend on the operand. -/
def fsetRow (f : TimeField) : OpcodeRow :=
  ⟨(Instr.fset f 0).mnemonic, 0x80000000 ||| (f.code.setWidth 32 <<< 24), 0xFFFFFF00⟩

theorem mnemonic_fset (f : TimeField) (v : Byte) : (Instr.fset f v).mnemonic = (fsetRow f).mnemonic := by
  cases f <;> rfl

theorem fgetRow_mem (f : TimeField) : fgetRow f ∈ hostRows := by cases f <;> decide

theorem fsetRow_mem (f : TimeField) : fsetRow f ∈ hostRows := by cases f <;> decide

/-- A property of every row, by family. -/
theorem OpcodeRow.byFamily {P : OpcodeRow → Prop} (rdreg : P ⟨"RDREG", 0x10000000, 0xFFFFFF00⟩)
    (wrreg : P ⟨"WRREG", 0x20000000, 0xFFFF0000⟩) (rev8 : P ⟨"REV8", 0x30000000, 0xFFFFFF00⟩)
    (bcdenc : P ⟨"BCDENC", 0x40000000, 0xFFFFFF00⟩) (bcddec : P ⟨"BCDDEC", 0x50000000, 0xF0007F00⟩)
    (mapaddr : P ⟨"MAPADDR", 0x60000000, 0xF8FEFFFF⟩) (fget : ∀ f, P (fgetRow f)) (fset : ∀ f, P (fsetRow f)) :
    ∀ row ∈ hostRows, P row := by
  simp only [hostRows, List.forall_mem_append, List.forall_mem_cons]
  exact ⟨⟨⟨rdreg, wrreg, rev8, bcdenc, bcddec, mapaddr, by simp⟩,
    fget .sec, fget .min, fget .hour, fget .day, fget .month, fget .wday, fget .year, by simp⟩,
    fset .sec, fset .min, fset .hour, fset .day, fset .month, fset .wday, fset .year, by simp⟩

/-- Only BCDDEC's row has a condition beyond its mask. -/
theorem OpcodeRow.condition_of_ne {row : OpcodeRow} (h : row.mnemonic ≠ "BCDDEC") (w : Word) :
    row.condition w = true := if_neg h

/-- The condition of BCDDEC's row: the ranges are not inverted, and without a tens range its bits are 0. -/
theorem OpcodeRow.condition_bcddec (value mask w : Word) : OpcodeRow.condition ⟨"BCDDEC", value, mask⟩ w =
    (BitRange.wf ⟨w.extractLsb' 18 3, w.extractLsb' 15 3⟩ &&
      (if w.getLsbD 27 then BitRange.wf ⟨w.extractLsb' 24 3, w.extractLsb' 21 3⟩ else w.extractLsb' 21 6 == 0)) :=
  if_pos rfl

/-- A word the decoder reads matches the row of its mnemonic. -/
theorem Reads.exists_row {w : Word} {i : Instr} (h : Reads w i) :
    ∃ row ∈ hostRows, row.mnemonic = i.mnemonic ∧ row.hits w = true ∧ row.condition w = true := by
  cases h with
  | rdreg op zero => exact ⟨⟨"RDREG", 0x10000000, 0xFFFFFF00⟩, by decide, rfl, (row_unary w 1).mpr ⟨op, zero⟩,
      OpcodeRow.condition_of_ne (by decide) w⟩
  | wrreg op zero => exact ⟨⟨"WRREG", 0x20000000, 0xFFFF0000⟩, by decide, rfl, (row_wrreg w).mpr ⟨op, zero⟩,
      OpcodeRow.condition_of_ne (by decide) w⟩
  | rev8 op zero => exact ⟨⟨"REV8", 0x30000000, 0xFFFFFF00⟩, by decide, rfl, (row_unary w 3).mpr ⟨op, zero⟩,
      OpcodeRow.condition_of_ne (by decide) w⟩
  | bcdenc op zero => exact ⟨⟨"BCDENC", 0x40000000, 0xFFFFFF00⟩, by decide, rfl, (row_unary w 4).mpr ⟨op, zero⟩,
      OpcodeRow.condition_of_ne (by decide) w⟩
  | bcddecTens op zero t tens ones => exact ⟨⟨"BCDDEC", 0x50000000, 0xF0007F00⟩, by decide, rfl,
      (row_bcddec w).mpr ⟨op, zero⟩, by rw [OpcodeRow.condition_bcddec, ones, t, if_pos rfl, tens]; rfl⟩
  | bcddecOnes op zero t noTens ones => exact ⟨⟨"BCDDEC", 0x50000000, 0xF0007F00⟩, by decide, rfl,
      (row_bcddec w).mpr ⟨op, zero⟩, by rw [OpcodeRow.condition_bcddec, ones, t, noTens]; rfl⟩
  | mapaddr op zero27 zero17 zero0 => exact ⟨⟨"MAPADDR", 0x60000000, 0xF8FEFFFF⟩, by decide, rfl,
      (row_mapaddr w).mpr ⟨op, zero27, zero17, zero0⟩, OpcodeRow.condition_of_ne (by decide) w⟩
  | fget f op fld zero27 zero0 => exact ⟨fgetRow f, fgetRow_mem f, rfl,
      (row_fget w f.code).mpr ⟨op, fld, zero27, zero0⟩, OpcodeRow.condition_of_ne (by cases f <;> decide) w⟩
  | fset f op fld zero27 zero8 => exact ⟨fsetRow f, fsetRow_mem f, (mnemonic_fset f _).symm,
      (row_fset w f.code).mpr ⟨op, fld, zero27, zero8⟩, OpcodeRow.condition_of_ne (by cases f <;> decide) w⟩

/-- A word that matches BCDDEC's row and meets its condition is a BCDDEC, with a tens range or without by its T bit. -/
theorem reads_of_bcddecRow {w : Word} (hits : OpcodeRow.hits ⟨"BCDDEC", 0x50000000, 0xF0007F00⟩ w = true)
    (cond : OpcodeRow.condition ⟨"BCDDEC", 0x50000000, 0xF0007F00⟩ w = true) :
    ∃ i, Reads w i ∧ i.mnemonic = "BCDDEC" := by
  obtain ⟨op, zero⟩ := (row_bcddec w).mp hits
  rw [OpcodeRow.condition_bcddec, Bool.and_eq_true] at cond
  obtain ⟨ones, htens⟩ := cond
  cases t : w.getLsbD 27 with
  | true => exact ⟨_, .bcddecTens op zero t (by rwa [t, if_pos rfl] at htens) ones, rfl⟩
  | false => exact ⟨_, .bcddecOnes op zero t (by simpa [t, -BitVec.getLsbD_eq_getElem] using htens) ones, rfl⟩

/-- A word that matches a row and meets its condition is read as a command of that row. -/
theorem reads_of_row (w : Word) : ∀ row ∈ hostRows, row.hits w = true → row.condition w = true →
    ∃ i, Reads w i ∧ i.mnemonic = row.mnemonic := by
  apply OpcodeRow.byFamily
  case rdreg =>
    intro hits _
    obtain ⟨op, zero⟩ := (row_unary w 1).mp hits
    exact ⟨_, .rdreg op zero, rfl⟩
  case wrreg =>
    intro hits _
    obtain ⟨op, zero⟩ := (row_wrreg w).mp hits
    exact ⟨_, .wrreg op zero, rfl⟩
  case rev8 =>
    intro hits _
    obtain ⟨op, zero⟩ := (row_unary w 3).mp hits
    exact ⟨_, .rev8 op zero, rfl⟩
  case bcdenc =>
    intro hits _
    obtain ⟨op, zero⟩ := (row_unary w 4).mp hits
    exact ⟨_, .bcdenc op zero, rfl⟩
  case bcddec => exact reads_of_bcddecRow
  case mapaddr =>
    intro hits _
    obtain ⟨op, zero27, zero17, zero0⟩ := (row_mapaddr w).mp hits
    exact ⟨_, .mapaddr op zero27 zero17 zero0, rfl⟩
  case fget =>
    intro f hits _
    obtain ⟨op, fld, zero27, zero0⟩ := (row_fget w f.code).mp hits
    exact ⟨_, .fget f op fld zero27 zero0, rfl⟩
  case fset =>
    intro f hits _
    obtain ⟨op, fld, zero27, zero8⟩ := (row_fset w f.code).mp hits
    exact ⟨_, .fset f op fld zero27 zero8, mnemonic_fset f _⟩

/-- Two different rows differ in a bit that both masks keep. -/
theorem rows_differ_under_masks :
    ∀ a ∈ hostRows, ∀ b ∈ hostRows, a.value &&& b.mask = b.value &&& a.mask → a = b := by decide

/-- Settles O47: each row of R71 says what the decoder checks, and two rows that one word matches agree under both
masks. -/
theorem decoderAgreesWithMatchAndMask : Obligations.DecoderAgreesWithMatchAndMask := by
  refine ⟨fun w m => ⟨?row, ?word⟩, fun w a b ha hb hwa hwb => ?one⟩
  case row =>
    rintro ⟨i, hd, rfl⟩
    exact (reads_of_decode hd).exists_row
  case word =>
    rintro ⟨row, hrow, rfl, hits, cond⟩
    obtain ⟨i, hi, hm⟩ := reads_of_row w row hrow hits cond
    exact ⟨i, hi.decode, hm⟩
  case one =>
    refine rows_differ_under_masks a ha b hb ?_
    rw [← beq_iff_eq.mp hwa, ← beq_iff_eq.mp hwb, BitVec.and_assoc, BitVec.and_assoc, BitVec.and_comm a.mask]

/-! The assembler's words (R69). -/

/-- A field put into the zero bits of a word adds its number, shifted to its place. -/
theorem toNat_or_field {n N : Nat} {u : Word} (x : BitVec n) (k : Nat) (hu : u.toNat = N)
    (hz : N % 2 ^ (k + n) = 0 := by omega) (hk : k + n ≤ 32 := by omega) :
    (u ||| (x.setWidth 32 <<< k)).toNat = N + x.toNat * 2 ^ k := by
  have hx : x.toNat * 2 ^ k < 2 ^ (k + n) := by
    rw [Nat.add_comm, Nat.pow_add]
    exact Nat.mul_lt_mul_of_pos_right x.isLt (Nat.two_pow_pos k)
  have hle : 2 ^ (k + n) ≤ 2 ^ 32 := Nat.pow_le_pow_right (by omega) hk
  have hn : 2 ^ n ≤ 2 ^ 32 := Nat.pow_le_pow_right (by omega) (by omega)
  rw [BitVec.toNat_or, hu, BitVec.toNat_shiftLeft, BitVec.toNat_setWidth, Nat.shiftLeft_eq,
    Nat.mod_eq_of_lt (lt_of_lt_of_le x.isLt hn), Nat.mod_eq_of_lt (lt_of_lt_of_le hx hle), or_eq_add _ hz hx]

section FormatAsOr

variable {op : BitVec 4} {u : Word} (d a x v : Byte) (t dir : BitVec 1) (tens ones : BitRange) (fld : BitVec 3)

/-- Format R as its fields put into the word of OP (R62). -/
theorem formatR_eq_or (hu : u.toNat = op.toNat * 2 ^ 28) :
    formatR op d a = u ||| (d.setWidth 32 <<< 8) ||| a.setWidth 32 := by
  have h := toNat_or_field a 0 (toNat_or_field d 8 hu)
  rw [BitVec.shiftLeft_zero] at h
  apply BitVec.eq_of_toNat_eq
  rw [h, toNat_formatR]
  omega

/-- Format U as its fields put into the word of OP (R63). -/
theorem formatU_eq_or (hu : u.toNat = op.toNat * 2 ^ 28) : formatU op x = u ||| x.setWidth 32 := by
  have h := toNat_or_field x 0 hu
  rw [BitVec.shiftLeft_zero] at h
  apply BitVec.eq_of_toNat_eq
  rw [h, toNat_formatU]
  omega

/-- Format B as its fields put into the word of OP (R64). -/
theorem formatB_eq_or : formatB t tens ones x = 0x50000000#32 ||| (t.setWidth 32 <<< 27) |||
    (tens.hi.setWidth 32 <<< 24) ||| (tens.lo.setWidth 32 <<< 21) ||| (ones.hi.setWidth 32 <<< 18) |||
    (ones.lo.setWidth 32 <<< 15) ||| x.setWidth 32 := by
  have ht := toNat_or_field t 27 (N := 5 * 2 ^ 28) (u := 0x50000000#32) rfl
  have hthi := toNat_or_field tens.hi 24 ht
  have htlo := toNat_or_field tens.lo 21 hthi
  have hohi := toNat_or_field ones.hi 18 htlo
  have holo := toNat_or_field ones.lo 15 hohi
  have hx := toNat_or_field x 0 holo
  rw [BitVec.shiftLeft_zero] at hx
  apply BitVec.eq_of_toNat_eq
  rw [hx, toNat_formatB]
  omega

/-- Format F as its fields put into the word of OP (R65). -/
theorem formatF_eq_or (hu : u.toNat = op.toNat * 2 ^ 28) : formatF op fld dir v =
    u ||| (fld.setWidth 32 <<< 24) ||| (dir.setWidth 32 <<< 16) ||| v.setWidth 32 := by
  have hdir := toNat_or_field dir 16 (toNat_or_field fld 24 hu)
  have hv := toNat_or_field v 0 hdir
  rw [BitVec.shiftLeft_zero] at hv
  apply BitVec.eq_of_toNat_eq
  rw [hv, toNat_formatF]
  omega

end FormatAsOr

/-- Settles O48: the encoder's formats as their fields put into the word of OP, where a field that is 0 adds nothing. -/
theorem encodedWordsAreTheAssemblersWords : Obligations.EncodedWordsAreTheAssemblersWords := by
  refine ⟨fun a => ?rdreg, fun a d => ?wrreg, fun x => ?rev8, fun v => ?bcdenc, fun x t o => ?bcddecTens,
    fun x o => ?bcddecOnes, fun r dir => ?mapaddr, fun f => ?fget, fun f v => ?fset⟩
  case rdreg => simp [encode, formatR_eq_or (u := 0x10000000#32)]
  case wrreg => exact congrArg Code.host (formatR_eq_or d a rfl)
  case rev8 => exact congrArg Code.host (formatU_eq_or x rfl)
  case bcdenc => exact congrArg Code.host (formatU_eq_or v rfl)
  case bcddecTens => exact congrArg Code.host (formatB_eq_or x 1 t o)
  case bcddecOnes => simp [encode, formatB_eq_or]
  case mapaddr => simp [encode, formatF_eq_or (u := 0x60000000#32)]
  case fget => simp [encode_fget, formatF_eq_or (u := 0x70000000#32)]
  case fset => simp [encode_fset, formatF_eq_or (u := 0x80000000#32)]

/-! The wire command bytes (R57 to R59, R107 to R122). -/

/-- Settles O8: the mapper's formula is R58's, and the two command bytes of a register differ in bit 0. -/
theorem readByteIsWriteBytePlusOne : Obligations.ReadByteIsWriteBytePlusOne := by
  intro r
  refine ⟨?lowBit, ?plusOne, ?even, fun dir => ⟨(mapAddress_eq_wireByte r dir).symm, mapAddress_eq_wireByte r dir⟩⟩
  case lowBit => cases r <;> decide
  case plusOne => cases r <;> decide
  case even => cases r <;> decide

theorem tableWriteByte_setWidth (r : Register) : (tableWriteByte r).setWidth 8 = wireByte r .write := by
  cases r <;> decide

theorem tableReadByte_setWidth (r : Register) : (tableReadByte r).setWidth 8 = wireByte r .read := by
  cases r <;> decide

/-- The transmit latch of a write: the data byte above the table's write byte (R24, R104). -/
theorem writeLatch_eq (r : Register) (d : Byte) :
    (d.setWidth 16 <<< 8) ||| tableWriteByte r = d ++ wireByte r .write := by
  rw [shift_or_eq_append d _ (by cases r <;> decide), tableWriteByte_setWidth]

/-- The transmit latch of a read: the table's read byte below a zero byte (R24, R104). -/
theorem readLatch_eq (r : Register) : tableReadByte r = 0#8 ++ wireByte r .read := by cases r <;> decide

/-- Settles O17: the latch of each kind holds the wire command the engine fetches. -/
theorem stepRunsTheWireCommandInTheLatch : Obligations.StepRunsTheWireCommandInTheLatch := by
  refine fun s hr hp => ⟨fun r d hk hn ht => ?write, fun r hk hn ht => ?read⟩
  case write => exact step_of_fetchWire hr hp (fetchWire_write hk hn (ht.trans (writeLatch_eq r d)))
  case read => exact step_of_fetchWire hr hp (fetchWire_read hk hn (ht.trans (readLatch_eq r)))

/-- A transaction opened by a line action that succeeds: the latches of R75, CLOCK low, and B_CE next (R81). -/
theorem openTransaction_of_ok {s : State} (kind : Kind) (a d : Byte) (hf : s.faulted = false) (hD : DriverOk 1 s) :
    openTransaction kind a d s = { s.dropReports 1 with
      busy := true, kind := kind, txseq := d ++ a, ntx := ntxOf kind, rx := 0, i := 0, j := 0, clk := .low
      trace := s.trace ++ [.setLevel .clock .low], phase := .bCe } := by
  have hload : DriverOk 1 (s.load kind a d) := hD
  rw [openTransaction, unlessFaulted_of_clear _ hf, act_of_ok _ _ hload, dropReports_eq, dropReports_eq]
  rfl

/-- Settles O14: a wire command opens the transaction of the byte the mapper gives for its register, which is the
table's. -/
theorem wireBytesOpenTheirTransactions : Obligations.WireBytesOpenTheirTransactions := by
  refine fun r s hf hD => ⟨fun d => ?write, ?read⟩
  case write =>
    rw [exec_wireWrite, wireWrite, openTransaction_of_ok _ _ _ hf hD, mapAddress_eq_wireByte, writeLatch_eq]
    rfl
  case read =>
    rw [exec_wireRead, wireRead, openTransaction_of_ok _ _ _ hf hD, mapAddress_eq_wireByte, readLatch_eq]
    rfl

/-- The run of an instruction that the step executes: its own step, then the others. -/
theorem steps_of_exec {n : Nat} {i : Instr} {s u : State} (hs : step s = exec i s) (hu : steps (n + 1) s = .next u) :
    ∃ t, exec i s = .next t ∧ steps n t = .next u := by
  obtain ⟨t, ht⟩ := exec_total i s
  exact ⟨t, ht, (steps_succ (hs.trans ht)).symm.trans hu⟩

/-- Settles O30: the step at B_CLK is the wire command's, and the whole transaction is that of R86 or R87. -/
theorem wireBytesRunTheirTransactions : Obligations.WireBytesRunTheirTransactions := by
  intro r s hi hr hp
  obtain ⟨hwrite, hread⟩ := stepRunsTheWireCommandInTheLatch s hr hp
  refine ⟨fun d hk ht hD => ?write, fun ls rest hk ht hl hs hD => ?read⟩
  case write =>
    obtain ⟨t, hexec, hrun⟩ := steps_of_exec (hwrite r d hk (by rw [hi.ntx, hk]; rfl) ht)
      (steps_write hi hr hp hk (ht.trans (writeLatch_eq r d)) hD)
    exact ⟨t, _, hexec, hrun, by rw [tableWriteByte_setWidth], rfl, rfl, rfl, rfl, rfl⟩
  case read =>
    obtain ⟨t, hexec, hrun⟩ := steps_of_exec (hread r hk (by rw [hi.ntx, hk]; rfl) ht)
      (steps_read hi hr hp hk (ht.trans (readLatch_eq r)) hl hs hD)
    exact ⟨t, _, hexec, hrun, by rw [tableReadByte_setWidth], rfl, rfl, rfl, rfl, rfl⟩

end Sys2Proof.Machine
end

section
/-! PROOF. The protocol engine (40_engine.md): REV8; the acceptance of the commands that run a transaction; the runs of
RDREG, WRREG and the field commands from the host port to IDLE; and what holds in every transaction: the lines it moves
and when, that it ends, and that the levels sampled change none of its line actions but the reads. -/

namespace Sys2Proof.Machine

/-! REV8 (R72). -/

/-- Bit `k` of the reversed byte is bit `7 - k` of the byte. -/
theorem getLsbD_rev8 : ∀ x : Byte, ∀ k < 8, (rev8 x).getLsbD k = x.getLsbD (7 - k) := by decide

/-- REV8 is an involution. -/
theorem rev8_rev8 (x : Byte) : rev8 (rev8 x) = x := by
  refine BitVec.eq_of_getLsbD_eq fun k hk => ?_
  rw [getLsbD_rev8 _ k hk, getLsbD_rev8 x _ (by omega), Nat.sub_sub_self (by omega)]

/-- RESULT's low byte is the byte that was extended to it (R66). -/
theorem setWidth_zext16 (x : Byte) : (zext16 x).setWidth 8 = x := by
  rw [zext16, BitVec.setWidth_setWidth_of_le _ (by omega), BitVec.setWidth_eq]

theorem exec_rev8 (x : Byte) {s : State} (hf : s.faulted = false) :
    exec (.rev8 x) s = .next (s.withAnswer (zext16 (rev8 x))) :=
  congrArg Host.Outcome.next (unlessFaulted_of_clear _ hf)

/-- Settles O1: REV8 answers `rev8` of its operand, which reverses the bits and undoes itself. -/
theorem rev8ReversesBitsAndIsAnInvolution : Obligations.Rev8ReversesBitsAndIsAnInvolution := by
  intro x s hf
  refine ⟨_, _, exec_rev8 x hf, rfl, fun k hk => ?bits, ?byte, exec_rev8 _ hf, ?involution⟩
  case bits =>
    change ((rev8 x).setWidth 16).getLsbD k = _
    rw [BitVec.getLsbD_setWidth, decide_eq_true (by omega), Bool.true_and, getLsbD_rev8 x k hk]
  case byte =>
    change ((rev8 x).setWidth 16).toNat < 256
    rw [BitVec.toNat_setWidth_of_le (by omega)]
    exact (rev8 x).isLt
  case involution =>
    change zext16 (rev8 ((zext16 (rev8 x)).setWidth 8)) = zext16 x
    rw [setWidth_zext16, rev8_rev8]

/-! Acceptance (R75). -/

/-- Settles O9: RDREG's meaning is acceptance, with the latches of R75. -/
theorem rdregIsAccepted : Obligations.RdregIsAccepted :=
  fun a _ hf => congrArg Host.Outcome.next (unlessFaulted_of_clear (State.accept .read a 0 .none) hf)

/-- Settles O10: WRREG's meaning is acceptance, with the latches of R75. -/
theorem wrregIsAccepted : Obligations.WrregIsAccepted :=
  fun a d _ hf => congrArg Host.Outcome.next (unlessFaulted_of_clear (State.accept .write a d .none) hf)

theorem exec_fget_of_clear (f : TimeField) {s : State} (hf : s.faulted = false) : exec (Instr.fget f) s =
    .next (s.acceptField .read (mapAddress f.register .read) 0 (.dec f) f) := by
  rw [exec_fget, fieldRead, unlessFaulted_of_clear _ hf]

theorem exec_fset_of_accepts {f : TimeField} {v : Byte} {s : State} (hf : s.faulted = false)
    (hv : fsetAccepts f v = true) : exec (Instr.fset f v) s =
    .next (s.acceptField .write (mapAddress f.register .write) (enc v) .discard f) := by
  rw [exec_fset, fieldWrite, unlessFaulted_of_clear _ hf, if_pos hv]

/-- Settles O11: the mapper's read byte of each field is the one R127 to R133 give. -/
theorem fgetIsAcceptedWithItsReadByte : Obligations.FgetIsAcceptedWithItsReadByte := by
  intro f a hmem s hf
  have ha : mapAddress f.register .read = a := by
    cases f <;> simp at hmem <;> subst hmem <;> rfl
  rw [exec_fget_of_clear f hf, ha]
  rfl

/-- Settles O12: validation passes the operand, the mapper's write byte of each field is the one R134 to R140 give, and
`enc` packs the two digits. -/
theorem fsetIsAcceptedWithItsWriteByteAndDigits : Obligations.FsetIsAcceptedWithItsWriteByteAndDigits := by
  intro f a lo hi hmem v s hf hlo hhi
  have ha : mapAddress f.register .write = a := by
    cases f <;> simp at hmem <;> obtain ⟨rfl, -⟩ := hmem <;> rfl
  have hv : fsetAccepts f v = true := by
    cases f <;> simp at hmem <;> obtain ⟨-, rfl, rfl⟩ := hmem <;> simp [fsetAccepts, hlo, hhi]
  rw [exec_fset_of_accepts hf hv, ha, enc_eq_digits v (fsetAccepts_le hv)]
  rfl

/-! No state that meets the invariant stops. -/

/-- Settles O35: reset always answers, so does a step in IDLE, and the invariant keeps the sequencer from its faults. -/
theorem invariantStatesNeverStop : Obligations.InvariantStatesNeverStop := by
  intro s hi
  cases hr : s.resetPin with
  | true => exact ⟨_, step_of_reset hr⟩
  | false =>
    by_cases hp : s.phase = .idle
    · rw [step_of_idle hr hp]
      exact hostStep_total s
    · obtain ⟨t, ht, -⟩ := seqStep_inv hi hp
      exact ⟨t, (step_of_running hi hr hp).trans ht⟩

/-- The invariant holds along a run. -/
theorem steps_inv : ∀ {n : Nat} {s t : State}, Inv s → steps n s = .next t → Inv t := by
  intro n
  induction n with
  | zero => intro s t hi h; cases h; exact hi
  | succ n ih =>
    intro s t hi h
    obtain ⟨u, hu⟩ := invariantStatesNeverStop s hi
    exact ih (step_inv hi hu) ((steps_succ hu).symm.trans h)

/-! The runs of the host's commands (R84, R86, R87). -/

theorem decode_rdreg (a : Byte) : decode (formatR 0x1#4 0#8 a) = .ok (.rdreg a) := by simp [decode]

theorem decode_wrreg (a d : Byte) : decode (formatR 0x2#4 d a) = .ok (.wrreg a d) := by simp [decode]

/-- A ready, unfaulted block, to which the host presents the word `w` as a procedure of its own (entry 3). -/
structure Presents (w : Word) (ps : List Procedure) (s : State) : Prop where
  inv : Inv s
  noReset : s.resetPin = false
  idle : s.phase = .idle
  clear : s.faulted = false
  noProc : s.proc = []
  todo : s.todo = ⟨w, []⟩ :: ps

/-- The instruction is accepted as a transaction with the latches of R75 and some field code (R26). -/
def Accepts (i : Instr) (kind : Kind) (a d : Byte) (post : Post) : Prop :=
  ∀ s : State, s.faulted = false → ∃ c, exec i s = .next { s.accept kind a d post with fld := c }

/-- What the run of a command from the host port to IDLE leaves: the line actions `acts` done, the response `r` given,
the lines at rest with DATA at `l` (R84), and the host and the peripheral to go on with `ps` and `levels`. -/
structure Ran (acts : List LineAction) (r : BitVec 16) (l : Level) (levels : List Level) (ps : List Procedure)
    (s t : State) : Prop where
  trace : t.trace = s.trace ++ acts
  result : t.result = r
  err : t.err = 0
  responses : t.responses = s.responses ++ [⟨r, 0⟩]
  busy : t.busy = false
  idle : t.phase = .idle
  clear : t.faulted = false
  samples : t.samples = levels
  proc : t.proc = []
  todo : t.todo = ps
  clk : t.clk = .low
  ce : t.ce = .low
  dataDir : t.dataDir = .output
  dataOut : t.dataOut = l
  inv : Inv t

section Runs

variable {s : State} {w : Word} {ps : List Procedure} {i : Instr} {kind : Kind} {a d : Byte} {post : Post}

/-- The acceptance step: the word is taken from the host and its transaction is at B_CLK (R75). -/
theorem Presents.accept (h : Presents w ps s) (hw : decode w = .ok i) (ha : Accepts i kind a d post)
    (hpost : postFits { s with kind := kind, post := post } = true) :
    ∃ n c, step s = .next { { s with proc := [], todo := ps, procBegan := n }.accept kind a d post with fld := c } ∧
      Inv { { s with proc := [], todo := ps, procBegan := n }.accept kind a d post with fld := c } := by
  obtain ⟨hi, hr, hp, hf, hproc, htodo⟩ := h
  obtain ⟨-, hfirst⟩ := stepRunsThePresentedCommand s w hr hp (hi.ready_of_idle hp)
  obtain ⟨hexec, -⟩ := hfirst [] ps hproc htodo
  obtain ⟨c, hc⟩ := ha { s with proc := [], todo := ps, procBegan := s.responses.length } hf
  exact ⟨_, c, (hexec i hw).trans hc,
    (inv_accept (hi.host [] ps s.responses.length) hp hf kind a d post hpost).fld c⟩

/-- The direction of DATA is output before a command, in IDLE and unfaulted (R20, R84). -/
theorem Presents.dataDir (h : Presents w ps s) : s.dataDir = .output := by
  simpa [dirAt, h.idle] using h.inv.dataDir h.clear

/-- A command accepted as a read runs the whole read transaction (R87). -/
theorem Presents.runs_read {ls rest : List Level} (h : Presents w ps s) (hw : decode w = .ok i)
    (ha : Accepts i .read a 0 post) (hpost : postFits { s with kind := .read, post := post } = true)
    (hl : ls.length = 8) (hs : s.samples = ls ++ rest) (hD : DriverOk 54 s) : ∃ t, steps 56 s = .next t ∧
      Ran (readTrace a ls) (readResult post (receivedByte ls)) (lvl (a.getLsbD 7)) rest ps s t := by
  obtain ⟨n, c, hstep, hi⟩ := h.accept hw ha hpost
  have hrun := steps_read hi h.noReset rfl rfl rfl hl hs hD
  exact ⟨_, (steps_succ hstep).trans hrun, rfl, rfl, rfl, rfl, rfl, rfl, h.clear, rfl, rfl, rfl, rfl, rfl,
    h.dataDir, rfl, steps_inv hi hrun⟩

/-- A command accepted as a write runs the whole write transaction (R86). -/
theorem Presents.runs_write (h : Presents w ps s) (hw : decode w = .ok i) (ha : Accepts i .write a d post)
    (hpost : postFits { s with kind := .write, post := post } = true) (hD : DriverOk 52 s) :
    ∃ t, steps 54 s = .next t ∧ Ran (writeTrace a d) 0 (lvl (d.getLsbD 7)) s.samples ps s t := by
  obtain ⟨n, c, hstep, hi⟩ := h.accept hw ha hpost
  have hrun := steps_write hi h.noReset rfl rfl rfl hD
  exact ⟨_, (steps_succ hstep).trans hrun, rfl, rfl, rfl, rfl, rfl, rfl, h.clear, rfl, rfl, rfl, rfl, rfl,
    h.dataDir, rfl, steps_inv hi hrun⟩

end Runs

/-- Settles O26: RDREG's word is accepted with POST NONE, so its result is the byte received. -/
theorem rdregRunsTheReadTrace : Obligations.RdregRunsTheReadTrace := by
  intro a ls rest ps s hi hr hp hf hproc htodo hl hs hD
  obtain ⟨hwords, -⟩ := encodedWordsAreTheAssemblersWords
  have hd : decode (0x10000000#32 ||| a.setWidth 32) = .ok (.rdreg a) := Code.host.inj (hwords a) ▸ decode_rdreg a
  obtain ⟨t, ht, hran⟩ := Presents.runs_read ⟨hi, hr, hp, hf, hproc, htodo⟩ hd
    (fun u hu => ⟨u.fld, rdregIsAccepted a u hu⟩) rfl hl hs hD
  exact ⟨t, ht, hran.trace, hran.result, hran.err, by rw [hran.result]; exact hran.responses, hran.busy, hran.idle,
    hran.clear, hran.samples, hran.proc, hran.todo, hran.clk, hran.ce, hran.dataDir, hran.dataOut, hran.inv⟩

/-- Settles O27: WRREG's word is accepted as a write, whose result is 0. -/
theorem wrregRunsTheWriteTrace : Obligations.WrregRunsTheWriteTrace := by
  intro a d ps s hi hr hp hf hproc htodo hD
  obtain ⟨-, hwords, -⟩ := encodedWordsAreTheAssemblersWords
  have hd : decode (0x20000000#32 ||| (d.setWidth 32 <<< 8) ||| a.setWidth 32) = .ok (.wrreg a d) :=
    Code.host.inj (hwords a d) ▸ decode_wrreg a d
  obtain ⟨t, ht, hran⟩ := Presents.runs_write ⟨hi, hr, hp, hf, hproc, htodo⟩ hd
    (fun u hu => ⟨u.fld, wrregIsAccepted a d u hu⟩) rfl hD
  exact ⟨t, ht, hran.trace, hran.result, hran.err, hran.responses, hran.busy, hran.idle, hran.clear, hran.samples,
    hran.proc, hran.todo, hran.clk, hran.ce, hran.dataDir, hran.dataOut, hran.inv⟩

/-- The result of a field read is the field's decode, which fits RESULT (R96, R101). -/
theorem toNat_readResult_dec (f : TimeField) (x : Byte) : (readResult (.dec f) x).toNat = decodeField f x := by
  have := decodeField_le f x
  exact Nat.mod_eq_of_lt (by omega)

/-- Settles O28: FGET's word is accepted with its field's read byte, whose bit 7 is 1, and POST DEC of its field. -/
theorem fgetRunsAndDecodesItsField : Obligations.FgetRunsAndDecodesItsField := by
  intro f a value hmem ls rest ps s hi hr hp hf hproc htodo hl hs hD
  obtain ⟨-, -, -, -, -, -, -, hwords, -⟩ := encodedWordsAreTheAssemblersWords
  have hd : decode (0x70000000#32 ||| (f.code.setWidth 32 <<< 24)) = .ok (Instr.fget f) :=
    Code.host.inj ((encode_fget f).symm.trans (hwords f)) ▸ decode_fget f
  have hacc := fgetIsAcceptedWithItsReadByte f a (List.mem_map_of_mem (f := fun row => (row.1, row.2.1)) hmem)
  have hbit : a.getLsbD 7 = true := by
    cases f <;> simp at hmem <;> obtain ⟨rfl, -⟩ := hmem <;> rfl
  have hvalue (x : Byte) : decodeField f x = value x := by
    cases f <;> simp at hmem <;> obtain ⟨-, rfl⟩ := hmem <;>
      simp [decodeField, dec, tensRange, onesRange, slice_eq_extract]
  obtain ⟨t, ht, hran⟩ := Presents.runs_read ⟨hi, hr, hp, hf, hproc, htodo⟩ hd
    (fun u hu => ⟨f.code, hacc u hu⟩) rfl hl hs hD
  exact ⟨t, ht, hran.trace, by rw [hran.result, toNat_readResult_dec, hvalue], hran.err,
    by rw [hran.result]; exact hran.responses, hran.idle, hran.samples, hran.todo, hran.clk, hran.ce, hran.dataDir,
    by rw [hran.dataOut, hbit]; rfl, hran.inv⟩

/-- Settles O29: FSET's word is accepted with its field's write byte and the operand's digits. -/
theorem fsetRunsTheWriteTraceOfItsField : Obligations.FsetRunsTheWriteTraceOfItsField := by
  intro f a lo hi hmem v ps s hinv hr hp hf hproc htodo hlo hhi hD
  obtain ⟨-, -, -, -, -, -, -, -, hwords⟩ := encodedWordsAreTheAssemblersWords
  have hd : decode (0x80000000#32 ||| (f.code.setWidth 32 <<< 24) ||| v.setWidth 32) = .ok (Instr.fset f v) :=
    Code.host.inj ((encode_fset f v).symm.trans (hwords f v)) ▸ decode_fset f v
  obtain ⟨t, ht, hran⟩ := Presents.runs_write ⟨hinv, hr, hp, hf, hproc, htodo⟩ hd
    (fun u hu => ⟨f.code, fsetIsAcceptedWithItsWriteByteAndDigits f a lo hi hmem v u hu hlo hhi⟩) rfl hD
  exact ⟨t, ht, hran.trace, hran.result, hran.err, hran.responses, hran.idle, hran.todo, hran.clk, hran.ce,
    hran.dataDir, hran.dataOut, hran.inv⟩

/-! When CE and DATA move (R76, R88). -/

/-- The lines from `s` to `t` stay where they are, or one line action of R81's row is done. -/
theorem seqStep_lines {s t : State} (hi : Inv s) (hp : s.phase ≠ .idle) (hs : seqStep s = .next t) :
    (t.ce = s.ce ∧ t.dataOut = s.dataOut) ∨ ∃ a k, Transition s a k ∧ t.clk = (s.perform a).clk ∧
      t.ce = (s.perform a).ce ∧ t.dataOut = (s.perform a).dataOut := by
  rcases seqStep_cases hi hp with ⟨-, v, he⟩ | ⟨-, r, d, ⟨-, he⟩ | ⟨a, k, h, he⟩ | ⟨-, l, m, he⟩⟩ <;>
    rw [he] at hs <;> cases hs
  · exact .inl ⟨rfl, rfl⟩
  · exact .inl ⟨rfl, rfl⟩
  · refine .inr ⟨a, k, h, ?_⟩
    rw [h.frame]
    rcases a with ⟨_ | _ | _, l⟩ | _ | _ <;> exact ⟨rfl, rfl, rfl⟩
  · exact .inl ⟨rfl, rfl⟩

/-- A line action that changes CE sets it, and leaves CLOCK. -/
theorem ce_of_perform {s : State} {a : LineAction} (h : (s.perform a).ce ≠ s.ce) :
    a = .setLevel .ce (s.perform a).ce ∧ (s.perform a).clk = s.clk := by
  cases a with
  | setLevel line l =>
    cases line with
    | ce => exact ⟨rfl, rfl⟩
    | clock | data => exact absurd rfl h
  | readLevel l | setDir dir => exact absurd rfl h

/-- A line action that changes the latch of DATA sets it, and leaves CLOCK. -/
theorem dataOut_of_perform {s : State} {a : LineAction} (h : (s.perform a).dataOut ≠ s.dataOut) :
    a = .setLevel .data (s.perform a).dataOut ∧ (s.perform a).clk = s.clk := by
  cases a with
  | setLevel line l =>
    cases line with
    | data => exact ⟨rfl, rfl⟩
    | clock | ce => exact absurd rfl h
  | readLevel l | setDir dir => exact absurd rfl h

/-- CE is set HIGH in B_CE alone (R76). -/
theorem Transition.phase_of_ce_high {s : State} {k : State → State} (h : Transition s (.setLevel .ce .high) k) :
    s.phase = .bCe := by
  unfold Transition at h
  split at h <;> simp_all

/-- DATA is set in TX_D alone (R77). -/
theorem Transition.phase_of_data {s : State} {k : State → State} {l : Level}
    (h : Transition s (.setLevel .data l) k) : s.phase = .txD := by
  unfold Transition at h
  split at h <;> simp_all

/-- Settles O38: CE rises in B_CE and DATA changes in TX_D alone; there CLOCK is LOW and DATA an output, and the action
leaves CLOCK. -/
theorem ceRisesAndDataChangesWhileClockIsLow : Obligations.CeRisesAndDataChangesWhileClockIsLow := by
  intro s t hi hr h
  by_cases hp : s.phase = .idle
  · obtain ⟨-, -, hce, -, hout, -⟩ := hostStep_lines hp (step_of_idle hr hp ▸ h)
    exact ⟨fun hl hh => by simp [hce, hl] at hh, fun hne => absurd hout.symm hne⟩
  have hf := hi.not_faulted hp
  have hclk := hi.clk hf
  have hdir := hi.dataDir hf
  rcases seqStep_lines hi hp (step_of_running hi hr hp ▸ h) with ⟨hce, hout⟩ | ⟨a, k, ht, hc, hce, hout⟩
  · exact ⟨fun hl hh => by simp [hce, hl] at hh, fun hne => absurd hout.symm hne⟩
  refine ⟨fun hl hh => ?ce, fun hne => ?data⟩
  case ce =>
    obtain ⟨ha, hkeep⟩ := ce_of_perform (s := s) (a := a) (by rw [← hce, hl, hh]; decide)
    rw [← hce, hh] at ha
    have hb := (ha ▸ ht).phase_of_ce_high
    have hlow : s.clk = .low := by simpa [clkAt, hb] using hclk
    exact ⟨hlow, (hc.trans hkeep).trans hlow⟩
  case data =>
    obtain ⟨ha, hkeep⟩ := dataOut_of_perform (s := s) (a := a) (by rw [← hout]; exact hne.symm)
    have hb := (ha ▸ ht).phase_of_data
    have hlow : s.clk = .low := by simpa [clkAt, hb] using hclk
    exact ⟨hlow, (hc.trans hkeep).trans hlow, by simpa [dirAt, hb] using hdir⟩

/-! Every transaction ends (R83). -/

/-- A step of a running transaction leaves fewer steps, whatever the level and the report. -/
theorem seqStep_stepsLeft_lt {s t : State} (hi : Inv s) (hp : s.phase ≠ .idle) (hs : seqStep s = .next t) :
    stepsLeft t < stepsLeft s := by
  rcases seqStep_cases hi hp with ⟨-, v, he⟩ | ⟨-, r, d, ⟨-, he⟩ | ⟨a, k, h, he⟩ | ⟨hx, l, m, he⟩⟩ <;>
    rw [he] at hs <;> cases hs
  · exact stepsLeft_pos hi hp
  · exact stepsLeft_pos hi hp
  · have := stepsLeft_dec hi h (r := r) (d := d)
    omega
  · simp [stepsLeft, storeSample, hx]

/-- A running transaction is in IDLE within the steps it has left: each step takes one, and keeps the invariant. -/
theorem steps_reach_idle : ∀ {n : Nat} {s : State}, Inv s → s.resetPin = false → stepsLeft s ≤ n →
    ∃ m t, m ≤ stepsLeft s ∧ steps m s = .next t ∧ t.phase = .idle ∧ t.busy = false := by
  intro n
  induction n with
  | zero =>
    intro s hi _ hn
    have hp : s.phase = .idle := by
      by_contra hp
      have := stepsLeft_pos hi hp
      omega
    exact ⟨0, s, by omega, rfl, hp, hi.ready_of_idle hp⟩
  | succ n ih =>
    intro s hi hr hn
    by_cases hp : s.phase = .idle
    · exact ⟨0, s, by omega, rfl, hp, hi.ready_of_idle hp⟩
    obtain ⟨u, hu, hiu⟩ := seqStep_inv hi hp
    obtain ⟨-, -, -, hru, -⟩ := seqStep_sameOutside hi hp hu
    have hlt := seqStep_stepsLeft_lt hi hp hu
    obtain ⟨m, t, hm, ht, hidle, hbusy⟩ := ih hiu (hru.trans hr) (by omega)
    exact ⟨m + 1, t, by omega, (steps_succ ((step_of_running hi hr hp).trans hu)).trans ht, hidle, hbusy⟩

/-- Settles O31, by induction on the steps left, which are at most 55. -/
theorem everyTransactionEnds : Obligations.EveryTransactionEnds :=
  fun _ hi hr _ => ⟨stepsLeft_le hi, steps_reach_idle hi hr le_rfl⟩

/-! Two runs that differ in the levels presented (R85). -/

/-- `u` differs from `s` in what the levels presented can reach: RX, RESULT and its responses, and the levels that the
reads of the line trace returned. -/
structure SameButLevels (s u : State) : Prop where
  frame : u = { s with
    samples := u.samples, draws := u.draws, rx := u.rx, result := u.result, responses := u.responses, trace := u.trace }
  trace : u.trace.map eraseRead = s.trace.map eraseRead

/-- The row of R81 does not depend on the levels. -/
theorem SameButLevels.transition {s u : State} {a : LineAction} {k : State → State} (h : SameButLevels s u)
    (ht : Transition s a k) : Transition u a k := by
  rw [h.frame]; exact ht

/-- What follows a line action adds nothing to the line trace. -/
theorem Transition.trace {s : State} {a : LineAction} {k : State → State} (h : Transition s a k) (t : State) :
    (k t).trace = t.trace := by rw [h.frame]

/-- The guarantee for the coming line actions does not depend on the levels. -/
theorem SameButLevels.driverOk {n : Nat} {s u : State} (h : SameButLevels s u) (hD : DriverOk n s) : DriverOk n u := by
  rw [h.frame]; exact hD

/-- A sample, of any level, in both. -/
theorem SameButLevels.sample {s u : State} (h : SameButLevels s u) (l l' : Level) (m m' : List Level) (d d' : Nat) :
    SameButLevels (storeSample l (State.perform (.readLevel l) { s.dropReports 1 with samples := m, draws := d }))
      (storeSample l' (State.perform (.readLevel l') { u.dropReports 1 with samples := m', draws := d' })) := by
  constructor
  · rw [dropReports_eq, dropReports_eq, h.frame]; rfl
  · simp [storeSample, h.trace, eraseRead]

/-- Completion, with any two results. -/
theorem SameButLevels.finish {s u : State} (h : SameButLevels s u) (r r' : BitVec 16) :
    SameButLevels (s.finish r) (u.finish r') :=
  ⟨by rw [h.frame]; rfl, by simp [h.trace]⟩

/-- One line action of R81's row, which is no read, in both. -/
theorem SameButLevels.perform {s u : State} {a : LineAction} {k : State → State} (h : SameButLevels s u)
    (ht : Transition s a k) : SameButLevels (k ((s.dropReports 1).perform a)) (k ((u.dropReports 1).perform a)) := by
  constructor
  · rw [ht.frame, ht.frame ((u.dropReports 1).perform a), dropReports_eq, dropReports_eq, h.frame]
    rcases ht.follows with ⟨p, rfl⟩ | rfl | rfl | rfl <;> rcases a with ⟨_ | _ | _, _⟩ | _ | _ <;> rfl
  · simp [ht.trace, h.trace]

/-- One transition, in both, of a transaction that no line action cuts short: it takes one of the steps left. -/
theorem seqStep_sameButLevels {n : Nat} {s u : State} (hi : Inv s) (hiu : Inv u) (hn : n + 1 ≤ stepsLeft s)
    (hD : DriverOk (n + 1) s) (h : SameButLevels s u) : ∃ t v, seqStep s = .next t ∧ seqStep u = .next v ∧
      SameButLevels t v ∧ stepsLeft t + 1 = stepsLeft s ∧ DriverOk n t := by
  have hp : s.phase ≠ .idle := by intro hp; simp [stepsLeft, hp] at hn
  have hq : u.phase = s.phase := by rw [h.frame]
  have hDu := h.driverOk hD
  by_cases hd : s.phase = .done
  · obtain ⟨r, hr⟩ := complete_eq s
    obtain ⟨r', hr'⟩ := complete_eq u
    have hleft : stepsLeft s = 1 := by simp [stepsLeft, hd]
    obtain rfl : n = 0 := by omega
    exact ⟨_, _, hr ▸ seqStep_done hd, hr' ▸ seqStep_done (hq.trans hd), h.finish r r', by rw [hleft]; rfl,
      fun _ => ⟨_, rfl⟩⟩
  by_cases hx : s.phase = .rxS
  · obtain ⟨l, m, d, hs⟩ := actRead_ok storeSample hD
    obtain ⟨l', m', d', hu⟩ := actRead_ok storeSample hDu
    refine ⟨_, _, hs ▸ seqStep_rxS hx (hi.rxIndex hx), hu ▸ seqStep_rxS (hq.trans hx) (hiu.rxIndex (hq.trans hx)),
      h.sample l l' m m' d d', by simp [stepsLeft, storeSample, hx], hD.drop ?_ ?_⟩ <;> simp [storeSample]
  · obtain ⟨a, k, ht, hs⟩ := seqStep_transition hi hp hd hx
    obtain ⟨b, l, hb, hu⟩ := seqStep_transition hiu (by rwa [hq]) (by rwa [hq]) (by rwa [hq])
    obtain ⟨rfl, rfl⟩ := (h.transition ht).unique hb
    rw [act_of_ok _ _ hD] at hs
    rw [act_of_ok _ _ hDu] at hu
    refine ⟨_, _, hs, hu, h.perform ht, ?_, hD.drop ?_ ?_⟩
    · rw [dropReports_eq]; exact stepsLeft_dec hi ht (d := s.draws)
    · rw [ht.frame]; simp
    · rw [ht.frame]; simp

/-- A run, in both: it takes its steps of those left. -/
theorem steps_sameButLevels : ∀ {n : Nat} {s u : State}, Inv s → Inv u → s.resetPin = false → n ≤ stepsLeft s →
    DriverOk n s → SameButLevels s u → ∃ t v, steps n s = .next t ∧ steps n u = .next v ∧ SameButLevels t v ∧
      stepsLeft t + n = stepsLeft s ∧ Inv t := by
  intro n
  induction n with
  | zero => exact fun {s u} hi _ _ _ _ h => ⟨s, u, rfl, rfl, h, rfl, hi⟩
  | succ n ih =>
    intro s u hi hiu hr hn hD h
    have hp : s.phase ≠ .idle := by intro hp; simp [stepsLeft, hp] at hn
    have hq : u.phase = s.phase := by rw [h.frame]
    have hru : u.resetPin = s.resetPin := by rw [h.frame]
    obtain ⟨t, v, hs, hu, htv, hleft, hDt⟩ := seqStep_sameButLevels hi hiu hn hD h
    obtain ⟨-, -, -, hrt, -⟩ := seqStep_sameOutside hi hp hs
    have hst := (step_of_running hi hr hp).trans hs
    have hsv := (step_of_running hiu (hru.trans hr) (by rwa [hq])).trans hu
    obtain ⟨t', v', ht', hv', htv', hleft', hit'⟩ :=
      ih (step_inv hi hst) (step_inv hiu hsv) (hrt.trans hr) (by omega) hDt htv
    exact ⟨t', v', (steps_succ hst).trans ht', (steps_succ hsv).trans hv', htv', by omega, hit'⟩

/-- A transaction has no step left exactly in IDLE. -/
theorem stepsLeft_eq_zero_iff {s : State} (hi : Inv s) : stepsLeft s = 0 ↔ s.phase = .idle := by
  constructor
  · intro h
    by_contra hp
    have := stepsLeft_pos hi hp
    omega
  · intro hp
    simp [stepsLeft, hp]

/-- From B_CLK a write has 53 steps left and a read 55 (R83). -/
theorem stepsLeft_of_bClk {s : State} (hi : Inv s) (hp : s.phase = .bClk) :
    stepsLeft s = if s.kind = .write then 53 else 55 := by
  have h0 : s.i = 0 := by simpa [txCountFits, hp] using hi.txCount
  cases hk : s.kind <;> simp [stepsLeft, hp, h0, hi.ntx, hk, ntxOf, tailSteps]

/-- Settles O32: the two runs stay alike but for the levels, and each step takes one of the steps left. -/
theorem samplesDoNotChangeTheLineTrace : Obligations.SamplesDoNotChangeTheLineTrace := by
  intro s ls d n hi hr _ hn hD
  obtain ⟨t, u, ht, hu, h, hleft, hit⟩ := steps_sameButLevels hi (u := { s with samples := ls, draws := d })
    (hi.outside rfl) hr hn hD ⟨rfl, rfl⟩
  refine ⟨stepsLeft_of_bClk hi, t, u, ht, hu, h.trace.symm, ?phase, ?ends, ?clk, ?ce, ?dataDir, ?dataOut, ?err⟩
  case ends =>
    rw [← stepsLeft_eq_zero_iff hit]
    omega
  all_goals rw [h.frame]

end Sys2Proof.Machine
end

section
/-! PROOF. The codec (41_codec.md): what BCDENC and BCDDEC answer, and what a decode gives of two packed digits. -/

namespace Sys2Proof.Machine

/-! The two commands (R99, R100). -/

theorem exec_bcdenc_of_le {v : Byte} {s : State} (hf : s.faulted = false) (hv : v.toNat ≤ 99) :
    exec (.bcdenc v) s = .next (s.withAnswer (zext16 (enc v))) := by
  have hmeaning : bcdenc v s = s.withAnswer (zext16 (enc v)) := if_pos hv
  exact congrArg Host.Outcome.next ((unlessFaulted_of_clear (bcdenc v) hf).trans hmeaning)

theorem exec_bcddec (tens : Option BitRange) (ones : BitRange) (x : Byte) {s : State} (hf : s.faulted = false) :
    exec (.bcddec tens ones x) s = .next (s.withAnswer (BitVec.ofNat 16 (dec tens ones x))) :=
  congrArg Host.Outcome.next (unlessFaulted_of_clear _ hf)

/-- RESULT holds a whole decode (R101). -/
theorem toNat_result_dec (tens : Option BitRange) (ones : BitRange) (x : Byte) :
    (BitVec.ofNat 16 (dec tens ones x)).toNat = dec tens ones x := by
  have := dec_le tens ones x
  exact Nat.mod_eq_of_lt (by omega)

/-- Settles O2: BCDENC answers `enc` of its operand, which packs two digits of 0 to 9. -/
theorem bcdencPacksTwoDigits : Obligations.BcdencPacksTwoDigits := by
  intro v s hf hv
  have hdigits : (s.withAnswer (zext16 (enc v))).result.toNat = v.toNat / 10 * 16 + v.toNat % 10 :=
    toNat_zext16_enc v hv
  refine ⟨_, exec_bcdenc_of_le hf hv, rfl, hdigits, ?_, ?_, ?_⟩ <;> rw [hdigits] <;> omega

/-- Settles O4: BCDDEC answers `dec` of its operand, whose slices are the bits of its ranges. -/
theorem bcddecComposesItsRanges : Obligations.BcddecComposesItsRanges := by
  intro tens ones x s hf _
  have hresult : (s.withAnswer (BitVec.ofNat 16 (dec tens ones x))).result.toNat = dec tens ones x :=
    toNat_result_dec tens ones x
  refine ⟨_, exec_bcddec tens ones x hf, rfl, hresult.trans_le (dec_le tens ones x),
    hresult.trans ?_⟩
  cases tens <;> simp [dec, slice_eq_extract]

/-! A decode of two packed digits (R97, R98). -/

theorem toNat_enc {v : Byte} (hv : v.toNat ≤ 99) : (enc v).toNat = v.toNat / 10 * 16 + v.toNat % 10 := by
  rw [enc_eq_digits v hv, BitVec.toNat_ofNat, Nat.mod_eq_of_lt (by omega)]

/-- A range from bit 4 up reads as much of the tens digit as it is wide. -/
theorem slice_enc_tens {v : Byte} (hv : v.toNat ≤ 99) (hi : BitVec 3) :
    slice (enc v) ⟨hi, 4⟩ = v.toNat / 10 % 2 ^ (hi.toNat - 4 + 1) := by
  have htens : (v.toNat / 10 * 16 + v.toNat % 10) / 16 = v.toNat / 10 := by omega
  simp [slice, toNat_enc hv, htens]

/-- Bits 3:0 are the ones digit. -/
theorem slice_enc_ones {v : Byte} (hv : v.toNat ≤ 99) : slice (enc v) ⟨3, 0⟩ = v.toNat % 10 := by
  change (enc v).toNat / 1 % 16 = _
  rw [toNat_enc hv]
  omega

/-- With the ones digit in bits 3:0, a decode loses only what the tens range cuts off the tens digit. -/
theorem dec_enc {v : Byte} (hv : v.toNat ≤ 99) (hi : BitVec 3) :
    dec (some ⟨hi, 4⟩) ⟨3, 0⟩ (enc v) = v.toNat / 10 % 2 ^ (hi.toNat - 4 + 1) * 10 + v.toNat % 10 := by
  rw [dec, slice_enc_tens hv, slice_enc_ones hv]

/-- So it gives the value back exactly where the tens range holds the tens digit. -/
theorem dec_enc_eq_iff {v : Byte} (hv : v.toNat ≤ 99) (hi : BitVec 3) :
    dec (some ⟨hi, 4⟩) ⟨3, 0⟩ (enc v) = v.toNat ↔ v.toNat < 2 ^ (hi.toNat - 4 + 1) * 10 := by
  rw [dec_enc hv, ← Nat.div_lt_iff_lt_mul (by omega), ← Nat.mod_eq_iff_lt (by positivity)]
  omega

/-- The weekday's three bits give the value back exactly up to 7. -/
theorem dec_enc_threeBits_eq_iff {v : Byte} (hv : v.toNat ≤ 99) :
    dec none ⟨2, 0⟩ (enc v) = v.toNat ↔ v.toNat ≤ 7 := by
  change (enc v).toNat / 1 % 8 = _ ↔ _
  rw [toNat_enc hv]
  omega

/-- Settles O5: the tens range 7:4 holds every tens digit. -/
theorem bcdencThenBcddecGivesTheValueBack : Obligations.BcdencThenBcddecGivesTheValueBack := by
  intro v s hf hv
  refine ⟨_, _, exec_bcdenc_of_le hf hv, exec_bcddec _ _ _ hf, (toNat_result_dec _ _ _).trans ?_⟩
  change dec (some ⟨7, 4⟩) ⟨3, 0⟩ ((zext16 (enc v)).setWidth 8) = v.toNat
  rw [setWidth_zext16, dec_enc_eq_iff hv]
  exact hv.trans_lt (by decide)

/-- Settles O6: the width of a field's tens range sets its limit; the weekday has no tens range, and the
year's holds every tens digit. -/
theorem fieldDecodeUndoesEncodeUpToItsLimit : Obligations.FieldDecodeUndoesEncodeUpToItsLimit := by
  intro f limit hmem v hv
  cases f <;> simp at hmem <;> subst hmem
  case wday => exact dec_enc_threeBits_eq_iff hv
  case year => exact iff_of_true ((dec_enc_eq_iff hv 7).mpr (hv.trans_lt (by decide))) hv
  all_goals exact (dec_enc_eq_iff hv _).trans Nat.lt_succ_iff

end Sys2Proof.Machine
end

section
/-! PROOF. The address mapper (42_mapper.md): MAPADDR answers the table of R104, and a field command puts the wire byte
of its own field in the transmit latch. -/

namespace Sys2Proof.Machine

/-! MAPADDR (R104, R106). -/

theorem exec_mapaddr (r : Register) (dir : Direction) {s : State} (hf : s.faulted = false) :
    exec (.mapaddr r dir) s = .next (s.withAnswer (zext16 (mapAddress r dir))) :=
  congrArg Host.Outcome.next (unlessFaulted_of_clear _ hf)

/-- The mapper's write byte, as RESULT shows it, is the table's. -/
theorem zext16_mapAddress_write (r : Register) : zext16 (mapAddress r .write) = tableWriteByte r := by
  cases r <;> rfl

/-- The mapper's read byte, as RESULT shows it, is the table's. -/
theorem zext16_mapAddress_read (r : Register) : zext16 (mapAddress r .read) = tableReadByte r := by
  cases r <;> rfl

/-- Settles O7: MAPADDR answers the mapper's byte, which is the table's in either direction; the table follows R104's
formula, register by register. -/
theorem mapaddrAnswersTheAddressTable : Obligations.MapaddrAnswersTheAddressTable := by
  refine fun r dir s hf => ⟨(exec_mapaddr r dir hf).trans ?answer, ?writeByte, ?readByte⟩
  case answer =>
    cases dir with
    | write => rw [zext16_mapAddress_write]
    | read => rw [zext16_mapAddress_read]
  case writeByte => cases r <;> decide
  case readByte => cases r <;> decide

/-! The wire command of a field command (R107 to R122). -/

/-- A write accepted with the mapper's byte of a register leaves that register's wire write command in the latch. -/
theorem fetchWire_acceptField_write (r : Register) (d : Byte) (post : Post) (f : TimeField) (s : State) :
    fetchWire (s.acceptField .write (mapAddress r .write) d post f) = some (Instr.wireWrite r d) :=
  fetchWire_write (by simp) (by simp [ntxOf]) (by simp [mapAddress_eq_wireByte])

/-- A read accepted with the mapper's byte of a register leaves that register's wire read command in the latch. -/
theorem fetchWire_acceptField_read (r : Register) (post : Post) (f : TimeField) (s : State) :
    fetchWire (s.acceptField .read (mapAddress r .read) 0 post f) = some (Instr.wireRead r) :=
  fetchWire_read (by simp) (by simp [ntxOf]) (by simp [mapAddress_eq_wireByte])

/-- No time field is the write-protect register. -/
theorem timeField_register_ne_wp (f : TimeField) : f.register ≠ .wp := by cases f <;> decide

/-- Settles O15: FGET and an accepted FSET load the latch with the mapper's byte of their field's register, and
acceptance is all they do. -/
theorem fieldCommandsEmitTheirOwnWireByte : Obligations.FieldCommandsEmitTheirOwnWireByte :=
  fun f _ _ hf =>
    ⟨⟨_, exec_fget_of_clear f hf, fetchWire_acceptField_read ..⟩,
      fun hv => ⟨_, exec_fset_of_accepts hf hv, fetchWire_acceptField_write ..⟩,
      timeField_register_ne_wp f⟩

end Sys2Proof.Machine
end

section
/-! PROOF. The validation of FSET (43_field_access.md section 3): which operands it passes, and what the others answer. -/

namespace Sys2Proof.Machine

/-- FSET's validation as R124 states it: the weekday has a range of its own, the other fields share theirs. -/
theorem fsetAccepts_iff (f : TimeField) (v : Byte) :
    fsetAccepts f v = true ↔ if f = .wday then 1 ≤ v.toNat ∧ v.toNat ≤ 7 else v.toNat ≤ 99 := by
  cases f <;> simp [fsetAccepts]

/-- An operand that validation refuses is answered with VALIDATION, and with nothing else (R124, R152). -/
theorem exec_fset_of_not_accepts {f : TimeField} {v : Byte} {s : State} (hf : s.faulted = false)
    (hv : ¬ fsetAccepts f v = true) : exec (Instr.fset f v) s = .next (s.withError 1) := by
  rw [exec_fset, fieldWrite, unlessFaulted_of_clear _ hf, if_neg hv, raise_eq_withError]
  rfl

/-- Settles O13: validation passes R124's operands, acceptance gives no response, and every other operand raises
VALIDATION. -/
theorem fsetRaisesValidationExactlyOutOfRange : Obligations.FsetRaisesValidationExactlyOutOfRange := by
  intro f v s hf
  by_cases hv : fsetAccepts f v = true
  · refine ⟨_, exec_fset_of_accepts hf hv, ?_⟩
    rw [if_pos ((fsetAccepts_iff f v).mp hv)]
    exact ⟨rfl, rfl, rfl⟩
  · refine ⟨_, exec_fset_of_not_accepts hf hv, ?_⟩
    rw [if_neg (mt (fsetAccepts_iff f v).mpr hv)]

end Sys2Proof.Machine
end

section
/-! PROOF. The host procedures (44_host_sequences.md): their words, the texts and names the host presents, and what a
procedure does and reports once a command of it fails. -/

namespace Sys2Proof.Machine

/-! Words (R144 to R147). -/

/-- A field write's word: its operand in bits 7:0, below OP and the field code (R65, R69). -/
theorem fsetWord_eq (f : TimeField) (v : Byte) :
    fsetWord f v = 0x80000000#32 ||| (f.code.setWidth 32 <<< 24) ||| v.setWidth 32 := by
  obtain ⟨-, -, -, -, -, -, -, -, hwords⟩ := encodedWordsAreTheAssemblersWords
  exact Code.host.inj ((encode_fset f v).symm.trans (hwords f v))

/-- Settles O50: the word of a field write is OP and the field code with the operand put below; that of a field read is
one constant a field. -/
theorem hostProceduresExpandInOrder : Obligations.HostProceduresExpandInOrder := by
  refine ⟨fun h m s => ?writeTime, fun _ _ => rfl, fun d mo y => ?writeDate, by decide, by decide⟩
  case writeTime => simp only [writeTime, fsetWord_eq]; rfl
  case writeDate => simp only [writeDate, fsetWord_eq]; rfl

/-! Texts and names (R143, R148, R149). -/

/-- The decimal spelling of a number of two digits. -/
theorem toDigits_of_two_digits {n : Nat} (hlo : 10 ≤ n) (hhi : n < 100) :
    Nat.toDigits 10 n = [Nat.digitChar (n / 10), Nat.digitChar (n % 10)] := by
  rw [Nat.toDigits_of_base_le (by decide) hlo, Nat.toDigits_of_lt_base (by omega), List.singleton_append]

/-- A number below 10 is padded to two characters (R143). -/
theorem fmt2_of_lt {n : Nat} (h : n < 10) : fmt2 n = '0' :: Nat.toDigits 10 n := if_pos h

/-- A number from 10 on is spelled as it is (R143). -/
theorem fmt2_of_le {n : Nat} (h : 10 ≤ n) : fmt2 n = Nat.toDigits 10 n := if_neg (by omega)

/-- Settles O54: below 10 the padding is the tens digit, from 10 on the spelling has it. -/
theorem twoDigitTextAndYearText : Obligations.TwoDigitTextAndYearText := by
  refine ⟨fun n hn => ?twoDigits, fun n hn => fmt2_of_le (by omega), fun n => rfl⟩
  rcases Nat.lt_or_ge n 10 with h | h
  · rw [fmt2_of_lt h, Nat.toDigits_of_lt_base h, Nat.div_eq_of_lt h, Nat.mod_eq_of_lt h]
    rfl
  · rw [fmt2_of_le h, toDigits_of_two_digits h hn]

/-- Settles O55: the names are distinct, so the first place where a name stands is its own. -/
theorem weekdayNameGivesItsIndexBack : Obligations.WeekdayNameGivesItsIndexBack := by
  intro names n i hlo hhi
  have hlt : i - 1 < names.names.length := by rw [names.seven]; omega
  have hname : weekdayName names n i = names.names[i - 1] := by
    rw [weekdayName, if_pos ⟨hlo, hhi⟩, List.getD_eq_getElem _ _ hlt]
  rw [hname, weekdayIndex, if_pos (List.getElem_mem hlt), names.distinct.idxOf_getElem]
  omega

/-! Failure (R142). -/

/-- Settles O51: with the block ready in IDLE the step is the host's, which drops a procedure that stopped. -/
theorem procedureStopsAtTheFirstError : Obligations.ProcedureStopsAtTheFirstError := by
  intro s hr hp hb hproc he
  rw [step_of_idle hr hp]
  exact hostStep_stop hb hproc he

/-- The responses given so far of the procedure a step works for: those of the procedure in progress, or none where the
step begins one (entry 3). -/
def ownResponses (s : State) : List Response := if s.busy = true ∨ s.proc ≠ [] then s.procResponses else []

/-- A step in IDLE waits, stops a procedure, or takes a word whose execution leaves the host alone. -/
theorem hostStep_host {s t : State} (h : hostStep s = .next t) :
    t = s ∨ t = { s with proc := [] } ∨ ∃ w u, nextWord s = some (w, u) ∧ SameOutside u t := by
  refine (hostStep_cases h).imp id (Or.imp id ?_)
  rintro ⟨w, u, hw, ⟨i, -, he⟩ | ⟨-, rfl⟩⟩
  · exact ⟨w, u, hw, exec_sameOutside he⟩
  · refine ⟨w, u, hw, ?_⟩
    unfold unlessFaulted
    split <;> simp [SameOutside]

/-- A response given in IDLE is one of the procedure whose word was issued. -/
theorem hostStep_procResponses {s t : State} {r : Response} (hb : s.busy = false)
    (hle : s.procBegan ≤ s.responses.length) (h : hostStep s = .next t) (hr : t.responses = s.responses ++ [r]) :
    t.procResponses = ownResponses s ++ [r] := by
  rcases hostStep_host h with rfl | rfl | ⟨w, u, hw, -, -, hbegan, -⟩
  · simp at hr
  · simp at hr
  · rw [State.procResponses, hbegan, hr]
    rcases nextWord_cases hw with ⟨hproc, hn⟩ | ⟨hproc, hn⟩
    · rw [hn, List.drop_append_of_le_length hle, ownResponses, if_pos (.inr hproc), State.procResponses]
    · rw [hn, List.drop_left, ownResponses, if_neg (by simp [hb, hproc]), List.nil_append]

/-- A response is one of the procedure the step works for. -/
theorem step_procResponses {s t : State} {r : Response} (hi : Inv s) (hreset : s.resetPin = false)
    (hle : s.procBegan ≤ s.responses.length) (h : step s = .next t) (hr : t.responses = s.responses ++ [r]) :
    t.procResponses = ownResponses s ++ [r] := by
  by_cases hp : s.phase = .idle
  · exact hostStep_procResponses (hi.ready_of_idle hp) hle (step_of_idle hreset hp ▸ h) hr
  · obtain ⟨-, -, hbegan, -⟩ := seqStep_sameOutside hi hp (step_of_running hi hreset hp ▸ h)
    have hb : s.busy = true := by simp [hi.busy, hp]
    rw [State.procResponses, hbegan, hr, List.drop_append_of_le_length hle, ownResponses, if_pos (.inl hb),
      State.procResponses]

/-- No step sets the reset input. -/
theorem step_resetPin {s t : State} (hi : Inv s) (hreset : s.resetPin = false) (h : step s = .next t) :
    t.resetPin = false := by
  by_cases hp : s.phase = .idle
  · rcases hostStep_host (step_of_idle hreset hp ▸ h) with rfl | rfl | ⟨w, u, hw, -, -, -, hpin, -⟩
    · exact hreset
    · exact hreset
    · rw [hpin, nextWord_frame hw]
      exact hreset
  · obtain ⟨-, -, -, hpin, -⟩ := seqStep_sameOutside hi hp (step_of_running hi hreset hp ▸ h)
    exact hpin.trans hreset

/-- Settles O56: the step's response is the first error of its procedure, and a drop keeps the procedure's responses. -/
theorem failedCommandIsReportedByItsProcedure : Obligations.FailedCommandIsReportedByItsProcedure := by
  intro s t hi hreset hle hclean h hresp herr
  obtain ⟨hresp, hidle, hready⟩ := (responsesAreWhatResultAndErrShow s t hi hreset h).resolve_left
    fun ⟨hsame, _⟩ => hresp hsame
  have hown := step_procResponses hi hreset hle h hresp
  have hownClean : ∀ r ∈ ownResponses s, r.err = 0 := by
    unfold ownResponses
    split
    · exact hclean ‹_›
    · simp
  have hreport (ws : List Word) : procedureReport { t with proc := ws } = some (.error t.err) :=
    procedureReport_error (s := { t with proc := ws }) hown hownClean herr
  exact ⟨hreport t.proc, fun hproc => ⟨{ t with proc := [] },
    procedureStopsAtTheFirstError t (step_resetPin hi hreset h) hidle hready hproc herr, rfl, rfl, rfl, rfl,
    hreport []⟩⟩

end Sys2Proof.Machine
end

section
/-! PROOF. Runs of the host procedures (44_host_sequences.md): the commands of a procedure one after the other,
each with its line actions, its levels and its result; WRITETIME, WRITEDATE, READTIME and READDATE to their ends;
WRITETIME with an operand out of range; READTIME cut short by a line fault. -/

namespace Sys2Proof.Machine

/-! The host in a procedure (R141). -/

/-- The host has the words of the procedure that began at `n` responses left to issue, and then the procedures `ps`: it
goes on with the procedure, whose commands gave no error, or begins it (entry 3). -/
inductive Pending (n : Nat) (ps : List Procedure) : List Word → State → Prop where
  | goesOn {ws : List Word} {s : State} (proc : s.proc = ws) (todo : s.todo = ps) (began : s.procBegan = n)
      (err : s.err = 0) : Pending n ps ws s
  | begins {s : State} {p : Procedure} (noProc : s.proc = []) (todo : s.todo = p :: ps)
      (began : n = s.responses.length) : Pending n ps (p.first :: p.rest) s

/-- A ready, unfaulted block in IDLE to which the host is about to issue the words `ws` of a procedure. -/
structure Issuing (n : Nat) (ws : List Word) (ps : List Procedure) (s : State) : Prop where
  inv : Inv s
  noReset : s.resetPin = false
  idle : s.phase = .idle
  clear : s.faulted = false
  pending : Pending n ps ws s

/-- `s` with a word issued of the procedure that began at `n` responses, `ws` being its other words (R141). -/
def State.issued (n : Nat) (ws : List Word) (ps : List Procedure) (s : State) : State :=
  { s with proc := ws, todo := ps, procBegan := n }

section Issued

variable (n : Nat) (ws : List Word) (ps : List Procedure) (s : State)

@[simp] theorem State.issued_proc : (s.issued n ws ps).proc = ws := rfl
@[simp] theorem State.issued_todo : (s.issued n ws ps).todo = ps := rfl
@[simp] theorem State.issued_procBegan : (s.issued n ws ps).procBegan = n := rfl
@[simp] theorem State.issued_trace : (s.issued n ws ps).trace = s.trace := rfl
@[simp] theorem State.issued_responses : (s.issued n ws ps).responses = s.responses := rfl

end Issued

section Issuing

variable {n : Nat} {w : Word} {ws : List Word} {ps : List Procedure} {s : State} {i : Instr}

/-- A procedure's word is executed, whether it goes on or begins. -/
theorem Issuing.step (h : Issuing n (w :: ws) ps s) (hw : decode w = .ok i) :
    step s = exec i (s.issued n ws ps) := by
  obtain ⟨hi, hr, hp, -, hpending⟩ := h
  obtain ⟨hgoesOn, hbegins⟩ := stepRunsThePresentedCommand s w hr hp (hi.ready_of_idle hp)
  cases hpending with
  | goesOn proc todo began err =>
    subst todo began
    exact (hgoesOn ws proc err).1 i hw
  | @begins _ p noProc todo began =>
    subst began
    exact (hbegins p.rest ps noProc todo).1 i hw

/-- A command that runs a transaction is accepted with its latches (R75). -/
theorem Issuing.accept {kind : Kind} {a d : Byte} {post : Post} (h : Issuing n (w :: ws) ps s)
    (hw : decode w = .ok i) (ha : Accepts i kind a d post)
    (hpost : postFits { s with kind := kind, post := post } = true) :
    ∃ c, Machine.step s = .next { (s.issued n ws ps).accept kind a d post with fld := c } ∧
      Inv { (s.issued n ws ps).accept kind a d post with fld := c } := by
  obtain ⟨c, hc⟩ := ha (s.issued n ws ps) h.clear
  exact ⟨c, (h.step hw).trans hc, (inv_accept (h.inv.host ws ps n) h.idle h.clear kind a d post hpost).fld c⟩

/-- Where all words of a procedure are issued and the block is ready, none gave an error, and `ps` are left. -/
theorem Issuing.finished (h : Issuing n [] ps s) :
    s.proc = [] ∧ s.todo = ps ∧ s.procBegan = n ∧ s.err = 0 := by
  obtain ⟨-, -, -, -, hpending⟩ := h
  cases hpending with
  | goesOn proc todo began err => exact ⟨proc, todo, began, err⟩

end Issuing

/-! What commands do from the host port to IDLE. -/

/-- From `s` to `t` the line actions `acts` are done, none of them failing, the responses `rs` are given and the levels
`levels` are sampled. -/
structure Did (acts : List LineAction) (rs : List Response) (levels : List Level) (s t : State) : Prop where
  trace : t.trace = s.trace ++ acts
  responses : t.responses = s.responses ++ rs
  samples : s.samples = levels ++ t.samples
  lineMayFail : t.lineMayFail = s.lineMayFail
  reports : t.reports = if s.lineMayFail then s.reports.drop acts.length else s.reports

theorem Did.refl (s : State) : Did [] [] [] s s := by
  constructor <;> simp

theorem Did.trans {acts acts' : List LineAction} {rs rs' : List Response} {levels levels' : List Level}
    {s t u : State} (h : Did acts rs levels s t) (h' : Did acts' rs' levels' t u) :
    Did (acts ++ acts') (rs ++ rs') (levels ++ levels') s u where
  trace := by rw [h'.trace, h.trace, List.append_assoc]
  responses := by rw [h'.responses, h.responses, List.append_assoc]
  samples := by rw [h.samples, h'.samples, List.append_assoc]
  lineMayFail := h'.lineMayFail.trans h.lineMayFail
  reports := by
    rw [h'.reports, h.reports, h.lineMayFail]
    cases s.lineMayFail <;> simp

/-- A command of the host that runs a transaction: its word, its line actions, the levels it samples and its result. -/
structure HostCommand where
  word : Word
  actions : List LineAction
  levels : List Level
  result : BitVec 16

/-- Issued in a procedure, the command runs to IDLE: one step accepts it, each line action is a step, and DONE is one
(entries 2, 3). -/
def HostCommand.Runs (c : HostCommand) : Prop :=
  ∀ (n : Nat) (ws : List Word) (ps : List Procedure) (s : State), Issuing n (c.word :: ws) ps s →
    c.levels <+: s.samples → DriverOk c.actions.length s →
    ∃ t, steps (c.actions.length + 2) s = .next t ∧ Issuing n ws ps t ∧
      Did c.actions [⟨c.result, 0⟩] c.levels s t

/-- FSET of a field, with an operand it accepts (R125). -/
def HostCommand.fset (f : TimeField) (v : Byte) : HostCommand :=
  ⟨fsetWord f v, writeTrace (mapAddress f.register .write) (enc v), [], 0⟩

/-- FGET of a field, where the peripheral presents `ls` (R123). -/
def HostCommand.fget (f : TimeField) (ls : List Level) : HostCommand :=
  ⟨fgetWord f, readTrace (mapAddress f.register .read) ls, ls, readResult (.dec f) (receivedByte ls)⟩

/-- A read does 54 line actions (R87). -/
theorem length_readTrace (a : Byte) {ls : List Level} (hl : ls.length = 8) : (readTrace a ls).length = 54 := by
  simp [readTrace, sampleActions, hl, byteActions, bitActions]

theorem fset_accepts {f : TimeField} {v : Byte} (hv : fsetAccepts f v = true) :
    Accepts (Instr.fset f v) .write (mapAddress f.register .write) (enc v) .discard :=
  fun _ hf => ⟨f.code, exec_fset_of_accepts hf hv⟩

theorem fget_accepts (f : TimeField) :
    Accepts (Instr.fget f) .read (mapAddress f.register .read) 0 (.dec f) :=
  fun _ hf => ⟨f.code, exec_fget_of_clear f hf⟩

/-- An accepted FSET runs the write transaction of its field: 52 line actions (R86). -/
theorem fset_runs {f : TimeField} {v : Byte} (hv : fsetAccepts f v = true) : (HostCommand.fset f v).Runs := by
  intro n ws ps s h _ hD
  obtain ⟨c, hstep, hi⟩ := h.accept (decode_fset f v) (fset_accepts hv) rfl
  have hrun := steps_write hi h.noReset rfl rfl rfl hD
  exact ⟨_, (steps_succ hstep).trans hrun, ⟨steps_inv hi hrun, h.noReset, rfl, h.clear, .goesOn rfl rfl rfl rfl⟩,
    rfl, rfl, rfl, rfl, rfl⟩

/-- FGET runs the read transaction of its field (R87). -/
theorem fget_runs (f : TimeField) {ls : List Level} (hl : ls.length = 8) : (HostCommand.fget f ls).Runs := by
  intro n ws ps s h hlevels hD
  obtain ⟨rest, hs⟩ := hlevels
  have hlen : (HostCommand.fget f ls).actions.length = 54 := length_readTrace _ hl
  rw [hlen] at hD ⊢
  obtain ⟨c, hstep, hi⟩ := h.accept (decode_fget f) (fget_accepts f) rfl
  have hrun := steps_read hi h.noReset rfl rfl rfl hl hs.symm hD
  exact ⟨_, (steps_succ hstep).trans hrun, ⟨steps_inv hi hrun, h.noReset, rfl, h.clear, .goesOn rfl rfl rfl rfl⟩,
    rfl, rfl, hs.symm, rfl, by rw [hlen]; rfl⟩

/-- The commands of a procedure run one after the other. -/
theorem commands_run {n : Nat} {ws : List Word} {ps : List Procedure} {cs : List HostCommand} :
    ∀ {s : State}, (∀ c ∈ cs, c.Runs) → Issuing n (cs.map (·.word) ++ ws) ps s →
      cs.flatMap (·.levels) <+: s.samples → DriverOk (cs.flatMap (·.actions)).length s →
      ∃ t, steps ((cs.flatMap (·.actions)).length + 2 * cs.length) s = .next t ∧ Issuing n ws ps t ∧
        Did (cs.flatMap (·.actions)) (cs.map fun c => ⟨c.result, 0⟩) (cs.flatMap (·.levels)) s t := by
  induction cs with
  | nil => exact fun _ h _ _ => ⟨_, rfl, h, Did.refl _⟩
  | cons c cs ih =>
    intro s hcs h hlevels hD
    rw [List.forall_mem_cons] at hcs
    rw [List.flatMap_cons, List.length_append] at hD
    rw [List.flatMap_cons] at hlevels
    obtain ⟨t, ht, hit, hdid⟩ := hcs.1 n _ ps s h ((List.prefix_append _ _).trans hlevels) (hD.mono (by omega))
    rw [hdid.samples, List.prefix_append_right_inj] at hlevels
    obtain ⟨u, hu, hiu, hdid'⟩ := ih hcs.2 hit hlevels (hD.after hdid.lineMayFail hdid.reports)
    refine ⟨u, ?_, hiu, hdid.trans hdid'⟩
    rw [← hu, ← steps_add ht, List.flatMap_cons, List.length_append, List.length_cons]
    congr 1
    omega

/-! Whole procedures (R144 to R147). -/

/-- A ready, unfaulted block to which the host is about to begin the procedure `p`. -/
theorem issuing_of_todo {p : Procedure} {ps : List Procedure} {s : State} (hi : Inv s) (hr : s.resetPin = false)
    (hp : s.phase = .idle) (hf : s.faulted = false) (hproc : s.proc = []) (htodo : s.todo = p :: ps) :
    Issuing s.responses.length (p.first :: p.rest) ps s :=
  ⟨hi, hr, hp, hf, .begins hproc htodo rfl⟩

/-- A procedure whose commands all run reports their results. -/
theorem procedure_runs {cs : List HostCommand} {ps : List Procedure} {s : State} {k : Nat} (hne : cs ≠ [])
    (hcs : ∀ c ∈ cs, c.Runs) (hk : (cs.flatMap (·.actions)).length = k)
    (h : Issuing s.responses.length (cs.map (·.word)) ps s) (hlevels : cs.flatMap (·.levels) <+: s.samples)
    (hD : DriverOk k s) :
    ∃ t, steps (k + 2 * cs.length) s = .next t ∧ t.phase = .idle ∧ t.proc = [] ∧ t.todo = ps ∧ t.err = 0 ∧
      t.trace = s.trace ++ cs.flatMap (·.actions) ∧ procedureReport t = some (.ok (cs.map (·.result))) := by
  subst hk
  obtain ⟨t, ht, hit, hdid⟩ := commands_run (ws := []) hcs (by rwa [List.append_nil]) hlevels hD
  obtain ⟨hproc, htodo, hbegan, herr⟩ := hit.finished
  refine ⟨t, ht, hit.idle, hproc, htodo, herr, hdid.trace, ?_⟩
  rw [procedureReport_done (procResponses_eq hdid.responses hbegan) (by simpa using hne) (by simp)
    (hit.inv.ready_of_idle hit.idle) hproc, List.map_map]
  rfl

/-- A procedure of three field writes whose operands are accepted. -/
theorem three_writes_run {f g h : TimeField} {u v w : Byte} {ps : List Procedure} {s : State}
    (hs : Issuing s.responses.length [fsetWord f u, fsetWord g v, fsetWord h w] ps s) (hu : fsetAccepts f u = true)
    (hv : fsetAccepts g v = true) (hw : fsetAccepts h w = true) (hD : DriverOk 156 s) :
    ∃ t, steps 162 s = .next t ∧ t.phase = .idle ∧ t.proc = [] ∧ t.todo = ps ∧ t.err = 0 ∧
      procedureReport t = some (.ok [0, 0, 0]) ∧
      t.trace = s.trace ++ writeTrace (mapAddress f.register .write) (enc u) ++
        writeTrace (mapAddress g.register .write) (enc v) ++ writeTrace (mapAddress h.register .write) (enc w) := by
  obtain ⟨t, ht, hidle, hproc, htodo, herr, htrace, hreport⟩ :=
    procedure_runs (cs := [.fset f u, .fset g v, .fset h w]) (k := 156) (by simp)
      (by simp [fset_runs, hu, hv, hw]) rfl hs List.nil_prefix hD
  exact ⟨t, ht, hidle, hproc, htodo, herr, hreport, by simpa [HostCommand.fset] using htrace⟩

/-- A procedure of three field reads. -/
theorem three_reads_run {f g h : TimeField} {ks ls ms rest : List Level} {ps : List Procedure} {s : State}
    (hs : Issuing s.responses.length [fgetWord f, fgetWord g, fgetWord h] ps s) (hks : ks.length = 8)
    (hls : ls.length = 8) (hms : ms.length = 8) (hsamples : s.samples = ks ++ ls ++ ms ++ rest)
    (hD : DriverOk 162 s) (text : Nat → Nat → Nat → Text) :
    ∃ t, steps 168 s = .next t ∧ t.phase = .idle ∧ t.proc = [] ∧ t.todo = ps ∧ t.err = 0 ∧
      t.trace = s.trace ++ readTrace (mapAddress f.register .read) ks ++
        readTrace (mapAddress g.register .read) ls ++ readTrace (mapAddress h.register .read) ms ∧
      presentReport text t = some (.ok (text (decodeField f (receivedByte ks)) (decodeField g (receivedByte ls))
        (decodeField h (receivedByte ms)))) := by
  obtain ⟨t, ht, hidle, hproc, htodo, herr, htrace, hreport⟩ :=
    procedure_runs (cs := [.fget f ks, .fget g ls, .fget h ms]) (k := 162) (by simp)
      (by simp [fget_runs, hks, hls, hms]) (by simp [HostCommand.fget, length_readTrace, hks, hls, hms]) hs
      (by simp [HostCommand.fget, hsamples]) hD
  refine ⟨t, ht, hidle, hproc, htodo, herr, by simpa [HostCommand.fget] using htrace, ?_⟩
  rw [presentReport_done hreport]
  simp only [HostCommand.fget, toNat_readResult_dec]

/-- Settles O52: three accepted writes, each of the operand's digits. -/
theorem writeTimeWritesHoursMinutesSeconds : Obligations.WriteTimeWritesHoursMinutesSeconds := by
  intro h m sec ps s hi hr hp hf hproc htodo hh hm hsec hD
  rw [← enc_eq_digits h hh, ← enc_eq_digits m hm, ← enc_eq_digits sec hsec]
  exact three_writes_run (f := .hour) (g := .min) (h := .sec) (issuing_of_todo hi hr hp hf hproc htodo)
    (decide_eq_true hh) (decide_eq_true hm) (decide_eq_true hsec) hD

/-- Settles O58: three accepted writes, each of the operand's digits. -/
theorem writeDateWritesDayMonthYear : Obligations.WriteDateWritesDayMonthYear := by
  intro d mo y ps s hi hr hp hf hproc htodo hd hmo hy hD
  rw [← enc_eq_digits d hd, ← enc_eq_digits mo hmo, ← enc_eq_digits y hy]
  exact three_writes_run (f := .day) (g := .month) (h := .year) (issuing_of_todo hi hr hp hf hproc htodo)
    (decide_eq_true hd) (decide_eq_true hmo) (decide_eq_true hy) hD

/-- Settles O53: three reads, whose decodes the text spells. -/
theorem readTimePresentsHoursMinutesSeconds : Obligations.ReadTimePresentsHoursMinutesSeconds := by
  intro hs ms ss rest ps s hi hr hp hf hproc htodo hhs hms hss hsamples hD
  exact three_reads_run (f := .hour) (g := .min) (h := .sec) (issuing_of_todo hi hr hp hf hproc htodo)
    hhs hms hss hsamples hD timeText

/-- READDATE's text, with the century between the month's dot and the year (R147, R148). -/
theorem dateText_eq (d mo y : Nat) :
    dateText d mo y = fmt2 d ++ ['.'] ++ fmt2 mo ++ ['.', '2', '0'] ++ fmt2 y := by
  simp [dateText, yearStr, century]

/-- Settles O59: three reads, whose decodes the text spells, with the century before the year. -/
theorem readDatePresentsDayMonthYear : Obligations.ReadDatePresentsDayMonthYear := by
  intro ds ms ys rest ps s hi hr hp hf hproc htodo hds hms hys hsamples hD
  simp only [← dateText_eq]
  exact three_reads_run (f := .day) (g := .month) (h := .year) (issuing_of_todo hi hr hp hf hproc htodo)
    hds hms hys hsamples hD dateText

/-! Procedures that stop (R142). -/

/-- An operand out of range is refused in the step that issues the write, and the host has not gone on (R142, R152). -/
theorem Issuing.refused {f : TimeField} {v : Byte} {n : Nat} {ws : List Word} {ps : List Procedure} {s : State}
    (h : Issuing n (fsetWord f v :: ws) ps s) (hv : ¬ fsetAccepts f v = true) :
    Machine.step s = .next ((s.issued n ws ps).withError 1) :=
  (h.step (decode_fset f v)).trans (exec_fset_of_not_accepts h.clear hv)

/-- Settles O57: the hours are written, VALIDATION refuses the minutes, and the host drops the seconds. -/
theorem writeTimeStopsAtMinutesOutOfRange : Obligations.WriteTimeStopsAtMinutesOutOfRange := by
  intro h m sec ps s hi hr hp hf hproc htodo hh hm hD
  rw [← enc_eq_digits h hh]
  obtain ⟨t, ht, hit, hdid⟩ := fset_runs (f := .hour) (decide_eq_true hh) s.responses.length
    [fsetWord .min m, fsetWord .sec sec] ps s (issuing_of_todo hi hr hp hf hproc htodo) List.nil_prefix hD
  have hrefused := hit.refused (by simpa [fsetAccepts_iff] using hm)
  have hstop := procedureStopsAtTheFirstError ((t.issued s.responses.length [fsetWord .sec sec] ps).withError 1)
    hit.noReset rfl rfl (List.cons_ne_nil _ _) (show (1 : BitVec 3) ≠ 0 by decide)
  have hresponses : t.responses ++ [⟨0, 1⟩] = s.responses ++ [⟨0, 0⟩, ⟨0, 1⟩] := by
    rw [hdid.responses, List.append_assoc]
    rfl
  exact ⟨_, (steps_add ht).trans ((steps_succ hrefused).trans (steps_one hstop)), rfl, rfl, rfl, hdid.trace,
    hresponses, procedureReport_error (own := [⟨0, 0⟩]) (r := ⟨0, 1⟩) (procResponses_eq hresponses rfl) (by simp)
    (by decide)⟩

/-- A read whose line action `k`, counted from 0, fails: the actions before it are done, the response is LINE_FAULT, and
the host has not gone on (R142, R154). -/
theorem Issuing.cut_short {f : TimeField} {n k : Nat} {ws : List Word} {ps : List Procedure} {s : State}
    {after : List Bool} (h : Issuing n (fgetWord f :: ws) ps s) (hk : k < 54) (hm : s.lineMayFail = true)
    (hreports : s.reports = List.replicate k false ++ true :: after) :
    ∃ t ls, ls.length = 8 ∧ (ls <+: s.samples ∨ s.samples <+: ls) ∧ steps (k + 1 + 1) s = .next t ∧
      t.phase = .idle ∧ t.proc = ws ∧ t.todo = ps ∧ t.procBegan = n ∧ t.faulted = true ∧
      t.trace = s.trace ++ (readTrace (mapAddress f.register .read) ls).take k ∧
      t.responses = s.responses ++ [⟨0, 3⟩] := by
  obtain ⟨c, hstep, hi⟩ := h.accept (decode_fget f) (fget_accepts f) rfl
  obtain ⟨t, ls, hl, hlevels, ht, hit, ⟨hproc, htodo, hbegan, hreset, hmt⟩, hp, hd, htrace, hresp, hrt⟩ :=
    steps_read_prefix hi h.noReset rfl rfl rfl hk fun _ => ⟨true :: after, hreports⟩
  have hfails : DriverFails t := by
    refine ⟨hmt.trans hm, after, (hrt.trans (if_pos hm)).trans ?_⟩
    exact (congrArg (List.drop k) hreports).trans (List.drop_left' (by simp))
  have hfault := (step_of_running hit (hreset.trans h.noReset) hp).trans (seqStep_of_fails hit hp hd hfails)
  refine ⟨_, ls, hl, hlevels, (steps_succ hstep).trans ((steps_add ht).trans (steps_one hfault)), rfl, ?proc, ?todo,
    ?began, rfl, ?trace, ?response⟩
  case proc => simpa using hproc
  case todo => simpa using htodo
  case began => simpa using hbegan
  case trace => simpa using htrace
  case response => simp [hresp, ErrorCode.code]

/-- Settles O60: the first two reads give their results, the third a line fault, which is what READTIME presents. -/
theorem readTimeWithALineFaultPresentsTheError : Obligations.ReadTimeWithALineFaultPresentsTheError := by
  intro hs ms ss after k ps s hi hr hp hf hproc htodo hhs hms hsamples hk hm hreports
  have hacts : ([HostCommand.fget .hour hs, .fget .min ms].flatMap (·.actions)).length = 108 := by
    simp [HostCommand.fget, length_readTrace, hhs, hms]
  have hsplit : s.reports = List.replicate 108 false ++ (List.replicate k false ++ true :: after) := by
    rw [hreports, ← List.append_assoc, List.replicate_append_replicate]
  obtain ⟨t, ht, hit, hdid⟩ := commands_run (cs := [.fget .hour hs, .fget .min ms]) (ws := [fgetWord .sec])
    (by simp [fget_runs, hhs, hms]) (issuing_of_todo hi hr hp hf hproc htodo) (by simp [HostCommand.fget, hsamples])
    fun _ => ⟨_, by rw [hacts, hsplit]⟩
  have hreportsT : t.reports = List.replicate k false ++ true :: after := by
    rw [hdid.reports, if_pos hm, hacts, hsplit, List.drop_left' (List.length_replicate ..)]
  have hsamplesT : ss = t.samples := by simpa [HostCommand.fget, hsamples] using hdid.samples
  obtain ⟨u, ls, hl, hlevels, hu, hidle, hprocU, htodoU, hbegan, hfaulted, htrace, hresp⟩ :=
    hit.cut_short hk (hdid.lineMayFail.trans hm) hreportsT
  rw [hdid.responses, List.append_assoc] at hresp
  rw [hacts] at ht
  refine ⟨u, ls, hl, hsamplesT.symm ▸ hlevels, ?run, hidle, hprocU, htodoU, hfaulted, ?trace, presentReport_error
    (procedureReport_error (r := ⟨0, 3⟩) (procResponses_eq hresp hbegan) (by simp) (by decide))⟩
  case run =>
    rw [show 114 + k = 108 + 2 * 2 + (k + 1 + 1) by omega]
    exact (steps_add ht).trans hu
  case trace =>
    have htraceT : t.trace = s.trace ++ readTrace (mapAddress TimeField.hour.register .read) hs ++
        readTrace (mapAddress TimeField.min.register .read) ms := by
      simpa [HostCommand.fget] using hdid.trace
    exact htrace.trans (congrArg (· ++ _) htraceT)

end Sys2Proof.Machine
end

section
/-! PROOF. Errors and the idle block (60_exceptions.md): FAULTED until reset, the lines of a faulted block, the one error a
word is answered with, and IDLE with nothing presented. -/

namespace Sys2Proof.Machine

/-! A block with nothing to do (R166, R169). -/

/-- With no procedure in progress and none to begin, the host issues no word. -/
theorem hostStep_of_nothing_presented {s : State} (hproc : s.proc = []) (htodo : s.todo = []) :
    hostStep s = .next s := by
  have hw : nextWord s = none := by simp only [nextWord, hproc, htodo]
  unfold hostStep
  rw [hw]
  split
  · rfl
  · rw [if_neg fun ⟨hne, _⟩ => hne hproc]

/-- Settles O19: the step in IDLE is the host's, which has nothing to issue. -/
theorem idleBlockWaitsForACommand : Obligations.IdleBlockWaitsForACommand := by
  intro s hr hp hproc htodo
  rw [step_of_idle hr hp]
  exact hostStep_of_nothing_presented hproc htodo

/-! The FAULTED block (R154, R155). -/

/-- All a step in IDLE can do while FAULTED: the host's data change at most, and a word the host issues is answered
with FAULTED. -/
theorem hostStep_cases_of_faulted {s t : State} (hf : s.faulted = true) (h : hostStep s = .next t) :
    ∃ n ws ps, t = s.issued n ws ps ∨ t = (s.issued n ws ps).withError 4 := by
  rcases hostStep_cases h with rfl | rfl | ⟨w, u, hw, hu⟩
  · exact ⟨_, _, _, .inl rfl⟩
  · exact ⟨_, _, _, .inl rfl⟩
  · have hframe : u = s.issued u.procBegan u.proc u.todo := nextWord_frame hw
    have hfu : u.faulted = true := by rw [hframe]; exact hf
    refine ⟨u.procBegan, u.proc, u.todo, .inr ?_⟩
    rw [← hframe]
    rcases hu with ⟨i, -, he⟩ | ⟨-, rfl⟩
    · rw [exec_of_faulted i hfu] at he; cases he; rfl
    · exact unlessFaulted_of_faulted _ hfu

/-- A line action of a transaction leaves FAULTED set, done or failed. -/
theorem act_keeps_faulted {s : State} (a : LineAction) {k : State → State} (hk : ∀ t, (k t).faulted = t.faulted)
    (hf : s.faulted = true) : (act a k s).faulted = true := by
  obtain ⟨r, d, ⟨-, h⟩ | h⟩ := act_result a k s <;> rw [h]
  · rfl
  · rw [hk, State.perform_faulted]; exact hf

/-- So does a sample. -/
theorem actRead_storeSample_keeps_faulted {s : State} (hf : s.faulted = true) :
    (actRead storeSample s).faulted = true := by
  obtain ⟨r, d, ⟨-, h⟩ | ⟨l, m, h⟩⟩ := actRead_result storeSample s <;> rw [h]
  · rfl
  · exact hf

/-- No step of the sequencer clears FAULTED, in any state. -/
theorem seqStep_keeps_faulted {s t : State} (hf : s.faulted = true) (hs : seqStep s = .next t) : t.faulted = true := by
  cases hp : s.phase <;> simp only [seqStep, hp] at hs
  case idle => cases hs; exact hf
  case done =>
    cases hs
    obtain ⟨v, hv⟩ := complete_eq s
    rw [hv]
    exact hf
  case txD =>
    split at hs <;> cases hs
    exact act_keeps_faulted _ (fun _ => rfl) hf
  case rxS =>
    split at hs <;> cases hs
    exact actRead_storeSample_keeps_faulted hf
  all_goals
    cases hs
    exact act_keeps_faulted _ (fun _ => rfl) hf

/-- Nor does a step of the engine, which answers a fetched wire command with FAULTED (entry 17). -/
theorem engineStep_keeps_faulted {s t : State} (hf : s.faulted = true) (h : engineStep s = .next t) :
    t.faulted = true := by
  unfold engineStep at h
  split at h
  · rw [exec_of_faulted _ hf] at h; cases h; exact hf
  · exact seqStep_keeps_faulted hf h

/-- Without reset applied FAULTED stays set. -/
theorem step_keeps_faulted {s t : State} (hf : s.faulted = true) (hr : s.resetPin = false) (h : step s = .next t) :
    t.faulted = true := by
  by_cases hp : s.phase = .idle
  · obtain ⟨n, ws, ps, rfl | rfl⟩ := hostStep_cases_of_faulted hf (step_of_idle hr hp ▸ h) <;> exact hf
  · rw [step, advance, if_neg (by simp [hr]), if_neg hp] at h
    exact engineStep_keeps_faulted hf h

/-- Settles O21: every meaning is guarded by the FAULTED flag, and no step but reset clears it. -/
theorem faultedAnswersEveryCommandUntilReset : Obligations.FaultedAnswersEveryCommandUntilReset := by
  refine ⟨fun w _ hf => acceptWord_of_faulted w hf, fun i _ hf => exec_of_faulted i hf, fun s t hf h hclear => ?_⟩
  cases hr : s.resetPin with
  | true => rfl
  | false => simp [step_keeps_faulted hf hr h] at hclear

/-- Settles O22: the invariant has a faulted block in IDLE, where a step touches the host's data and the answer alone. -/
theorem faultedBlockLeavesTheLinesAlone : Obligations.FaultedBlockLeavesTheLinesAlone := by
  intro s t hi hf hr h
  have hp := hi.faulted hf
  obtain ⟨n, ws, ps, rfl | rfl⟩ := hostStep_cases_of_faulted hf (step_of_idle hr hp ▸ h)
  · exact ⟨rfl, rfl, rfl, rfl, rfl, hp⟩
  · exact ⟨rfl, rfl, rfl, rfl, rfl, rfl⟩

/-! The errors of a word (R157). -/

/-- From `s` to `t` a command was answered with ERR 0, or is running with no response given yet. -/
def NoErrorRaised (s t : State) : Prop := t.err = 0 ∨ (t.busy = true ∧ t.responses = s.responses)

theorem exec_bcdenc_of_clear (x : Byte) {s : State} (hf : s.faulted = false) :
    exec (.bcdenc x) s = .next (bcdenc x s) :=
  congrArg Host.Outcome.next (unlessFaulted_of_clear (bcdenc x) hf)

/-- BCDENC answers ERR 0 for every operand, the free byte above 99 included (R94). -/
theorem bcdenc_err (x : Byte) (s : State) : (bcdenc x s).err = 0 := by
  unfold bcdenc
  split <;> rfl

/-- A legal word raises no error in an unfaulted block, but for an FSET whose operand validation refuses. -/
theorem Reads.exec_noErrorRaised {w : Word} {i : Instr} {s : State} (h : Reads w i) (hf : s.faulted = false)
    (hv : ∀ f v, i = Instr.fset f v → fsetAccepts f v = true) : ∃ t, exec i s = .next t ∧ NoErrorRaised s t := by
  cases h with
  | rdreg => exact ⟨_, rdregIsAccepted _ s hf, .inr ⟨rfl, rfl⟩⟩
  | wrreg => exact ⟨_, wrregIsAccepted _ _ s hf, .inr ⟨rfl, rfl⟩⟩
  | rev8 => exact ⟨_, exec_rev8 _ hf, .inl rfl⟩
  | bcdenc => exact ⟨_, exec_bcdenc_of_clear _ hf, .inl (bcdenc_err _ s)⟩
  | bcddecTens => exact ⟨_, exec_bcddec _ _ _ hf, .inl rfl⟩
  | bcddecOnes => exact ⟨_, exec_bcddec _ _ _ hf, .inl rfl⟩
  | mapaddr => exact ⟨_, exec_mapaddr _ _ hf, .inl rfl⟩
  | fget f => exact ⟨_, exec_fget_of_clear f hf, .inr ⟨rfl, rfl⟩⟩
  | fset f => exact ⟨_, exec_fset_of_accepts hf (hv f _ rfl), .inr ⟨rfl, rfl⟩⟩

/-- Settles O23: FAULTED is checked first, then the word is decoded, then an FSET validates its operand. -/
theorem oneErrorIsReportedInPriorityOrder : Obligations.OneErrorIsReportedInPriorityOrder := by
  intro w s
  cases hf : s.faulted with
  | true => exact ⟨_, acceptWord_of_faulted w hf, rfl⟩
  | false =>
    cases hd : decode w with
    | error e =>
      refine ⟨_, acceptWord_of_illegal (by simp [hd]) s, ?_⟩
      rw [hf]
      rfl
    | ok i =>
      rw [acceptWord_of_ok hd]
      by_cases hv : ∀ f v, i = Instr.fset f v → fsetAccepts f v = true
      · obtain ⟨t, ht, hnone⟩ := (reads_of_decode hd).exec_noErrorRaised hf hv
        exact ⟨t, ht, fun f v hfv hno => absurd (hv f v hfv) (by simp [hno]), fun _ => hnone⟩
      · push Not at hv
        obtain ⟨f, v, rfl, hno⟩ := hv
        exact ⟨_, exec_fset_of_not_accepts hf hno, fun _ _ _ _ => rfl, fun hall => absurd (hall f v rfl) hno⟩

end Sys2Proof.Machine
end

section
/-! PROOF. The decoder gives back every well-formed instruction (30_encoding.md); BCDENC above 99; and reset. -/

namespace Sys2Proof.Machine

/-! The host decoder on the encoder's words; RDREG, WRREG, FGET and FSET stand with the runs and in Laws. -/

theorem decode_rev8 (x : Byte) : decode (formatU 0x3#4 x) = .ok (.rev8 x) := by simp [decode]

theorem decode_bcdenc (x : Byte) : decode (formatU 0x4#4 x) = .ok (.bcdenc x) := by simp [decode]

theorem decode_mapaddr (r : Register) (dir : Direction) :
    decode (formatF 0x6#4 r.code dir.code 0#8) = .ok (.mapaddr r dir) := by simp [decode]

/-- With T = 1 the decoder reads both ranges, which must not be inverted (R64). -/
theorem decode_bcddec_some {tens ones : BitRange} (htens : tens.wf = true) (hones : ones.wf = true) (x : Byte) :
    decode (formatB 1#1 tens ones x) = .ok (.bcddec (some tens) ones x) := by
  simp [decode, decodeBcddec, htens, hones]

/-- With T = 0 the tens range is absent and its bits are 0 (R64). -/
theorem decode_bcddec_none {ones : BitRange} (hones : ones.wf = true) (x : Byte) :
    decode (formatB 0#1 ⟨0#3, 0#3⟩ ones x) = .ok (.bcddec none ones x) := by
  simp [decode, decodeBcddec, hones]

/-- BCDDEC in either form: its two ranges are what well-formedness is about. -/
theorem decodeCode_encode_bcddec {tens : Option BitRange} {ones : BitRange} {x : Byte}
    (hwf : WellFormed (.bcddec tens ones x) = true) :
    decodeCode (encode (.bcddec tens ones x)) = .ok (.bcddec tens ones x) := by
  cases tens with
  | none => exact decode_bcddec_none hwf x
  | some tens =>
    obtain ⟨htens, hones⟩ := Bool.and_eq_true_iff.mp hwf
    exact decode_bcddec_some htens hones x

/-- Settles O45: a case a family of instructions, by what the decoder of its code space reads from the family's format;
only BCDDEC needs its operands to be legal. -/
theorem decodeOfEncodeIsTheInstruction : Obligations.DecodeOfEncodeIsTheInstruction := by
  intro i
  refine Instr.byFamily (P := fun i => WellFormed i = true → decodeCode (encode i) = .ok i)
    ?rdreg ?wrreg ?rev8 ?bcdenc ?bcddec ?mapaddr ?fget ?fset ?wireWrite ?wireRead i
  case rdreg => exact fun a _ => decode_rdreg a
  case wrreg => exact fun a d _ => decode_wrreg a d
  case rev8 => exact fun x _ => decode_rev8 x
  case bcdenc => exact fun x _ => decode_bcdenc x
  case bcddec => exact fun tens ones x hwf => decodeCode_encode_bcddec hwf
  case mapaddr => exact fun r dir _ => decode_mapaddr r dir
  case fget => exact fun f _ => (congrArg decodeCode (encode_fget f)).trans (decode_fget f)
  case fset => exact fun f v _ => (congrArg decodeCode (encode_fset f v)).trans (decode_fset f v)
  case wireWrite => exact fun r d _ => (congrArg decodeCode (encode_wireWrite r d)).trans (decode_wireWrite r d)
  case wireRead => exact fun r _ => (congrArg decodeCode (encode_wireRead r)).trans (decode_wireRead r)

/-! BCDENC above 99 (R94). -/

/-- Above 99 the answer is the byte drawn, and the draw is counted (entry 6). -/
theorem bcdenc_of_gt {v : Byte} (hv : 99 < v.toNat) (s : State) :
    bcdenc v s = { s with draws := s.draws + 1 }.withAnswer (zext16 (Config.freeByte s.draws)) :=
  if_neg (Nat.not_le.mpr hv)

/-- Settles O3: the byte is the one drawn. -/
theorem bcdencAbove99CompletesWithSomeByte : Obligations.BcdencAbove99CompletesWithSomeByte :=
  fun v s hf hv => ⟨Config.freeByte s.draws,
    (exec_bcdenc_of_clear v hf).trans (congrArg Host.Outcome.next (bcdenc_of_gt hv s))⟩

/-! Reset (R35, R167). -/

/-- Settles O33: the default of `LINE_MAY_FAIL` is one of the two values for which the state after reset meets the
invariant. -/
theorem invariantHoldsAfterReset : Obligations.InvariantHoldsAfterReset := reset_inv false

/-- Settles O42: the step is `applyReset`, whose line state, latches and registers are those of `State.reset`. -/
theorem resetDoesFourActionsAndTheResetTable : Obligations.ResetDoesFourActionsAndTheResetTable := by
  intro s hr
  refine ⟨applyReset s, step_of_reset hr, applyReset_responses s, applyReset_trace s, ?table⟩
  rw [applyReset_eq]
  exact resetStateHoldsTheResetTable

end Sys2Proof.Machine
end
